-- ==== Sys2Proof/Word.lean ====
section
/-! DEFINITION. The words and small values of the block: the widths the spec states (R10: 16-bit samples, 8-bit
channels, 7-bit VIS codes), the two internal selector widths (R78, R80) and the tone instruction (R79, R14). -/

namespace Sys2Proof

/-- One byte of the pixel buffer (R50, R55: 8 bits, unsigned). -/
abbrev Byte := BitVec 8

/-- One PCM sample on the sample port: 16 bits, two's complement (R57, R96). -/
abbrev Sample := BitVec 16

/-- A 7-bit VIS code, which is also the mode number of a command (R27, R76). Bit 0 is the last character of the
code string (R12). -/
abbrev ModeCode := BitVec 7

/-- The sampler's 3-bit channel selector (R78). -/
abbrev Channel := BitVec 3

/-- The 4-bit reference number of an internal operation (R80). -/
abbrev Uop := BitVec 4

/-- A tone instruction `f/d` (R14, R79): frequency in Hz and duration in ms, both exact rationals (R11). -/
structure Tone where
  f : Rat
  d : Rat
  deriving DecidableEq, Repr

/-- The domain of a tone instruction, `f >= 0` and `d > 0` (R79, R90), read off the numerators. -/
def Tone.legal (t : Tone) : Bool := decide (0 ≤ t.f.num) && decide (0 < t.d.num)

end Sys2Proof
end

