-- ==== Sys2Proof/Config.lean ====
section
/-! DEFINITION. What is fixed for one block: the open parameters of R10 that a model takes as arguments (`PREAMBLE`,
`OSC_END`), their reference values, and the values the model names where the spec gives none (each with its log
entry). `SR` is an input of every command and is latched by it (R28). `PHASE_BITS` and `SINE_DEPTH` are read by no
rule (R10, D27) and have no counterpart here. -/

namespace Sys2Proof

/-- The parameter `OSC_END` (R10, R120): where the phase is re-seeded after a segment of `n` samples. -/
inductive OscEnd where
  /-- at index `max (n - 1) 0`, the reference value -/
  | last
  /-- at index `n` -/
  | next
  deriving DecidableEq, Repr

/-- The open parameters a model takes as arguments (R10, D4, D8). They are constant; they stand in the state so that
every statement about all states is a statement about all their values (log entry 4). -/
structure Params where
  /-- `PREAMBLE`: the tones emitted before the VIS leader (R161) -/
  preamble : List Tone
  /-- `OSC_END` (R120) -/
  oscEnd : OscEnd
  deriving DecidableEq, Repr

namespace Config

/-- The reference values of R10: an empty `PREAMBLE` and `OSC_END = LAST`. -/
def referenceParams : Params := ⟨[], .last⟩

/-- What a byte of the pixel buffer that the host has not placed reads as. DESIGN CHOICE (log entry 7): unsafe. -/
def unplacedByte : Byte := 0

/-- `MODE` after hardware reset, where R39 says "unspecified": PD-120. DESIGN CHOICE (log entry 6): unsafe. -/
def resetMode : ModeCode := 0b1011111#7

/-- `CFG.SR` after hardware reset: the first reference rate of R10. DESIGN CHOICE (log entry 6): unsafe. -/
def resetSampleRate : BitVec 32 := 44100

/-- `IMG.W` after hardware reset: the width that goes with `resetMode`. DESIGN CHOICE (log entry 6): unsafe. -/
def resetWidth : BitVec 16 := 640

/-- `IMG.H` after hardware reset: the rows that go with `resetMode`. DESIGN CHOICE (log entry 6): unsafe. -/
def resetHeight : BitVec 16 := 496

end Config

end Sys2Proof
end

