-- ==== Sys2Proof/Syntax.lean ====
section
/-! DEFINITION. The operations of the block, one constructor per row of the opcode table (R95), and the form in which an
operation is issued: a code on one of the three carriers of R75 with operands that have no binary layout. -/

namespace Sys2Proof

/-- The 22 named operations of the block (R95). -/
inductive Instr where
  /-- `ENCODE.SDX`: the host command with `mode = 1001100` (R225, R233) -/
  | encodeSdx
  /-- `ENCODE.PD120`: the host command with `mode = 1011111` (R225, R234) -/
  | encodePd120
  /-- `ENCODE.R36`: the host command with `mode = 0001000` (R225, R235) -/
  | encodeR36
  /-- `OSC_RESET` (R111) -/
  | oscReset
  /-- `EMIT f, d` (R112) -/
  | emit (f d : Rat)
  /-- `PUSH s` (R124) -/
  | push (v : Sample)
  /-- `SAMPLE.R x, y` (R141) -/
  | sampleR (x y : Nat)
  /-- `SAMPLE.G x, y` (R142) -/
  | sampleG (x y : Nat)
  /-- `SAMPLE.B x, y` (R143) -/
  | sampleB (x y : Nat)
  /-- `SAMPLE.Y x, y` (R144) -/
  | sampleY (x y : Nat)
  /-- `SAMPLE.RY x, y` (R145) -/
  | sampleRY (x y : Nat)
  /-- `SAMPLE.BY x, y` (R146) -/
  | sampleBY (x y : Nat)
  /-- `AVG2 a, b` (R149) -/
  | avg2 (a b : Rat)
  /-- `FMAP I` (R150) -/
  | fmap (intensity : Rat)
  /-- `ENCODE_VIS code` (R160) -/
  | encodeVis (code : ModeCode)
  /-- `SCAN.SDX` (R180, R183) -/
  | scanSdx
  /-- `SCAN.PD120` (R195, R198) -/
  | scanPd120
  /-- `SCAN.R36` (R210, R213) -/
  | scanR36
  /-- `EOT` (R231) -/
  | eot
  /-- `CMD.ILLEGAL`: a command with one of the 125 codes that are no mode (R88) -/
  | cmdIllegal (mode : ModeCode)
  /-- `CH.ILLEGAL`: a SAMPLE whose selector is `11c` (R89, R147) -/
  | chIllegal (c : BitVec 1) (x y : Nat)
  /-- `TONE.ILLEGAL`: an EMIT with `f < 0` or `d <= 0` (R90) -/
  | toneIllegal (f d : Rat)
  deriving DecidableEq, Repr

/-- One operand of an issued internal operation. The spec gives these operands no binary layout (R79). -/
inductive Operand where
  /-- an exact rational: a frequency, a duration or an intensity -/
  | rat (q : Rat)
  /-- a 16-bit sample (R57) -/
  | sample (v : Sample)
  /-- a column or a row -/
  | coord (n : Nat)
  /-- a channel selector (R78) -/
  | channel (ch : Channel)
  /-- a VIS code (R160) -/
  | code (c : ModeCode)
  deriving DecidableEq, Repr

/-- An operation as it is issued: a code on one of the carriers of R75. -/
inductive IssueWord where
  /-- format `CMD`: `mode[6:0]` on the command port (R76) -/
  | cmd (mode : ModeCode)
  /-- format `CH`: `ch[2:0]` from a scan slot to the sampler, with the coordinates (R78) -/
  | ch (sel : Channel) (x y : Nat)
  /-- format `UOP`: `uop[3:0]` with the operation's operands (R80); EMIT carries its `TONE` pair here (R79) -/
  | uop (code : Uop) (args : List Operand)
  deriving DecidableEq, Repr

end Sys2Proof
end

