-- ==== Sys2Proof/WellFormed.lean ====
section
/-! DEFINITION. Which terms of Instr are operations of the opcode table: the operand domains of R88 and R90. -/

namespace Sys2Proof

/-- The three codes of R77. -/
def ModeCode.isMode (c : ModeCode) : Bool := c == 0b1001100#7 || c == 0b1011111#7 || c == 0b0001000#7

/-- An operation is well formed when its operands belong to its row: EMIT has a legal tone (R79), `TONE.ILLEGAL` an
illegal one (R90), and `CMD.ILLEGAL` a code that is no mode (R88). Every other operand ranges over its whole type. -/
def Instr.wf : Instr → Bool
  | .emit f d => Tone.legal ⟨f, d⟩
  | .toneIllegal f d => !Tone.legal ⟨f, d⟩
  | .cmdIllegal mode => !mode.isMode
  | .encodeSdx | .encodePd120 | .encodeR36 | .oscReset | .push _ | .sampleR _ _ | .sampleG _ _ | .sampleB _ _
  | .sampleY _ _ | .sampleRY _ _ | .sampleBY _ _ | .avg2 _ _ | .fmap _ | .encodeVis _ | .scanSdx | .scanPd120
  | .scanR36 | .eot | .chIllegal _ _ _ => true

end Sys2Proof
end

