-- ==== Sys2Proof/Decode.lean ====
section
/-! DEFINITION. Decoding an issued word into an operation, total and rejecting by name, and the encoder, both from the
tables of R77, R78 and R80. `decodeTableWord` reads the opcode table's own words. -/

namespace Sys2Proof

/-- Why a word is no operation. -/
inductive DecodeError where
  /-- `uop[3:0]` is one of the unassigned numbers 1011 to 1111 (R80; U7: refuse) -/
  | unassignedUop (code : Uop)
  /-- the operands are not those of the operation with this number -/
  | wrongOperands (code : Uop)
  deriving DecidableEq, Repr

/-- Format `CMD` (R76, R77, R88): every 7-bit value is a command, three of them modes. -/
def decodeCommand (mode : ModeCode) : Instr :=
  if mode = 0b1001100#7 then .encodeSdx
  else if mode = 0b1011111#7 then .encodePd120
  else if mode = 0b0001000#7 then .encodeR36
  else .cmdIllegal mode

/-- Format `CH` (R78, R89): six selectors name a channel, `110` and `111` name none. -/
def decodeChannel (sel : Channel) (x y : Nat) : Instr :=
  if sel = 0b000#3 then .sampleR x y
  else if sel = 0b001#3 then .sampleG x y
  else if sel = 0b010#3 then .sampleB x y
  else if sel = 0b011#3 then .sampleY x y
  else if sel = 0b100#3 then .sampleRY x y
  else if sel = 0b101#3 then .sampleBY x y
  else .chIllegal (sel.extractLsb' 0 1) x y

/-- The `TONE` operands of EMIT (R79, R90). -/
def decodeTone (f d : Rat) : Instr := if Tone.legal ⟨f, d⟩ then .emit f d else .toneIllegal f d

/-- An operation number with its operands, where they are those of the operation. -/
def decodeOperands (code : Uop) : Option Instr → Except DecodeError Instr
  | some i => .ok i
  | none => .error (.wrongOperands code)

/-- Operands: none. -/
def noOperands (i : Instr) : List Operand → Option Instr
  | [] => some i
  | _ => none

/-- Operands: one rational. -/
def oneRational (i : Rat → Instr) : List Operand → Option Instr
  | [.rat a] => some (i a)
  | _ => none

/-- Operands: two rationals. -/
def twoRationals (i : Rat → Rat → Instr) : List Operand → Option Instr
  | [.rat a, .rat b] => some (i a b)
  | _ => none

/-- Operands: one sample. -/
def oneSample (i : Sample → Instr) : List Operand → Option Instr
  | [.sample v] => some (i v)
  | _ => none

/-- Operands: one VIS code. -/
def oneCode (i : ModeCode → Instr) : List Operand → Option Instr
  | [.code c] => some (i c)
  | _ => none

/-- Operands: a channel selector and a position. -/
def channelAt (i : Channel → Nat → Nat → Instr) : List Operand → Option Instr
  | [.channel sel, .coord x, .coord y] => some (i sel x y)
  | _ => none

/-- Format `UOP` (R80). Number `1010` is SAMPLE with a `CH` operand; numbers above it are unassigned. -/
def decodeUop (code : Uop) (args : List Operand) : Except DecodeError Instr :=
  if code = 0b0000#4 then decodeOperands code (noOperands .oscReset args)
  else if code = 0b0001#4 then decodeOperands code (twoRationals decodeTone args)
  else if code = 0b0010#4 then decodeOperands code (oneSample .push args)
  else if code = 0b0011#4 then decodeOperands code (twoRationals .avg2 args)
  else if code = 0b0100#4 then decodeOperands code (oneRational .fmap args)
  else if code = 0b0101#4 then decodeOperands code (oneCode .encodeVis args)
  else if code = 0b0110#4 then decodeOperands code (noOperands .scanSdx args)
  else if code = 0b0111#4 then decodeOperands code (noOperands .scanPd120 args)
  else if code = 0b1000#4 then decodeOperands code (noOperands .scanR36 args)
  else if code = 0b1001#4 then decodeOperands code (noOperands .eot args)
  else if code = 0b1010#4 then decodeOperands code (channelAt decodeChannel args)
  else .error (.unassignedUop code)

/-- The operation an issued word stands for. -/
def decode : IssueWord → Except DecodeError Instr
  | .cmd mode => .ok (decodeCommand mode)
  | .ch sel x y => .ok (decodeChannel sel x y)
  | .uop code args => decodeUop code args

/-- The word of a well-formed operation, from the same tables. -/
def encode : Instr → IssueWord
  | .encodeSdx => .cmd 0b1001100#7
  | .encodePd120 => .cmd 0b1011111#7
  | .encodeR36 => .cmd 0b0001000#7
  | .oscReset => .uop 0b0000#4 []
  | .emit f d => .uop 0b0001#4 [.rat f, .rat d]
  | .push v => .uop 0b0010#4 [.sample v]
  | .sampleR x y => .ch 0b000#3 x y
  | .sampleG x y => .ch 0b001#3 x y
  | .sampleB x y => .ch 0b010#3 x y
  | .sampleY x y => .ch 0b011#3 x y
  | .sampleRY x y => .ch 0b100#3 x y
  | .sampleBY x y => .ch 0b101#3 x y
  | .avg2 a b => .uop 0b0011#4 [.rat a, .rat b]
  | .fmap i => .uop 0b0100#4 [.rat i]
  | .encodeVis c => .uop 0b0101#4 [.code c]
  | .scanSdx => .uop 0b0110#4 []
  | .scanPd120 => .uop 0b0111#4 []
  | .scanR36 => .uop 0b1000#4 []
  | .eot => .uop 0b1001#4 []
  | .cmdIllegal mode => .cmd mode
  | .chIllegal c x y => .ch (0b11#2 ++ c) x y
  | .toneIllegal f d => .uop 0b0001#4 [.rat f, .rat d]

/-- The operands of number `code` when none are written out: zeros, but for EMIT, whose duration has no zero (R79), so
one millisecond stands there (log entry 9). -/
def plainOperands (code : Uop) : List Operand :=
  match code.toNat with
  | 1 => [.rat 0, .rat 1]
  | 2 => [.sample 0]
  | 3 => [.rat 0, .rat 0]
  | 4 => [.rat 0]
  | 5 => [.code 0]
  | 10 => [.channel 0, .coord 0, .coord 0]
  | _ => []

/-- The issued word of an opcode-table row, none where `w` is wider than its format. A row is carried on the format its
width names (3 bits `CH`, 4 bits `UOP`, 7 bits `CMD`). Where the width is given in whole bytes it does not tell the
carriers apart: a value below 16 is then read as a `UOP` number and any other as a command (log entry 9). -/
def tableIssue (nbits w : Nat) : Option IssueWord :=
  if nbits = 3 then
    if w < 8 then some (.ch (BitVec.ofNat 3 w) 0 0) else none
  else if nbits = 7 then
    if w < 128 then some (.cmd (BitVec.ofNat 7 w)) else none
  else if w < 16 then some (.uop (BitVec.ofNat 4 w) (plainOperands (BitVec.ofNat 4 w)))
  else if nbits = 4 then none
  else if w < 128 then some (.cmd (BitVec.ofNat 7 w))
  else none

/-- The operation the decoder reads from an opcode-table word of `nbits` bits. -/
def decodeTableWord (nbits w : Nat) : Option Instr :=
  match tableIssue nbits w with
  | none => none
  | some word =>
    match decode word with
    | .ok i => some i
    | .error _ => none

end Sys2Proof
end

