-- ==== Sys2Proof/Machine/State.lean ====
section
/-! DEFINITION. The state of the block as plain data (R20, R33, R50, R56), the two memories it touches, the input pins the
host and the sink drive, and the state right after hardware reset (R39). -/

namespace Sys2Proof.Machine

/-- Why a step stops with a fault. The block's own errors are NOT here: they are the fault entry of R258, a next state. -/
inductive Fault where
  /-- a SAMPLE or a scan reads a pixel with `x >= IMG.W` or `y >= IMG.H`, an address outside `PIX` (R53, U5: no meaning).
  Raised by the SAMPLE and SCAN meanings and by the sequencer; safe: no value is returned. -/
  | pixelOutsideBuffer
  deriving DecidableEq, Repr

/-- Why a step gives no meaning. -/
inductive Refusal where
  /-- the operation has no meaning yet; raised by an arm of exec only; safe -/
  | notModelled (mnemonic : String)
  /-- EMIT with `f < 0` or `d <= 0` (R90, U1: refuse); raised by EMIT, TONE.ILLEGAL, ENCODE_VIS with an illegal
  `PREAMBLE`, and the sequencer; safe -/
  | toneOutOfDomain
  /-- a run or a tone with `SR = 0` (R256, U2: refuse); raised by ENCODE, EMIT, ENCODE_VIS, SCAN, EOT; safe -/
  | sampleRateZero
  /-- an issued word that is no operation (R80, U7: refuse); raised by the step; safe -/
  | malformedWord (e : DecodeError)
  /-- the host changes the pixel buffer while an encode runs (R238, R300, U3: refuse); raised by the step; safe -/
  | pixelBufferChanged
  /-- a sequencer position that no rule assigns a tone (R30); no run from reset holds one; raised by the step; safe -/
  | unassignedPosition
  deriving DecidableEq, Repr

/-- The frame stages of `SEQ.stage` (R30, R227). -/
inductive Stage where
  | idle | pre | vis | body | eot | done | fault
  deriving DecidableEq, Repr

/-- The sequencer position `SEQ = (stage, k, row, slot, x)` (R30). -/
structure Seq where
  stage : Stage
  k : Nat
  row : Nat
  slot : Nat
  x : Nat
  deriving DecidableEq, Repr

/-- The oscillator state (R21 to R23). The pair `(OSC.la, OSC.lc)` is held as the phase in turns of R126, with
`OSC.la = sin (2 pi ph)` and `OSC.lc = cos (2 pi ph)` (log entry 1). -/
structure Osc where
  /-- the phase `PH` of R126, in turns -/
  ph : Rat
  /-- `OSC.carry` (R23) -/
  carry : Rat
  deriving DecidableEq, Repr

/-- The operands latched when a command is accepted (R27, R28, R29). -/
structure Latched where
  /-- `MODE` (R27) -/
  mode : ModeCode
  /-- `CFG.SR` (R28) -/
  sr : BitVec 32
  /-- `IMG.W` (R29) -/
  w : BitVec 16
  /-- `IMG.H` (R29) -/
  h : BitVec 16
  deriving DecidableEq, Repr

/-- `STATUS.busy`, `STATUS.done` and `ERR` (R35, R251). -/
structure Status where
  busy : Bool
  done : Bool
  err : BitVec 3
  deriving DecidableEq, Repr

/-- The transient values of an EMIT in progress (R33): its operands, its count `n`, the index `i` of the next sample and
the starting phase `theta0`, here in turns. -/
structure Emission where
  tone : Tone
  n : Nat
  i : Nat
  theta0 : Rat
  deriving DecidableEq, Repr

/-- The sample sink (R56, R66): what it has accepted, and its answers to the samples still to come. -/
structure Sink where
  /-- every sample accepted so far, NEWEST FIRST -/
  acceptedRev : List Sample
  /-- how many of them precede the current encode: position 0 of `SMP` (R59) is the sample after these -/
  base : Nat
  /-- the sink's answers to the next samples, oldest first, `true` for `ok` (R66: a free input) -/
  answers : List Bool
  /-- its answer to every sample after those -/
  rest : Bool
  deriving DecidableEq, Repr

/-- What the host drives on the input ports in one step (R264), with the bytes it places in its pixel buffer (R289). -/
structure Pins where
  rst : Bool
  cmdValid : Bool
  cmdMode : ModeCode
  cfgSampleRate : BitVec 32
  imgWidth : BitVec 16
  imgHeight : BitVec 16
  /-- (address, byte) pairs the host writes to the pixel buffer in this step -/
  stores : List (BitVec 32 × Byte)
  deriving DecidableEq, Repr

/-- The pixel buffer `PIX` (R50): the bytes that differ from `Config.unplacedByte`, by rising address. -/
abbrev Memory := List Host.Cell

/-- The block with the two memories it touches and the inputs that drive it. -/
structure State where
  /-- `OSC.la`, `OSC.lc`, `OSC.carry` (R21, R22, R23) -/
  osc : Osc
  /-- `TOTAL` (R26), unbounded as R296 allows (log entry 3) -/
  total : Nat
  /-- `MODE`, `CFG.SR`, `IMG.W`, `IMG.H` (R27, R28, R29) -/
  latched : Latched
  /-- `STATUS.busy`, `STATUS.done`, `ERR` (R35) -/
  status : Status
  /-- `SEQ` (R30) -/
  seq : Seq
  /-- `VIS.ones` (R32) -/
  visOnes : Nat
  /-- the EMIT in progress, if one is (R33) -/
  emitting : Option Emission
  /-- `PIX`, owned by the host, read only to the block (R50, R54) -/
  pix : Memory
  /-- `SMP`, owned by the sink, append only (R56) -/
  sink : Sink
  /-- what the input ports carry now (R264) -/
  pins : Pins
  /-- what they carry in the steps to come, one entry a step; when it is empty the ports are quiet -/
  inputs : List Pins
  /-- an operation issued by itself, the model's own field: none in every run from reset (log entry 8) -/
  issue : Option IssueWord
  /-- the value the last operation returned to its issuer, the model's own field (log entry 5) -/
  result : Rat
  /-- `PREAMBLE` and `OSC_END` (R10), constant (log entry 4) -/
  params : Params
  deriving DecidableEq, Repr

/-- The sequencer at rest after hardware reset (R39, R286). -/
def Seq.idle : Seq := ⟨.idle, 0, 0, 0, 0⟩

/-- The oscillator state after either reset (R39, R111): phase 0, that is `la = 0` and `lc = 1`, and no carry. -/
def Osc.start : Osc := ⟨0, 0⟩

/-- The latched operands after hardware reset, which R39 leaves unspecified. DESIGN CHOICE (log entry 6): unsafe. -/
def Latched.atReset : Latched :=
  ⟨Config.resetMode, Config.resetSampleRate, Config.resetWidth, Config.resetHeight⟩

/-- The input ports before the host drives them: no reset, no command, nothing placed in the buffer, and the
configuration inputs at the values of `Latched.atReset`. DESIGN CHOICE (log entry 6): unsafe. -/
def Pins.atReset : Pins :=
  ⟨false, false, 0, Config.resetSampleRate, Config.resetWidth, Config.resetHeight, []⟩

/-- The machine right after hardware reset (R39, R286): idle and ready, with the reference parameters of R10, an empty
pixel buffer and sink, and a sink that accepts every sample. -/
def State.reset : State where
  osc := Osc.start
  total := 0
  latched := Latched.atReset
  status := ⟨false, false, 0⟩
  seq := Seq.idle
  visOnes := 0
  emitting := none
  pix := []
  sink := ⟨[], 0, [], true⟩
  pins := Pins.atReset
  inputs := []
  issue := none
  result := 0
  params := Config.referenceParams

end Sys2Proof.Machine
end

