-- ==== Sys2Proof/Machine/Sine.lean ====
section
/-! DEFINITION. The sample former (sine_table_dac): `round`, `clamp16` and `DAC(t) = clamp16(round(32767 * sin(2 pi t)))`
(R13, R118, R126) for a rational phase `t` in turns, by exact rational arithmetic.

The sine is enclosed by a Taylor polynomial at `2 pi' u`, `pi'` from Machin's formula, with an error bound; the enclosure is
made finer until both its ends round alike. `Laws/Sine.lean` proves that the value is the rounded sine of R118. -/

namespace Sys2Proof.Machine

/-- The peak amplitude `AMP` of the sample formula (R10). -/
def amplitude : Int := 32767

/-- `round` of R13: the nearest integer, a tie going away from zero (D3). -/
def roundAway (q : Rat) : Int := if 0 ≤ q then (q + 1 / 2).floor else -((-q + 1 / 2).floor)

/-- `clamp16` of R13. -/
def clamp16 (z : Int) : Int := min (max z (-32768)) 32767

/-- `frac` of R13. -/
def frac (q : Rat) : Rat := q - (q.floor : Rat)

/-- The first `k` terms of the arctangent series at `1 / m`. -/
def arctanInverse (m : Nat) : Nat → Rat
  | 0 => 0
  | k + 1 => arctanInverse m k + (-1) ^ k / ((2 * (k : Rat) + 1) * (m : Rat) ^ (2 * k + 1))

/-- `pi` to `k` terms of Machin's formula `pi / 4 = 4 arctan (1/5) - arctan (1/239)`. -/
def piApprox (k : Nat) : Rat := 4 * (4 * arctanInverse 5 k - arctanInverse 239 k)

/-- The sum `1 - y / ((2j+2)(2j+3)) (1 - ...)` of `n` terms, Horner's form of the sine series in `y = x * x`. -/
def sineSeries (y : Rat) : Nat → Nat → Rat
  | 0, _ => 0
  | n + 1, j => 1 - y / ((2 * (j : Rat) + 2) * (2 * (j : Rat) + 3)) * sineSeries y n (j + 1)

/-- The Taylor polynomial of the sine with `n` terms. -/
def sineApprox (x : Rat) (n : Nat) : Rat := x * sineSeries (x * x) n 0

/-- `t` moved by whole turns into [-1/2, 1/2). -/
def principalTurn (t : Rat) : Rat := frac (t + 1 / 2) - 1 / 2

/-- `32767 * sin (2 pi u)` to within `1 / 4 ^ n`, for `u` in [-1/2, 1/2). -/
def scaledSine (u : Rat) (n : Nat) : Rat := (amplitude : Rat) * sineApprox (2 * piApprox n * u) n

/-- The rounded value at the first precision, from `n` terms on, whose enclosure rounds to one integer. -/
def roundedSine (u : Rat) : Nat → Nat → Int
  | 0, n => roundAway (scaledSine u n)
  | fuel + 1, n =>
    let v := scaledSine u n
    let e : Rat := 1 / 4 ^ n
    if roundAway (v - e) = roundAway (v + e) then roundAway v else roundedSine u fuel (2 * n)

/-- `round(32767 * sin(2 pi t))` (R118). The four phases at which the ideal value is a tie (R129 (d)) are taken first; at
every other phase the enclosure is decided after at most `log2 (den t) + 4` doublings. -/
def idealSample (t : Rat) : Int :=
  let u := principalTurn t
  if u = 1 / 12 ∨ u = 5 / 12 then 16384
  else if u = -1 / 12 ∨ u = -5 / 12 then -16384
  else roundedSine u (Nat.log2 t.den + 4) 16

/-- `DAC(t)` of R126 and R129, `t` in turns. -/
def dac (t : Rat) : Int := clamp16 (idealSample t)

/-- The sample word on the port: 16 bits, two's complement (R57, R96). -/
def sampleWord (t : Rat) : Sample := BitVec.ofInt 16 (dac t)

end Sys2Proof.Machine
end

