-- ==== Sys2Proof/Machine/Operands.lean ====
section
/-! DEFINITION. How operands and intermediate values are formed: the mode descriptor table (R77, R87), the duration to
sample count rule (R113, R114), the pixel address (R51), the six channel formulas (R141 to R146), the average and the
frequency map (R149, R150), and the fixed tones (R162 to R166, R231). -/

namespace Sys2Proof.Machine

/-- The three modes of R10. -/
inductive Mode where
  | scottieDx | pd120 | robot36
  deriving DecidableEq, Repr

/-- The VIS code of a mode (R77). -/
def Mode.code : Mode → ModeCode
  | .scottieDx => 0b1001100#7
  | .pd120 => 0b1011111#7
  | .robot36 => 0b0001000#7

/-- The mode a code names, if it names one (R77, R88). -/
def modeOfCode (c : ModeCode) : Option Mode :=
  if c = Mode.code .scottieDx then some .scottieDx
  else if c = Mode.code .pd120 then some .pd120
  else if c = Mode.code .robot36 then some .robot36
  else none

/-- The width `W` of a mode in pixels (R87). -/
def Mode.width : Mode → Nat
  | .scottieDx => 320
  | .pd120 => 640
  | .robot36 => 320

/-- The row count `ROWS` of a mode (R87). -/
def Mode.rows : Mode → Nat
  | .scottieDx => 256
  | .pd120 => 496
  | .robot36 => 240

/-- EMIT step 1: `target = SR * d / 1000` (R113). -/
def targetCount (sr : BitVec 32) (d : Rat) : Rat := (sr.toNat : Rat) * d / 1000

/-- EMIT step 1: `n0 = trunc(target)` (R113). -/
def nominalCount (sr : BitVec 32) (d : Rat) : Nat := (targetCount sr d).floor.toNat

/-- EMIT step 2: `c1 = OSC.carry + (target - n0)` (R114). -/
def carrySum (sr : BitVec 32) (d carry : Rat) : Rat := carry + (targetCount sr d - (nominalCount sr d : Rat))

/-- EMIT step 2: `k = floor(c1)` when `c1 >= 1`, else 0 (R114). -/
def carriedSamples (sr : BitVec 32) (d carry : Rat) : Nat :=
  if 1 ≤ carrySum sr d carry then (carrySum sr d carry).floor.toNat else 0

/-- EMIT step 2: the count `n = n0 + k` (R112, R114). -/
def segmentCount (sr : BitVec 32) (d carry : Rat) : Nat := nominalCount sr d + carriedSamples sr d carry

/-- EMIT step 2: the new carry `c1 - k` (R112, R114). -/
def segmentCarry (sr : BitVec 32) (d carry : Rat) : Rat :=
  carrySum sr d carry - (carriedSamples sr d carry : Rat)

/-- EMIT steps 3 and 4: the phase argument of sample `i`, in turns (R117 under R126). -/
def phaseAt (sr : BitVec 32) (f theta0 : Rat) (i : Nat) : Rat := theta0 + f * (i : Rat) / (sr.toNat : Rat)

/-- EMIT step 7: the index the phase is re-seeded at (R120, R121). -/
def reseedIndex : OscEnd → Nat → Nat
  | .last, n => n - 1
  | .next, n => n

/-- `addr(x, y, c) = 3 * (y * IMG.W + x) + c` (R51). -/
def pixelAddress (w : BitVec 16) (x y c : Nat) : Nat := 3 * (y * w.toNat + x) + c

/-- `SAMPLE.Y` of a pixel (R144). -/
def lumaOf (r g b : Byte) : Rat :=
  16 + 3906 / 1000000 *
    (65738 / 1000 * (r.toNat : Rat) + 129057 / 1000 * (g.toNat : Rat) + 25064 / 1000 * (b.toNat : Rat))

/-- `SAMPLE.RY` of a pixel (R145). -/
def redChromaOf (r g b : Byte) : Rat :=
  128 + 3906 / 1000000 *
    (112439 / 1000 * (r.toNat : Rat) - 94154 / 1000 * (g.toNat : Rat) - 18285 / 1000 * (b.toNat : Rat))

/-- `SAMPLE.BY` of a pixel (R146). -/
def blueChromaOf (r g b : Byte) : Rat :=
  128 + 3906 / 1000000 *
    (-(37945 / 1000) * (r.toNat : Rat) - 74494 / 1000 * (g.toNat : Rat) + 112439 / 1000 * (b.toNat : Rat))

/-- `AVG2 a, b` (R149). -/
def average (a b : Rat) : Rat := (a + b) / 2

/-- `FMAP I = 1500 + I * 3.1372549` (R150, R85). -/
def frequencyOf (intensity : Rat) : Rat := 1500 + intensity * (31372549 / 10000000)

/-- The pseudo-instruction `PIX I, d` (R94, R151). -/
def pixelTone (intensity d : Rat) : Tone := ⟨frequencyOf intensity, d⟩

/-- A VIS data or parity bit on the air (R83). -/
def bitTone (one : Bool) : Tone := if one then ⟨1100, 30⟩ else ⟨1300, 30⟩

/-- The tone of VIS slot `k` (R162 to R166), where `ones` is `VIS.ones`. -/
def visTone (code : ModeCode) (ones k : Nat) : Option Tone :=
  match k with
  | 0 | 2 => some ⟨1900, 100⟩
  | 1 | 3 | 5 | 7 => some ⟨1500, 100⟩
  | 4 | 6 => some ⟨2300, 100⟩
  | 8 | 10 => some ⟨1900, 300⟩
  | 9 => some ⟨1200, 10⟩
  | 11 => some ⟨1200, 30⟩
  | 19 => some (bitTone (ones % 2 == 1))
  | 20 => some ⟨1200, 30⟩
  | _ => if 12 ≤ k ∧ k ≤ 18 then some (bitTone (code.getLsbD (k - 12))) else none

/-- The end-of-transmission tone `k` (R231). -/
def eotTone (k : Nat) : Option Tone :=
  match k with
  | 0 => some ⟨1500, 500⟩
  | 1 | 3 => some ⟨1900, 100⟩
  | 2 | 4 => some ⟨1500, 100⟩
  | _ => none

end Sys2Proof.Machine
end

