-- ==== Sys2Proof/Machine/Flags.lean ====
section
/-! DEFINITION. The block has no arithmetic flags (R35). What it has: the error kinds and their codes (R251), the status
bits, the parity bit of the VIS header (R84), and the output ports that show the status (R264). -/

namespace Sys2Proof.Machine

/-- The error kinds (R250, R251). `imageLoadFailure` is reserved for the host's wrapper; the block never raises it (R252). -/
inductive ErrorKind where
  | imageLoadFailure | unsupportedMode | invalidChannel | sinkWriteFailure | invalidGeometry
  deriving DecidableEq, Repr

/-- The code of an error kind on `ERR` (R251). -/
def ErrorKind.code : ErrorKind → BitVec 3
  | .imageLoadFailure => 1
  | .unsupportedMode => 2
  | .invalidChannel => 3
  | .sinkWriteFailure => 4
  | .invalidGeometry => 5

/-- Status on the acceptance of a command (R225). -/
def Status.accepted : Status := ⟨true, false, 0⟩

/-- Status on fault entry (R258). -/
def Status.faulted (e : ErrorKind) : Status := ⟨false, true, e.code⟩

/-- Status on completion (R232): `ERR` stays as it is. -/
def Status.completed (st : Status) : Status := ⟨false, true, st.err⟩

/-- Status after hardware reset (R286). -/
def Status.atReset : Status := ⟨false, false, 0⟩

/-- The number of '1' bits among the first `n` data bits of a code (R32, R84). -/
def onesBelow (code : ModeCode) : Nat → Nat
  | 0 => 0
  | n + 1 => onesBelow code n + (if code.getLsbD n then 1 else 0)

/-- The parity bit of R84, the exclusive or of the seven data bits. -/
def parityBit (code : ModeCode) : Bool := onesBelow code 7 % 2 == 1

/-- The stages in which an encode is in progress. -/
def Stage.running : Stage → Bool
  | .pre | .vis | .body | .eot => true
  | .idle | .done | .fault => false

/-- The output ports of R264 that are levels: `cmd_ready` is the complement of `busy` (R225). -/
structure OutputPorts where
  cmdReady : Bool
  busy : Bool
  done : Bool
  err : BitVec 3
  totalSamples : BitVec 32
  smpValid : Bool
  smpData : Sample
  deriving DecidableEq, Repr

/-- What the output ports show in a state (R264). `smp_data` means nothing while `smp_valid` is 0; it is 0 then. -/
def State.outputs (s : State) : OutputPorts where
  cmdReady := !s.status.busy
  busy := s.status.busy
  done := s.status.done
  err := s.status.err
  totalSamples := BitVec.ofNat 32 s.total
  smpValid := s.emitting.isSome
  smpData :=
    match s.emitting with
    | none => 0
    | some e => sampleWord (phaseAt s.latched.sr e.tone.f e.theta0 e.i)

end Sys2Proof.Machine
end

