-- ==== Sys2Proof/Machine/Ops.lean ====
section
/-! DEFINITION. The named operations over the two memories and the registers: the pixel buffer, fault entry (the block's
exception, R258), the sink, the oscillator, command acceptance, completion and hardware reset. -/

namespace Sys2Proof.Machine

/-- How an operation inside a run ends: it goes on, or it has raised an error and entered the fault state (R258). -/
inductive Flow where
  | on (s : State)
  | raised (s : State)
  deriving DecidableEq, Repr

/-- The state an operation ends in. -/
def Flow.state : Flow → State
  | .on s => s
  | .raised s => s

/-- Sequencing: after an error nothing more is issued (R258). -/
def Flow.andThen (r : Flow) (next : State → Flow) : Flow :=
  match r with
  | .on s => next s
  | .raised s => .raised s

/-! ### The pixel buffer -/

/-- `MemRead(a, 1)` (R51). -/
def Memory.read : Memory → Nat → Byte
  | [], _ => Config.unplacedByte
  | (b, v) :: rest, a => if a = b then v else Memory.read rest a

/-- The host places a byte in its buffer (R289). The block itself has no store to `PIX` (R323). -/
def Memory.write : Memory → Nat → Byte → Memory
  | [], a, v => if v = Config.unplacedByte then [] else [(a, v)]
  | (b, u) :: rest, a, v =>
    if a < b then (if v = Config.unplacedByte then (b, u) :: rest else (a, v) :: (b, u) :: rest)
    else if a = b then (if v = Config.unplacedByte then rest else (a, v) :: rest)
    else (b, u) :: Memory.write rest a v

/-- The canonical form of a memory: addresses strictly rising, no entry equal to what an unlisted address reads as. -/
abbrev Memory.wf (m : Memory) : Prop :=
  m.Pairwise (fun c d => c.1 < d.1) ∧ ∀ c ∈ m, c.2 ≠ Config.unplacedByte

/-- The host's stores of one step, in their order. -/
def placeBytes (m : Memory) (stores : List (BitVec 32 × Byte)) : Memory :=
  stores.foldl (fun m c => m.write c.1.toNat c.2) m

/-- A pixel inside the buffer (R53). -/
def insideBuffer (l : Latched) (x y : Nat) : Bool := decide (x < l.w.toNat) && decide (y < l.h.toNat)

/-- Channel `c` of the pixel at `(x, y)` (R51, R52). -/
def pixelByte (s : State) (x y c : Nat) : Byte := s.pix.read (pixelAddress s.latched.w x y c)

/-- `SAMPLE.R` as a value (R141); bytes are zero-extended (R316 (g)). -/
def redAt (s : State) (x y : Nat) : Rat := ((pixelByte s x y 0).toNat : Rat)

/-- `SAMPLE.G` as a value (R142). -/
def greenAt (s : State) (x y : Nat) : Rat := ((pixelByte s x y 1).toNat : Rat)

/-- `SAMPLE.B` as a value (R143). -/
def blueAt (s : State) (x y : Nat) : Rat := ((pixelByte s x y 2).toNat : Rat)

/-- `SAMPLE.Y` as a value (R144). -/
def lumaAt (s : State) (x y : Nat) : Rat := lumaOf (pixelByte s x y 0) (pixelByte s x y 1) (pixelByte s x y 2)

/-- `SAMPLE.RY` as a value (R145). -/
def redChromaAt (s : State) (x y : Nat) : Rat :=
  redChromaOf (pixelByte s x y 0) (pixelByte s x y 1) (pixelByte s x y 2)

/-- `SAMPLE.BY` as a value (R146). -/
def blueChromaAt (s : State) (x y : Nat) : Rat :=
  blueChromaOf (pixelByte s x y 0) (pixelByte s x y 1) (pixelByte s x y 2)

/-! ### Fault entry -/

/-- Fault entry, `raise E` (R258): the code on `ERR`, `SEQ.stage` at `FAULT`, not busy, done, the tone in progress
abandoned; everything else is kept. There is no return from it (R261): the fault state is left by the acceptance of the
next command or by hardware reset, both below. -/
def faultEntry (e : ErrorKind) (s : State) : State :=
  { s with status := Status.faulted e, seq := { s.seq with stage := .fault }, emitting := none }

/-! ### The sink -/

/-- The sink's answer to the next sample (R66). -/
def Sink.answer (k : Sink) : Bool := k.answers.headD k.rest

/-- The sink after it has accepted `v` (R56, R59). -/
def Sink.accept (k : Sink) (v : Sample) : Sink := { k with acceptedRev := v :: k.acceptedRev, answers := k.answers.tail }

/-- The sink after it has refused a sample: nothing is appended (R62). -/
def Sink.refuse (k : Sink) : Sink := { k with answers := k.answers.tail }

/-- `SMP`, oldest sample first: every sample accepted since power-on (R56). -/
def Sink.accepted (k : Sink) : List Sample := k.acceptedRev.reverse

/-- The samples of the current encode, in emission order (R59). -/
def Sink.stream (k : Sink) : List Sample := k.accepted.drop k.base

/-- The bytes of a sample as the sink serialises it, little-endian (R58). -/
def sampleBytes (v : Sample) : List Byte := [v.extractLsb' 0 8, v.extractLsb' 8 8]

/-- The bytes the sink writes for the current encode, twice `TOTAL` of them (R58, R60, R291). -/
def Sink.bytes (k : Sink) : List Byte := k.stream.flatMap sampleBytes

/-- `Push(v)` (R124). -/
def pushSample (v : Sample) (s : State) : Flow :=
  if s.sink.answer then .on { s with total := s.total + 1, sink := s.sink.accept v }
  else .raised (faultEntry .sinkWriteFailure { s with sink := s.sink.refuse })

/-- The samples of a segment, one Push each, in index order (R119). -/
def pushAll : List Sample → State → Flow
  | [], s => .on s
  | v :: rest, s => (pushSample v s).andThen (pushAll rest)

/-! ### The oscillator -/

/-- `OSC_RESET` (R111). -/
def resetOscillator (s : State) : State := { s with osc := Osc.start }

/-- EMIT steps 1 and 2 on the state: the carry is written before any sample is pushed (R112). -/
def writeCarry (t : Tone) (s : State) : State :=
  { s with osc := { s.osc with carry := segmentCarry s.latched.sr t.d s.osc.carry } }

/-- The `n` samples of a tone that starts at phase `theta0` (R117, R118). -/
def toneSamples (sr : BitVec 32) (f theta0 : Rat) (n : Nat) : List Sample :=
  (List.range n).map fun i => sampleWord (phaseAt sr f theta0 i)

/-- EMIT steps 7 and 8: the phase is re-seeded (R120) and `n` is returned (R123). -/
def endTone (t : Tone) (n : Nat) (theta0 : Rat) (s : State) : State :=
  { s with
    osc := { s.osc with ph := frac (phaseAt s.latched.sr t.f theta0 (reseedIndex s.params.oscEnd n)) }
    result := (n : Rat) }

/-- The whole of `EMIT f, d` (R112) on a legal tone at a positive rate. -/
def emitTone (t : Tone) (s : State) : Flow :=
  let n := segmentCount s.latched.sr t.d s.osc.carry
  (pushAll (toneSamples s.latched.sr t.f s.osc.ph n) (writeCarry t s)).andThen fun s' =>
    .on (endTone t n s.osc.ph s')

/-! ### The frame level -/

/-- The first position of an encode (R228). -/
def Seq.first (p : Params) : Seq := if p.preamble = [] then ⟨.vis, 0, 0, 0, 0⟩ else ⟨.pre, 0, 0, 0, 0⟩

/-- The latches of command acceptance (R225); position 0 of `SMP` is the next sample (R59). -/
def latchCommand (mode : ModeCode) (s : State) : State :=
  { s with
    latched := ⟨mode, s.pins.cfgSampleRate, s.pins.imgWidth, s.pins.imgHeight⟩
    status := Status.accepted
    total := 0
    sink := { s.sink with base := s.sink.acceptedRev.length } }

/-- The start of synthesis (R228, R39): OSC_RESET, no ones counted, `SEQ` at the first tone. -/
def startSynthesis (s : State) : State :=
  { resetOscillator s with seq := Seq.first s.params, visOnes := 0 }

/-- A command at the command port (R225): ignored while busy (R304), else latched and checked in the order of R226. -/
def acceptCommand (mode : ModeCode) (s : State) : Host.Outcome State Fault Refusal :=
  if s.status.busy then .next s
  else
    let s' := latchCommand mode s
    match modeOfCode mode with
    | none => .next (faultEntry .unsupportedMode s')
    | some m =>
      if s'.latched.w.toNat = m.width ∧ s'.latched.h.toNat = m.rows then
        if s'.latched.sr = 0 then .refused .sampleRateZero else .next (startSynthesis s')
      else .next (faultEntry .invalidGeometry s')

/-- Completion of an encode (R232): `TOTAL` is what ENCODE returns (R93), and the counters stop where they are (R31). -/
def complete (s : State) : State :=
  { s with status := s.status.completed, seq := { s.seq with stage := .done }, result := (s.total : Rat) }

/-- Hardware reset (R286): the block's registers as in `State.reset`; the buffer, the sink's samples and the environment
keep what they hold, and no sample of a new encode is counted yet. -/
def hardwareReset (s : State) : State :=
  { s with
    osc := Osc.start
    total := 0
    latched := Latched.atReset
    status := Status.atReset
    seq := Seq.idle
    visOnes := 0
    emitting := none
    sink := { s.sink with base := s.sink.acceptedRev.length }
    issue := none
    result := 0 }

end Sys2Proof.Machine
end

