-- ==== Sys2Proof/Machine/Sequencer.lean ====
section
/-! DEFINITION. The sequencers, twice, as the spec gives them. First the tone programs, the order of emission of R160,
R183, R198, R213 and R231 as a list of positions with their tones, and `runProgram`, which runs one through. Then the
position `SEQ` and its advance (R30, R31, R169, R190, R204, R219), with the steps of R7: the issue of one tone and the
emission of one sample. -/

namespace Sys2Proof.Machine

/-! ### The tone programs -/

/-- A tone instruction at its position. -/
abbrev Entry := Seq × Tone

/-- Tones numbered from 0 in a stage (R30: `k`). -/
def numbered (stage : Stage) (tones : List Tone) : List Entry :=
  tones.zipIdx.map fun p => (⟨stage, p.2, 0, 0, 0⟩, p.1)

/-- The 21 tones of the VIS header (R160). -/
def visTones (code : ModeCode) : List Tone :=
  [⟨1900, 100⟩, ⟨1500, 100⟩, ⟨1900, 100⟩, ⟨1500, 100⟩,
   ⟨2300, 100⟩, ⟨1500, 100⟩, ⟨2300, 100⟩, ⟨1500, 100⟩,
   ⟨1900, 300⟩, ⟨1200, 10⟩, ⟨1900, 300⟩, ⟨1200, 30⟩]
  ++ (List.range 7).map (fun j => bitTone (code.getLsbD j))
  ++ [bitTone (parityBit code), ⟨1200, 30⟩]

/-- `ENCODE_VIS code` with its preamble (R160, R161). -/
def visProgram (p : Params) (code : ModeCode) : List Entry :=
  numbered .pre p.preamble ++ numbered .vis (visTones code)

/-- The five end-of-transmission tones (R231). -/
def eotTones : List Tone := [⟨1500, 500⟩, ⟨1900, 100⟩, ⟨1500, 100⟩, ⟨1900, 100⟩, ⟨1500, 100⟩]

/-- `EOT` (R231). -/
def eotProgram : List Entry := numbered .eot eotTones

/-- A single-tone slot of a row. -/
def single (row slot : Nat) (t : Tone) : List Entry := [(⟨.body, 0, row, slot, 0⟩, t)]

/-- A scan slot of a row: `width` tones, columns ascending from 0 (R183, D13). -/
def scanLine (row slot width : Nat) (tone : Nat → Tone) : List Entry :=
  (List.range width).map fun x => (⟨.body, 0, row, slot, x⟩, tone x)

/-- One row of Scottie-DX (R182, R183). -/
def sdxRow (s : State) (row : Nat) : List Entry :=
  (if row = 0 then single row 0 ⟨1200, 9⟩ else [])
  ++ single row 1 ⟨1500, 3 / 2⟩
  ++ scanLine row 2 320 (fun x => pixelTone (greenAt s x row) (108 / 100))
  ++ single row 3 ⟨1500, 3 / 2⟩
  ++ scanLine row 4 320 (fun x => pixelTone (blueAt s x row) (108 / 100))
  ++ single row 5 ⟨1200, 9⟩
  ++ single row 6 ⟨1500, 3 / 2⟩
  ++ scanLine row 7 320 (fun x => pixelTone (redAt s x row) (108 / 100))

/-- `SCAN.SDX` (R183). -/
def sdxProgram (s : State) : List Entry := (List.range 256).flatMap (sdxRow s)

/-- One row pair of PD-120, `row` even (R197, R198). -/
def pdPair (s : State) (row : Nat) : List Entry :=
  single row 0 ⟨1200, 20⟩
  ++ single row 1 ⟨1500, 208 / 100⟩
  ++ scanLine row 2 640 (fun x => pixelTone (lumaAt s x row) (19 / 100))
  ++ scanLine row 3 640 (fun x => pixelTone (average (redChromaAt s x row) (redChromaAt s x (row + 1))) (19 / 100))
  ++ scanLine row 4 640 (fun x => pixelTone (average (blueChromaAt s x row) (blueChromaAt s x (row + 1))) (19 / 100))
  ++ scanLine row 5 640 (fun x => pixelTone (lumaAt s x (row + 1)) (19 / 100))

/-- `SCAN.PD120` (R198). -/
def pdProgram (s : State) : List Entry := (List.range 248).flatMap fun pair => pdPair s (2 * pair)

/-- The even row of the pair `row` belongs to (R212, R214). -/
def pairRow (row : Nat) : Nat := row - row % 2

/-- One row of Robot-36 (R212, R213). -/
def r36Row (s : State) (row : Nat) : List Entry :=
  let p := pairRow row
  single row 0 ⟨1200, 9⟩
  ++ single row 1 ⟨1500, 3⟩
  ++ scanLine row 2 320 (fun x => pixelTone (lumaAt s x row) (275 / 1000))
  ++ (if row % 2 = 0 then
      single row 3 ⟨1500, 45 / 10⟩
      ++ single row 4 ⟨1900, 3 / 2⟩
      ++ scanLine row 5 320
        (fun x => pixelTone (average (redChromaAt s x p) (redChromaAt s x (p + 1))) (1375 / 10000))
    else
      single row 3 ⟨2300, 45 / 10⟩
      ++ single row 4 ⟨1900, 3 / 2⟩
      ++ scanLine row 5 320
        (fun x => pixelTone (average (blueChromaAt s x p) (blueChromaAt s x (p + 1))) (1375 / 10000)))

/-- `SCAN.R36` (R213). -/
def r36Program (s : State) : List Entry := (List.range 240).flatMap (r36Row s)

/-- Entering a position: `SEQ` stands there, and `VIS.ones` is cleared before the first data bit (R32, R160). -/
def enterPosition (p : Seq) (s : State) : State :=
  { s with seq := p, visOnes := if p.stage = .vis ∧ p.k = 12 then 0 else s.visOnes }

/-- Leaving a position after its tone: a '1' data bit has been counted (R32, R160). -/
def leavePosition (code : ModeCode) (p : Seq) (s : State) : State :=
  { s with
    visOnes :=
      if p.stage = .vis ∧ 12 ≤ p.k ∧ p.k ≤ 18 ∧ code.getLsbD (p.k - 12) = true then s.visOnes + 1 else s.visOnes }

/-- A tone program run through: one EMIT at each position, in order, until the end or an error (R227, R258). -/
def runProgram (code : ModeCode) : List Entry → State → Flow
  | [], s => .on s
  | (p, t) :: rest, s =>
    (emitTone t (enterPosition p s)).andThen fun s' => runProgram code rest (leavePosition code p s')

/-- The sequencer handing over to the next stage. -/
def handOver (stage : Stage) (s : State) : State := { s with seq := ⟨stage, 0, 0, 0, 0⟩ }

/-! ### The sequencer position -/

/-- The number of tones in a slot (R182, R197, R212). -/
def Mode.slotTones : Mode → Nat → Nat
  | .scottieDx, 2 | .scottieDx, 4 | .scottieDx, 7 => 320
  | .pd120, 2 | .pd120, 3 | .pd120, 4 | .pd120, 5 => 640
  | .robot36, 2 | .robot36, 5 => 320
  | _, _ => 1

/-- The last slot of a row (R182, R197, R212). -/
def Mode.lastSlot : Mode → Nat
  | .scottieDx => 7
  | .pd120 => 5
  | .robot36 => 5

/-- The rows one pass of the row loop takes (R198: PD-120 takes a pair). -/
def Mode.rowStep : Mode → Nat
  | .scottieDx => 1
  | .pd120 => 2
  | .robot36 => 1

/-- The slot every row but the first begins at (R190: slot 0 of Scottie-DX exists only for row 0). -/
def Mode.loopSlot : Mode → Nat
  | .scottieDx => 1
  | .pd120 => 0
  | .robot36 => 0

/-- The body positions that exist (R30, R182, R197, R212). -/
def Mode.hasPosition (m : Mode) (p : Seq) : Bool :=
  decide (p.k = 0) && decide (p.row < m.rows) && decide (p.row % m.rowStep = 0) && decide (p.slot ≤ m.lastSlot)
  && decide (p.x < m.slotTones p.slot) && (decide (m.loopSlot ≤ p.slot) || decide (p.row = 0))

/-- The position after a body position, the first of the next stage after the last (R190, R204, R219). -/
def Mode.nextPosition (m : Mode) (p : Seq) : Seq :=
  if p.x + 1 < m.slotTones p.slot then { p with x := p.x + 1 }
  else if p.slot < m.lastSlot then { p with slot := p.slot + 1, x := 0 }
  else if p.row + m.rowStep < m.rows then { p with row := p.row + m.rowStep, slot := m.loopSlot, x := 0 }
  else ⟨.eot, 0, 0, 0, 0⟩

/-- The last row a body position reads; its column is `x` (R186, R201, R216). -/
def Mode.lastRowRead (m : Mode) (p : Seq) : Nat :=
  match m with
  | .scottieDx => p.row
  | .pd120 => if p.slot = 2 then p.row else p.row + 1
  | .robot36 => if p.slot = 2 then p.row else pairRow p.row + 1

/-- Whether a position reads pixels: the scan slots do. -/
def Mode.scans (m : Mode) (slot : Nat) : Bool := decide (1 < m.slotTones slot)

/-- The tone of a Scottie-DX position (R182). -/
def sdxTone (s : State) (p : Seq) : Tone :=
  if p.slot = 2 then pixelTone (greenAt s p.x p.row) (108 / 100)
  else if p.slot = 4 then pixelTone (blueAt s p.x p.row) (108 / 100)
  else if p.slot = 7 then pixelTone (redAt s p.x p.row) (108 / 100)
  else if p.slot = 0 ∨ p.slot = 5 then ⟨1200, 9⟩
  else ⟨1500, 3 / 2⟩

/-- The tone of a PD-120 position (R197). -/
def pdTone (s : State) (p : Seq) : Tone :=
  if p.slot = 0 then ⟨1200, 20⟩
  else if p.slot = 1 then ⟨1500, 208 / 100⟩
  else if p.slot = 2 then pixelTone (lumaAt s p.x p.row) (19 / 100)
  else if p.slot = 3 then
    pixelTone (average (redChromaAt s p.x p.row) (redChromaAt s p.x (p.row + 1))) (19 / 100)
  else if p.slot = 4 then
    pixelTone (average (blueChromaAt s p.x p.row) (blueChromaAt s p.x (p.row + 1))) (19 / 100)
  else pixelTone (lumaAt s p.x (p.row + 1)) (19 / 100)

/-- The tone of a Robot-36 position (R212): the parity of the row selects the separator and the chroma channel. -/
def r36Tone (s : State) (p : Seq) : Tone :=
  let q := pairRow p.row
  if p.slot = 0 then ⟨1200, 9⟩
  else if p.slot = 1 then ⟨1500, 3⟩
  else if p.slot = 2 then pixelTone (lumaAt s p.x p.row) (275 / 1000)
  else if p.slot = 3 then (if p.row % 2 = 0 then ⟨1500, 45 / 10⟩ else ⟨2300, 45 / 10⟩)
  else if p.slot = 4 then ⟨1900, 3 / 2⟩
  else if p.row % 2 = 0 then
    pixelTone (average (redChromaAt s p.x q) (redChromaAt s p.x (q + 1))) (1375 / 10000)
  else pixelTone (average (blueChromaAt s p.x q) (blueChromaAt s p.x (q + 1))) (1375 / 10000)

/-- The tone of a body position of a mode. -/
def Mode.tone : Mode → State → Seq → Tone
  | .scottieDx, s, p => sdxTone s p
  | .pd120, s, p => pdTone s p
  | .robot36, s, p => r36Tone s p

/-- The tone instruction that `SEQ` identifies (R30), none at a resting position and at one that does not exist. -/
def toneAt (s : State) : Option Tone :=
  match s.seq.stage with
  | .idle | .done | .fault => none
  | .pre => s.params.preamble[s.seq.k]?
  | .vis => visTone s.latched.mode s.visOnes s.seq.k
  | .eot => eotTone s.seq.k
  | .body =>
    match modeOfCode s.latched.mode with
    | none => none
    | some m => if m.hasPosition s.seq then some (m.tone s s.seq) else none

/-- Whether every pixel the position reads is inside the buffer (R53). -/
def readsInside (s : State) : Bool :=
  match s.seq.stage with
  | .body =>
    match modeOfCode s.latched.mode with
    | none => true
    | some m => !m.scans s.seq.slot || insideBuffer s.latched s.seq.x (m.lastRowRead s.seq)
  | _ => true

/-- The advance of `SEQ` after the tone it identifies (R31). -/
def advance (s : State) : State :=
  match s.seq.stage with
  | .pre =>
    if s.seq.k + 1 < s.params.preamble.length then { s with seq := { s.seq with k := s.seq.k + 1 } }
    else handOver .vis s
  | .vis => if s.seq.k < 20 then { s with seq := { s.seq with k := s.seq.k + 1 } } else handOver .body s
  | .body =>
    match modeOfCode s.latched.mode with
    | none => s
    | some m => { s with seq := m.nextPosition s.seq }
  | .eot => if s.seq.k < 4 then { s with seq := { s.seq with k := s.seq.k + 1 } } else complete s
  | .idle | .done | .fault => s

/-- The end of the tone at `SEQ`: EMIT's last steps, the count of a '1' bit, and the advance. -/
def finishTone (t : Tone) (n : Nat) (theta0 : Rat) (s : State) : State :=
  let s' := { endTone t n theta0 s with emitting := none }
  advance (leavePosition s'.latched.mode s'.seq s')

/-- The issue of one tone (R7): EMIT's steps 1 to 3. A tone of count 0 ends at once (R121). -/
def issueTone (t : Tone) (s : State) : State :=
  let n := segmentCount s.latched.sr t.d s.osc.carry
  let s' := writeCarry t (enterPosition s.seq s)
  if n = 0 then finishTone t 0 s.osc.ph s' else { s' with emitting := some ⟨t, n, 0, s.osc.ph⟩ }

/-- The emission of one sample (R7) of the EMIT in progress: one PUSH, and EMIT's end after the last. -/
def emitSample (e : Emission) (s : State) : State :=
  match pushSample (sampleWord (phaseAt s.latched.sr e.tone.f e.theta0 e.i)) s with
  | .raised s' => s'
  | .on s' =>
    if e.i + 1 < e.n then { s' with emitting := some { e with i := e.i + 1 } }
    else finishTone e.tone e.n e.theta0 s'

/-- What the sequencers do by themselves in one step: the next sample, else the next tone, else rest (R7, R237). -/
def sequencerStep (s : State) : Host.Outcome State Fault Refusal :=
  match s.emitting with
  | some e => .next (emitSample e s)
  | none =>
    if s.seq.stage.running then
      match toneAt s with
      | none => .refused .unassignedPosition
      | some t =>
        if readsInside s then
          if t.legal then
            if s.latched.sr = 0 then .refused .sampleRateZero else .next (issueTone t s)
          else .refused .toneOutOfDomain
        else .fault .pixelOutsideBuffer
    else .next s

end Sys2Proof.Machine
end

