-- ==== Sys2Proof/Machine/Frame.lean ====
section
/-! DEFINITION. The meanings of the host commands (R225 to R228, R233 to R235, R88) and of EOT (R231, R232). -/

namespace Sys2Proof.Machine

/-- `ENCODE.SDX` (R233): acceptance, the checks and the start of synthesis; the sequencers carry the run on (R227). -/
def execEncodeSdx (s : State) : Host.Outcome State Fault Refusal := acceptCommand (Mode.code .scottieDx) s

/-- `ENCODE.PD120` (R234). -/
def execEncodePd120 (s : State) : Host.Outcome State Fault Refusal := acceptCommand (Mode.code .pd120) s

/-- `ENCODE.R36` (R235). -/
def execEncodeR36 (s : State) : Host.Outcome State Fault Refusal := acceptCommand (Mode.code .robot36) s

/-- `CMD.ILLEGAL` (R88, R253): accepted like any command and rejected by check 1 of R226. -/
def execCmdIllegal (mode : ModeCode) (s : State) : Host.Outcome State Fault Refusal := acceptCommand mode s

/-- `EOT` (R231): the five tones, then completion (R232). -/
def execEot (s : State) : Host.Outcome State Fault Refusal :=
  if s.latched.sr = 0 then .refused .sampleRateZero
  else .next ((runProgram s.latched.mode eotProgram s).andThen fun s' => .on (complete s')).state

end Sys2Proof.Machine
end

