-- ==== Sys2Proof/Machine/Oscillator.lean ====
section
/-! DEFINITION. The meanings of the oscillator family (R111, R112, R124) and of TONE.ILLEGAL (R90). -/

namespace Sys2Proof.Machine

/-- `OSC_RESET` (R111). -/
def execOscReset (s : State) : Host.Outcome State Fault Refusal := .next (resetOscillator s)

/-- `EMIT f, d` (R112): refused outside its operands' domain (R90) and at `SR = 0` (R256). -/
def execEmit (f d : Rat) (s : State) : Host.Outcome State Fault Refusal :=
  if Tone.legal ⟨f, d⟩ then
    if s.latched.sr = 0 then .refused .sampleRateZero else .next (emitTone ⟨f, d⟩ s).state
  else .refused .toneOutOfDomain

/-- `PUSH s` (R124). -/
def execPush (v : Sample) (s : State) : Host.Outcome State Fault Refusal := .next (pushSample v s).state

/-- `TONE.ILLEGAL` (R90, D30): EMIT has no meaning for these operands, whatever they and the state are (U1: refuse). -/
def execToneIllegal (_f _d : Rat) (_s : State) : Host.Outcome State Fault Refusal := .refused .toneOutOfDomain

end Sys2Proof.Machine
end

