-- ==== Sys2Proof/Machine/Sampler.lean ====
section
/-! DEFINITION. The meanings of the sampler family (R141 to R147, R149, R150). None writes state of the block (R140); the value
an operation returns stands in `result` (log entry 5). -/

namespace Sys2Proof.Machine

/-- An operation that returns a value. -/
def returnValue (q : Rat) (s : State) : Host.Outcome State Fault Refusal := .next { s with result := q }

/-- A SAMPLE of the pixel at `(x, y)`, which must be inside the buffer (R53, R140). -/
def samplePixel (value : State → Nat → Nat → Rat) (x y : Nat) (s : State) : Host.Outcome State Fault Refusal :=
  if insideBuffer s.latched x y then returnValue (value s x y) s else .fault .pixelOutsideBuffer

/-- `SAMPLE.R x, y` (R141). -/
def execSampleR (x y : Nat) (s : State) : Host.Outcome State Fault Refusal := samplePixel redAt x y s

/-- `SAMPLE.G x, y` (R142). -/
def execSampleG (x y : Nat) (s : State) : Host.Outcome State Fault Refusal := samplePixel greenAt x y s

/-- `SAMPLE.B x, y` (R143). -/
def execSampleB (x y : Nat) (s : State) : Host.Outcome State Fault Refusal := samplePixel blueAt x y s

/-- `SAMPLE.Y x, y` (R144). -/
def execSampleY (x y : Nat) (s : State) : Host.Outcome State Fault Refusal := samplePixel lumaAt x y s

/-- `SAMPLE.RY x, y` (R145). -/
def execSampleRY (x y : Nat) (s : State) : Host.Outcome State Fault Refusal := samplePixel redChromaAt x y s

/-- `SAMPLE.BY x, y` (R146). -/
def execSampleBY (x y : Nat) (s : State) : Host.Outcome State Fault Refusal := samplePixel blueChromaAt x y s

/-- `CH.ILLEGAL` (R147): `InvalidChannel` is raised and no pixel is read. -/
def execChIllegal (s : State) : Host.Outcome State Fault Refusal := .next (faultEntry .invalidChannel s)

/-- `AVG2 a, b` (R149). -/
def execAvg2 (a b : Rat) (s : State) : Host.Outcome State Fault Refusal := returnValue (average a b) s

/-- `FMAP I` (R150). -/
def execFmap (intensity : Rat) (s : State) : Host.Outcome State Fault Refusal := returnValue (frequencyOf intensity) s

end Sys2Proof.Machine
end

