-- ==== Sys2Proof/Machine/Scan.lean ====
section
/-! DEFINITION. The meanings of the three scan encoders (R183, R198, R213). -/

namespace Sys2Proof.Machine

/-- A scan encoder: its tone program on the oscillator state it finds, then the end-of-transmission stage (R189). Every
read must be inside the buffer (R186, R201, R216), and there is no meaning at `SR = 0` (R256). -/
def scanImage (m : Mode) (program : List Entry) (s : State) : Host.Outcome State Fault Refusal :=
  if s.latched.sr = 0 then .refused .sampleRateZero
  else if m.width ≤ s.latched.w.toNat ∧ m.rows ≤ s.latched.h.toNat then
    .next ((runProgram m.code program s).andThen fun s' => .on (handOver .eot s')).state
  else .fault .pixelOutsideBuffer

/-- `SCAN.SDX` (R180, R183). -/
def execScanSdx (s : State) : Host.Outcome State Fault Refusal := scanImage .scottieDx (sdxProgram s) s

/-- `SCAN.PD120` (R195, R198). -/
def execScanPd120 (s : State) : Host.Outcome State Fault Refusal := scanImage .pd120 (pdProgram s) s

/-- `SCAN.R36` (R210, R213). -/
def execScanR36 (s : State) : Host.Outcome State Fault Refusal := scanImage .robot36 (r36Program s) s

end Sys2Proof.Machine
end

