-- ==== Sys2Proof/Machine/Vis.lean ====
section
/-! DEFINITION. The meaning of ENCODE_VIS (R160). -/

namespace Sys2Proof.Machine

/-- `ENCODE_VIS code` (R160): the preamble and the 21 slots, then the body stage (R166). It has no meaning at `SR = 0`
(R256) or with a `PREAMBLE` outside its domain (R90). -/
def execEncodeVis (code : ModeCode) (s : State) : Host.Outcome State Fault Refusal :=
  if s.latched.sr = 0 then .refused .sampleRateZero
  else if s.params.preamble.all Tone.legal then
    .next ((runProgram code (visProgram s.params code) s).andThen fun s' => .on (handOver .body s')).state
  else .refused .toneOutOfDomain

end Sys2Proof.Machine
end

