-- ==== Sys2Proof/Machine/Dispatch.lean ====
section
/-! DEFINITION. The meaning of every operation of the opcode table, one arm each. -/

namespace Sys2Proof.Machine

def exec (i : Instr) (s : State) : Host.Outcome State Fault Refusal :=
  match i with
  | .encodeSdx => Sys2Proof.Machine.execEncodeSdx s
  | .encodePd120 => Sys2Proof.Machine.execEncodePd120 s
  | .encodeR36 => Sys2Proof.Machine.execEncodeR36 s
  | .oscReset => Sys2Proof.Machine.execOscReset s
  | .emit f d => Sys2Proof.Machine.execEmit f d s
  | .push v => Sys2Proof.Machine.execPush v s
  | .sampleR x y => Sys2Proof.Machine.execSampleR x y s
  | .sampleG x y => Sys2Proof.Machine.execSampleG x y s
  | .sampleB x y => Sys2Proof.Machine.execSampleB x y s
  | .sampleY x y => Sys2Proof.Machine.execSampleY x y s
  | .sampleRY x y => Sys2Proof.Machine.execSampleRY x y s
  | .sampleBY x y => Sys2Proof.Machine.execSampleBY x y s
  | .avg2 a b => Sys2Proof.Machine.execAvg2 a b s
  | .fmap intensity => Sys2Proof.Machine.execFmap intensity s
  | .encodeVis code => Sys2Proof.Machine.execEncodeVis code s
  | .scanSdx => Sys2Proof.Machine.execScanSdx s
  | .scanPd120 => Sys2Proof.Machine.execScanPd120 s
  | .scanR36 => Sys2Proof.Machine.execScanR36 s
  | .eot => Sys2Proof.Machine.execEot s
  | .cmdIllegal mode => Sys2Proof.Machine.execCmdIllegal mode s
  | .chIllegal _ _ _ => Sys2Proof.Machine.execChIllegal s
  | .toneIllegal f d => Sys2Proof.Machine.execToneIllegal f d s

end Sys2Proof.Machine
end

