-- ==== Sys2Proof/Machine/Step.lean ====
section
/-! DEFINITION. One step of the block (R7): the input ports of the step are taken, hardware reset has priority (R286), the
host's stores are placed, and then an issued operation runs, or a presented command is accepted, or the sequencers do
one thing by themselves. -/

namespace Sys2Proof.Machine

/-- The ports as they are when nothing new is driven: no reset, no command, nothing placed. -/
def Pins.quiet (p : Pins) : Pins := { p with rst := false, cmdValid := false, stores := [] }

/-- What the ports carry in this step. -/
def State.nextPins (s : State) : Pins := s.inputs.headD s.pins.quiet

/-- The state with this step's ports taken. -/
def State.takePins (s : State) : State := { s with pins := s.nextPins, inputs := s.inputs.tail }

/-- The host's stores of this step, in its buffer. -/
def State.placeStores (s : State) : State := { s with pix := placeBytes s.pix s.pins.stores }

/-- What runs in a step once the ports are taken and the stores placed. -/
def act (s : State) : Host.Outcome State Fault Refusal :=
  match s.issue with
  | some word =>
    match decode word with
    | .ok i => exec i { s with issue := none }
    | .error e => .refused (.malformedWord e)
  | none =>
    if s.pins.cmdValid && !s.status.busy then exec (decodeCommand s.pins.cmdMode) s
    else sequencerStep s

/-- One step. A store to the buffer while an encode runs is the host's breach and has no meaning (R238, U3). -/
def step (s : State) : Host.Outcome State Fault Refusal :=
  let s := s.takePins
  if s.pins.rst then .next (hardwareReset s.placeStores)
  else if s.status.busy && !s.pins.stores.isEmpty then .refused .pixelBufferChanged
  else act s.placeStores

/-- `s` with an opcode-table word presented to the next step: a command on the command port, any other operation in the
issue field, and the ports otherwise quiet (log entry 9). -/
def State.withFetchWord (s : State) (nbits w : Nat) : State :=
  match tableIssue nbits w with
  | none => s
  | some (.cmd mode) =>
    { s with
      issue := none
      inputs := { s.pins.quiet with cmdValid := true, cmdMode := mode } :: s.inputs }
  | some word => { s with issue := some word, inputs := s.pins.quiet :: s.inputs }

end Sys2Proof.Machine
end

