-- ==== Sys2Proof/Safety.lean ====
section
/-! DEFINITION. The terms claims are stated in: the real-valued oscillator state of R21 and R22 and the sample formula of R116 to
R118 over the exact functions of `NUM` (R10, R318), the sink's good behaviour, what a state that a run can reach looks
like, and what a completed run is (R232, R259). -/

namespace Sys2Proof.Machine

/-! ### The exact numerics of R10 -/

/-- `OSC.la` (R21): the sine at the phase. -/
noncomputable def Osc.la (o : Osc) : ℝ := Real.sin (2 * Real.pi * (o.ph : ℝ))

/-- `OSC.lc` (R22): the cosine at the phase. -/
noncomputable def Osc.lc (o : Osc) : ℝ := Real.cos (2 * Real.pi * (o.ph : ℝ))

/-- `sgn` of R13: two-valued, `sgn(0) = +1`. -/
noncomputable def signOf (v : ℝ) : ℝ := if 0 ≤ v then 1 else -1

/-- `round` of R13 on the reals: the nearest integer, a tie going away from zero. -/
noncomputable def roundHalfAway (y : ℝ) : ℤ := if 0 ≤ y then ⌊y + 1 / 2⌋ else -⌊-y + 1 / 2⌋

/-- EMIT step 3 in radians (R112, R116): `theta0 = sgn(lc) * asin(la) + (|sgn(lc) - 1| / 2) * pi`. -/
noncomputable def theta0 (la lc : ℝ) : ℝ :=
  signOf lc * Real.arcsin la + |signOf lc - 1| / 2 * Real.pi

/-- EMIT step 4 (R117): `a_i = (2 * pi * f * i + phi) / SR` with `phi = SR * theta0`. -/
noncomputable def argumentOf (sr : ℕ) (f : ℚ) (la lc : ℝ) (i : ℕ) : ℝ :=
  (2 * Real.pi * (f : ℝ) * (i : ℝ) + (sr : ℝ) * theta0 la lc) / (sr : ℝ)

/-- EMIT step 5 (R118): `s_i = clamp16(round(32767 * sin(a_i)))`. -/
noncomputable def formulaSample (sr : ℕ) (f : ℚ) (la lc : ℝ) (i : ℕ) : ℤ :=
  clamp16 (roundHalfAway (32767 * Real.sin (argumentOf sr f la lc i)))

/-! ### The sink -/

/-- The sink's answer to the sample `i` places ahead. -/
def Sink.answerTo (k : Sink) (i : Nat) : Bool := k.answers.getD i k.rest

/-- The sink accepts the next `n` samples. -/
def Sink.accepts (k : Sink) (n : Nat) : Prop := ∀ i < n, k.answerTo i = true

/-- The sink accepts every sample. -/
def Sink.acceptsAll (k : Sink) : Prop := ∀ i, k.answerTo i = true

/-- The sink after it has accepted the samples `vs`, in order. -/
def Sink.acceptList (k : Sink) (vs : List Sample) : Sink :=
  { k with acceptedRev := vs.reverse ++ k.acceptedRev, answers := k.answers.drop vs.length }

/-! ### Counts over a run of tones (R127) -/

/-- The nominal duration of a tone list, in ms. -/
def nominalDuration (tones : List Tone) : Rat := (tones.map Tone.d).sum

/-- Samples due by the end of a tone list, carry included: `carry + SR * (d_1 + .. + d_m) / 1000`. -/
def samplesDue (sr : BitVec 32) (carry : Rat) (tones : List Tone) : Rat := carry + targetCount sr (nominalDuration tones)

/-! ### Tones one after another -/

/-- EMITs issued one after another, up to the first that stops. -/
def emitAll : List Tone → State → Host.Outcome State Fault Refusal
  | [], s => .next s
  | t :: ts, s =>
    match exec (.emit t.f t.d) s with
    | .next s' => emitAll ts s'
    | .fault r => .fault r
    | .refused r => .refused r

/-- One pixel tone for each column of a row, columns ascending (R151, R183). -/
def pixelTones (width : Nat) (intensity : Nat → Rat) (d : Rat) : List Tone :=
  (List.range width).map fun x => ⟨1500 + intensity x * (31372549 / 10000000), d⟩

/-- The tone list of the body of a mode, as the pseudocode of R183, R198 and R213 writes it. -/
def scanTones : Mode → State → List Tone
  | .scottieDx, s => (List.range 256).flatMap fun row =>
      (if row = 0 then [⟨1200, 9⟩] else [])
      ++ [⟨1500, 3 / 2⟩] ++ pixelTones 320 (fun x => greenAt s x row) (108 / 100)
      ++ [⟨1500, 3 / 2⟩] ++ pixelTones 320 (fun x => blueAt s x row) (108 / 100)
      ++ [⟨1200, 9⟩]
      ++ [⟨1500, 3 / 2⟩] ++ pixelTones 320 (fun x => redAt s x row) (108 / 100)
  | .pd120, s => (List.range 248).flatMap fun pair =>
      let row := 2 * pair
      [⟨1200, 20⟩, ⟨1500, 208 / 100⟩]
      ++ pixelTones 640 (fun x => lumaAt s x row) (19 / 100)
      ++ pixelTones 640 (fun x => (redChromaAt s x row + redChromaAt s x (row + 1)) / 2) (19 / 100)
      ++ pixelTones 640 (fun x => (blueChromaAt s x row + blueChromaAt s x (row + 1)) / 2) (19 / 100)
      ++ pixelTones 640 (fun x => lumaAt s x (row + 1)) (19 / 100)
  | .robot36, s => (List.range 240).flatMap fun row =>
      let p := row - row % 2
      [⟨1200, 9⟩, ⟨1500, 3⟩]
      ++ pixelTones 320 (fun x => lumaAt s x row) (275 / 1000)
      ++ if row % 2 = 0 then
          [⟨1500, 45 / 10⟩, ⟨1900, 3 / 2⟩]
          ++ pixelTones 320 (fun x => (redChromaAt s x p + redChromaAt s x (p + 1)) / 2) (1375 / 10000)
        else
          [⟨2300, 45 / 10⟩, ⟨1900, 3 / 2⟩]
          ++ pixelTones 320 (fun x => (blueChromaAt s x p + blueChromaAt s x (p + 1)) / 2) (1375 / 10000)

/-- The scan operation of a mode (R230). -/
def Mode.scan : Mode → Instr
  | .scottieDx => .scanSdx
  | .pd120 => .scanPd120
  | .robot36 => .scanR36

/-- The host command of a mode (R233 to R235). -/
def Mode.command : Mode → Instr
  | .scottieDx => .encodeSdx
  | .pd120 => .encodePd120
  | .robot36 => .encodeR36

/-- The total nominal duration of an encode in ms, without its preamble (R233 to R236). -/
def Mode.duration : Mode → Rat
  | .scottieDx => 2714958 / 10
  | .pd120 => 12871304 / 100
  | .robot36 => 38610

/-! ### Runs -/

/-- Some number of steps leads from `s` to `t`. -/
def Reaches (s t : State) : Prop := ∃ k, Host.Core.run core k s = .next t

/-- Nothing is driven on the ports, now or later: no reset, no command, no store. -/
def State.quiet (s : State) : Prop := s.inputs = [] ∧ s.pins.quiet = s.pins

/-- A completed encode (R259): the premise of every claim about its result. -/
def State.completed (s : State) : Prop := s.seq.stage = .done ∧ s.status.err = 0

/-- The resting positions a run ends in (R237). -/
def State.ended (s : State) : Prop := s.seq.stage = .done ∨ s.seq.stage = .fault

/-- The frame of an operation on the block: the environment's side is untouched. The pixel buffer is read only (R54),
the parameters are constant (R10), and the ports are the host's (R264). -/
structure SameEnvironment (s t : State) : Prop where
  pix : t.pix = s.pix
  params : t.params = s.params
  pins : t.pins = s.pins
  inputs : t.inputs = s.inputs

/-- The frame of synthesis: beside the environment, the latched operands, the status and the issue field are kept, and
the samples already accepted stay where they are. -/
structure SynthesisFrame (s t : State) : Prop extends SameEnvironment s t where
  latched : t.latched = s.latched
  status : t.status = s.status
  issue : t.issue = s.issue
  emitting : t.emitting = s.emitting
  base : t.sink.base = s.sink.base
  kept : s.sink.acceptedRev <:+ t.sink.acceptedRev

/-! ### What a run can reach -/

/-- The position `SEQ` exists (R30). -/
def State.positioned (s : State) : Prop :=
  match s.seq.stage with
  | .idle => s.seq = Seq.idle
  | .pre => s.seq = ⟨.pre, s.seq.k, 0, 0, 0⟩ ∧ s.seq.k < s.params.preamble.length
  | .vis => s.seq = ⟨.vis, s.seq.k, 0, 0, 0⟩ ∧ s.seq.k ≤ 20
  | .body => ∃ m, modeOfCode s.latched.mode = some m ∧ m.hasPosition s.seq = true
  | .eot => s.seq = ⟨.eot, s.seq.k, 0, 0, 0⟩ ∧ s.seq.k ≤ 4
  | .done => s.seq = ⟨.done, 4, 0, 0, 0⟩
  | .fault => True

/-- `VIS.ones` counts the '1' bits among the data bits sent (R32). -/
def State.onesCounted (s : State) : Prop :=
  match s.seq.stage with
  | .pre => s.visOnes = 0
  | .vis => s.visOnes = onesBelow s.latched.mode (min (s.seq.k - 12) 7)
  | .body | .eot | .done => s.visOnes = onesBelow s.latched.mode 7
  | .idle | .fault => True

/-- The status and error registers agree with the stage (R35, R232, R251, R258): busy exactly while an encode runs, done
exactly at its end, and `ERR` one of the three errors the block can raise exactly in the fault state. -/
def State.statusAgrees (s : State) : Prop :=
  s.status.busy = s.seq.stage.running ∧
  s.status.done = decide (s.seq.stage = .done ∨ s.seq.stage = .fault) ∧
  if s.seq.stage = .fault then
    s.status.err = ErrorKind.code .unsupportedMode ∨ s.status.err = ErrorKind.code .sinkWriteFailure
      ∨ s.status.err = ErrorKind.code .invalidGeometry
  else s.status.err = 0

/-- While an encode runs its operands have passed the checks (R226, R256). -/
def State.operandsChecked (s : State) : Prop :=
  s.seq.stage.running = true →
    s.latched.sr ≠ 0 ∧
    ∃ m, modeOfCode s.latched.mode = some m ∧ s.latched.w.toNat = m.width ∧ s.latched.h.toNat = m.rows

/-- An EMIT in progress is that of the tone at `SEQ`, with a sample still to push (R33). -/
def State.emissionCurrent (s : State) : Prop :=
  ∀ e, s.emitting = some e →
    s.seq.stage.running = true ∧ toneAt s = some e.tone ∧ e.i < e.n ∧ e.theta0 = s.osc.ph

/-- The invariant of the block: it holds after reset and every step keeps it. -/
structure State.Inv (s : State) : Prop where
  /-- the pixel buffer is in canonical form -/
  pix : s.pix.wf
  /-- the phase of R126 -/
  phase : 0 ≤ s.osc.ph ∧ s.osc.ph < 1
  /-- `0 <= OSC.carry < 1` (R23, R25) -/
  carry : 0 ≤ s.osc.carry ∧ s.osc.carry < 1
  /-- `TOTAL` is the number of samples accepted in the current encode (R26, R59) -/
  counted : s.sink.acceptedRev.length = s.sink.base + s.total
  /-- internal operations are issued by the sequencers alone (R95, R324) -/
  noIssue : s.issue = none
  /-- `PREAMBLE` is in its domain (R90) -/
  preamble : s.params.preamble.all Tone.legal = true
  status : s.statusAgrees
  operands : s.operandsChecked
  position : s.positioned
  ones : s.onesCounted
  emission : s.emissionCurrent

end Sys2Proof.Machine
end

