-- ==== Sys2Proof/Certificates/Slice0/Obligations.lean ====
section
/-! DEFINITION. The statements for the provers, in the order of OBLIGATIONS.json: resets, the oscillator, the sampler, the
memories, the VIS header, the scan encoders, the frame level, the step, the invariant, whole runs, the encodings. -/

open Sys2Proof Sys2Proof.Machine

/-! ### Resets -/

/-- The values of the column "after hardware reset" of R39, in the state the machine starts in, and `cmd_ready` (R287). -/
def Obligations.ResetIsIdleAndReady : Prop :=
  State.reset.seq = ⟨.idle, 0, 0, 0, 0⟩ ∧ State.reset.status = ⟨false, false, 0⟩ ∧ State.reset.total = 0 ∧
    State.reset.osc.la = 0 ∧ State.reset.osc.lc = 1 ∧ State.reset.osc.carry = 0 ∧ State.reset.visOnes = 0 ∧
    State.reset.outputs.cmdReady = true

/-- R286: `rst` has priority over everything and resets the block from any state; the sample being presented is withdrawn
and the sink keeps what it has. That the host's own stores of the step land in its buffer is the model's choice (log
entries 12 and 19), and so is the list of inputs of which the step takes one entry (log entry 20). -/
def Obligations.HardwareResetFromAnyState : Prop :=
  ∀ s : State, s.nextPins.rst = true →
    ∃ t, step s = .next t ∧ t.seq = ⟨.idle, 0, 0, 0, 0⟩ ∧ t.status.busy = false ∧ t.status.done = false ∧
      t.status.err = 0 ∧ t.total = 0 ∧ t.osc.la = 0 ∧ t.osc.lc = 1 ∧ t.osc.carry = 0 ∧ t.visOnes = 0 ∧
      t.emitting = none ∧ t.sink.accepted = s.sink.accepted ∧ t.sink.answers = s.sink.answers ∧
      t.sink.rest = s.sink.rest ∧ t.pix = placeBytes s.pix s.nextPins.stores ∧ t.params = s.params ∧
      t.inputs = s.inputs.tail

/-- R111: OSC_RESET writes the three oscillator elements and nothing else. -/
def Obligations.OscResetWritesTheOscillatorOnly : Prop :=
  ∀ s : State, ∃ o : Osc, exec .oscReset s = .next { s with osc := o } ∧ o.la = 0 ∧ o.lc = 1 ∧ o.carry = 0

/-! ### EMIT -/

/-- R113, R114, R115: the count and the carry, from the rules' own formulas. -/
def Obligations.EmitCountsAndCarriesExactly : Prop :=
  ∀ (f d : ℚ) (s : State), 0 ≤ f → 0 < d → s.latched.sr ≠ 0 → 0 ≤ s.osc.carry → s.osc.carry < 1 →
    ∀ (target c1 : ℚ) (n0 k : ℕ), target = s.latched.sr.toNat * d / 1000 → n0 = ⌊target⌋₊ →
      c1 = s.osc.carry + (target - n0) → k = (if 1 ≤ c1 then ⌊c1⌋₊ else 0) → s.sink.accepts (n0 + k) →
      ∃ t, exec (.emit f d) s = .next t ∧ t.total = s.total + (n0 + k) ∧ t.result = n0 + k ∧ t.osc.carry = c1 - k ∧
        (k = 0 ∨ k = 1) ∧ 0 ≤ t.osc.carry ∧ t.osc.carry < 1 ∧ (n0 + k = 0 ↔ n0 = 0 ∧ c1 < 1)

/-- R112, R116 to R119: the samples of an EMIT, in emission order, by the document's formula over the reals. -/
def Obligations.EmitSamplesFollowTheSineFormula : Prop :=
  ∀ (f d : ℚ) (s : State), 0 ≤ f → 0 < d → s.latched.sr ≠ 0 →
    s.sink.accepts (segmentCount s.latched.sr d s.osc.carry) →
    ∃ t vs, exec (.emit f d) s = .next t ∧ t.sink.accepted = s.sink.accepted ++ vs ∧
      vs.length = segmentCount s.latched.sr d s.osc.carry ∧
      ∀ i (h : i < vs.length), (vs[i]).toInt = formulaSample s.latched.sr.toNat f s.osc.la s.osc.lc i

/-- R120: the re-seed of the pair `(OSC.la, OSC.lc)` under both values of `OSC_END`. -/
def Obligations.EmitReseedsThePhasePair : Prop :=
  ∀ (f d : ℚ) (s : State) (e : ℕ), 0 ≤ f → 0 < d → s.latched.sr ≠ 0 →
    s.sink.accepts (segmentCount s.latched.sr d s.osc.carry) →
    (s.params.oscEnd = .last → e = max (segmentCount s.latched.sr d s.osc.carry - 1) 0) →
    (s.params.oscEnd = .next → e = segmentCount s.latched.sr d s.osc.carry) →
    ∃ t, exec (.emit f d) s = .next t ∧
      t.osc.la = Real.sin (argumentOf s.latched.sr.toNat f s.osc.la s.osc.lc e) ∧
      t.osc.lc = Real.cos (argumentOf s.latched.sr.toNat f s.osc.la s.osc.lc e)

/-- The frame of EMIT ("State written", R112): beside the oscillator, `TOTAL`, the sink's samples and the returned value,
nothing changes; it stores to no byte of the buffer. -/
def Obligations.EmitFrame : Prop :=
  ∀ (f d : ℚ) (s : State), 0 ≤ f → 0 < d → s.latched.sr ≠ 0 →
    s.sink.accepts (segmentCount s.latched.sr d s.osc.carry) →
    ∃ t, exec (.emit f d) s = .next t ∧
      t = { s with osc := t.osc, total := t.total, result := t.result,
                   sink := { s.sink with acceptedRev := t.sink.acceptedRev, answers := t.sink.answers } } ∧
      t.sink.answers = s.sink.answers.drop (segmentCount s.latched.sr d s.osc.carry) ∧
      ∀ a, t.pix.read a = s.pix.read a

/-- R121: a tone too short to hold a sample, with no carried sample due. -/
def Obligations.EmptyToneOnlyCarries : Prop :=
  ∀ (f d : ℚ) (s : State), 0 ≤ f → 0 < d → s.latched.sr ≠ 0 → 0 ≤ s.osc.carry →
    s.osc.carry + s.latched.sr.toNat * d / 1000 < 1 →
    ∃ t, exec (.emit f d) s = .next t ∧ t.total = s.total ∧ t.sink = s.sink ∧ t.result = 0 ∧
      t.osc.carry = s.osc.carry + s.latched.sr.toNat * d / 1000 ∧ t.osc.la = s.osc.la ∧ t.osc.lc = s.osc.lc

/-- R122: silence holds the level of the last stored amplitude, with the count and carry of any tone, and leaves the phase
pair as it was under both values of `OSC_END`. -/
def Obligations.SilenceHoldsTheLevel : Prop :=
  ∀ (d : ℚ) (s : State), 0 < d → s.latched.sr ≠ 0 → s.sink.accepts (segmentCount s.latched.sr d s.osc.carry) →
    ∃ t vs, exec (.emit 0 d) s = .next t ∧ t.sink.accepted = s.sink.accepted ++ vs ∧
      vs.length = segmentCount s.latched.sr d s.osc.carry ∧
      (∀ v ∈ vs, v.toInt = clamp16 (roundHalfAway (32767 * s.osc.la))) ∧ t.osc.la = s.osc.la ∧ t.osc.lc = s.osc.lc ∧
      t.total = s.total + segmentCount s.latched.sr d s.osc.carry ∧
      t.osc.carry = segmentCarry s.latched.sr d s.osc.carry

/-- R254, R258: the sink fails at the sample `j` of an EMIT. The samples before it are accepted, the failing one is not,
the carry has already been written (R112), and everything R258 keeps is kept. -/
def Obligations.EmitStopsAtTheFailingSample : Prop :=
  ∀ (f d : ℚ) (s : State) (j : ℕ), 0 ≤ f → 0 < d → s.latched.sr ≠ 0 →
    j < segmentCount s.latched.sr d s.osc.carry → s.sink.accepts j → s.sink.answerTo j = false →
    ∃ t vs, exec (.emit f d) s = .next t ∧ t.status.err = 4 ∧ t.status.busy = false ∧ t.status.done = true ∧
      t.seq = { s.seq with stage := .fault } ∧ t.total = s.total + j ∧ t.sink.accepted = s.sink.accepted ++ vs ∧
      vs.length = j ∧ (∀ i (h : i < vs.length), (vs[i]).toInt = formulaSample s.latched.sr.toNat f s.osc.la s.osc.lc i) ∧
      t.osc.la = s.osc.la ∧ t.osc.lc = s.osc.lc ∧ t.osc.carry = segmentCarry s.latched.sr d s.osc.carry ∧
      t.latched = s.latched ∧ t.visOnes = s.visOnes ∧ t.emitting = none ∧ t.issue = s.issue ∧ t.result = s.result ∧
      SameEnvironment s t

/-- R90: EMIT has no meaning for a negative frequency or a duration that is not positive, under its own name and under that
of TONE.ILLEGAL, and ENCODE_VIS has none where a tone of `PREAMBLE` is outside the domain; every other tone has a meaning in
every state, silence and frequencies above half the rate among them. The model's reading: TONE.ILLEGAL is refused whatever
its operands and ENCODE_VIS at once (log entry 23), and EMIT is refused at rate 0, where R256 gives no meaning (log entry 11). -/
def Obligations.ToneMeaningExactlyOnItsDomain : Prop :=
  ∀ (f d : ℚ) (s : State),
    (f < 0 ∨ d ≤ 0 → exec (.emit f d) s = .refused .toneOutOfDomain) ∧
    exec (.toneIllegal f d) s = .refused .toneOutOfDomain ∧
    (0 ≤ f → 0 < d → s.latched.sr ≠ 0 → ∃ t, exec (.emit f d) s = .next t) ∧
    (0 ≤ f → 0 < d → s.latched.sr = 0 → exec (.emit f d) s = .refused .sampleRateZero) ∧
    (∀ code, s.latched.sr ≠ 0 → (∃ t ∈ s.params.preamble, t.f < 0 ∨ t.d ≤ 0) →
      exec (.encodeVis code) s = .refused .toneOutOfDomain)

/-- R125 under `OSC_END = LAST`: the first sample of a tone equals the last sample of the tone before it. -/
def Obligations.TonesJoinWithoutAJump : Prop :=
  ∀ (f g d e : ℚ) (s t : State), 0 ≤ f → 0 < d → 0 ≤ g → 0 < e → s.latched.sr ≠ 0 → s.params.oscEnd = .last →
    s.sink.acceptsAll → exec (.emit f d) s = .next t → 0 < segmentCount s.latched.sr d s.osc.carry →
    0 < segmentCount t.latched.sr e t.osc.carry →
    ∃ u vs v ws, exec (.emit g e) t = .next u ∧ t.sink.accepted = s.sink.accepted ++ vs ++ [v] ∧
      u.sink.accepted = t.sink.accepted ++ v :: ws

/-- R127: the closed form of counts, from `OSC.carry = 0`. -/
def Obligations.CountsHaveAClosedForm : Prop :=
  ∀ (ts : List Tone) (s : State), (∀ t ∈ ts, 0 ≤ t.f ∧ 0 < t.d) → s.latched.sr ≠ 0 → s.osc.carry = 0 →
    s.sink.acceptsAll →
    ∃ u, emitAll ts s = .next u ∧ u.total = s.total + ⌊s.latched.sr.toNat * (ts.map Tone.d).sum / 1000⌋₊ ∧
      u.osc.carry = Int.fract (s.latched.sr.toNat * (ts.map Tone.d).sum / 1000 : ℚ)

/-- R129 (a) to (d), and the clamp of R118 that never changes a value. -/
def Obligations.SampleFunctionProperties : Prop :=
  dac 0 = 0 ∧ dac (1 / 2) = 0 ∧ dac (1 / 4) = 32767 ∧ dac (3 / 4) = -32767 ∧
    dac (1 / 12) = 16384 ∧ dac (5 / 12) = 16384 ∧ dac (7 / 12) = -16384 ∧ dac (11 / 12) = -16384 ∧
    ∀ t : ℚ, dac t = roundHalfAway (32767 * Real.sin (2 * Real.pi * t)) ∧ dac (1 - t) = -dac t ∧
      -32767 ≤ dac t ∧ dac t ≤ 32767 ∧ (sampleWord t).toInt = dac t ∧
      ((∃ z : ℤ, 32767 * Real.sin (2 * Real.pi * t) = z + 1 / 2) ↔
        Int.fract t = 1 / 12 ∨ Int.fract t = 5 / 12 ∨ Int.fract t = 7 / 12 ∨ Int.fract t = 11 / 12)

/-! ### PUSH -/

/-- R124, R59, R62: an accepted PUSH appends its sample at the position `TOTAL` and counts it, and nothing else changes; a
refused one appends nothing, counts nothing and enters the fault state with `SinkWriteFailure`, where `TOTAL`, the oscillator
and the latched operands are as they were (R258). -/
def Obligations.PushFollowsTheSinksAnswer : Prop :=
  ∀ (v : Sample) (s : State),
    (s.sink.answer = true →
      ∃ k : Sink, exec (.push v) s = .next { s with total := s.total + 1, sink := k } ∧
        k.accepted = s.sink.accepted ++ [v] ∧ k.base = s.sink.base ∧ k.answers = s.sink.answers.tail ∧
        k.rest = s.sink.rest ∧
        (s.sink.acceptedRev.length = s.sink.base + s.total →
          k.stream = s.sink.stream ++ [v] ∧ s.sink.stream.length = s.total)) ∧
    (s.sink.answer = false →
      ∃ k : Sink, exec (.push v) s =
          .next { s with sink := k, status := ⟨false, true, 4⟩, seq := { s.seq with stage := .fault }, emitting := none } ∧
        k.accepted = s.sink.accepted ∧ k.base = s.sink.base ∧ k.answers = s.sink.answers.tail ∧ k.rest = s.sink.rest)

/-! ### The sampler -/

/-- R141, R142, R143 with the address of R51: the raw channels; no state of the block is written (R140). -/
def Obligations.SampleReturnsTheRawChannel : Prop :=
  ∀ (x y : ℕ) (s : State), x < s.latched.w.toNat → y < s.latched.h.toNat →
    exec (.sampleR x y) s =
        .next { s with result := ((s.pix.read (3 * (y * s.latched.w.toNat + x) + 0)).toNat : ℚ) } ∧
      exec (.sampleG x y) s =
        .next { s with result := ((s.pix.read (3 * (y * s.latched.w.toNat + x) + 1)).toNat : ℚ) } ∧
      exec (.sampleB x y) s =
        .next { s with result := ((s.pix.read (3 * (y * s.latched.w.toNat + x) + 2)).toNat : ℚ) }

/-- R144: luma, not rounded and not clamped. -/
def Obligations.SampleLumaFormula : Prop :=
  ∀ (x y : ℕ) (s : State) (r g b : ℚ), x < s.latched.w.toNat → y < s.latched.h.toNat →
    r = (s.pix.read (3 * (y * s.latched.w.toNat + x))).toNat →
    g = (s.pix.read (3 * (y * s.latched.w.toNat + x) + 1)).toNat →
    b = (s.pix.read (3 * (y * s.latched.w.toNat + x) + 2)).toNat →
    exec (.sampleY x y) s = .next { s with result := 16 + 0.003906 * (65.738 * r + 129.057 * g + 25.064 * b) }

/-- R145, R146: red and blue chroma, not rounded and not clamped. -/
def Obligations.SampleChromaFormulas : Prop :=
  ∀ (x y : ℕ) (s : State) (r g b : ℚ), x < s.latched.w.toNat → y < s.latched.h.toNat →
    r = (s.pix.read (3 * (y * s.latched.w.toNat + x))).toNat →
    g = (s.pix.read (3 * (y * s.latched.w.toNat + x) + 1)).toNat →
    b = (s.pix.read (3 * (y * s.latched.w.toNat + x) + 2)).toNat →
    exec (.sampleRY x y) s =
        .next { s with result := 128 + 0.003906 * (112.439 * r - 94.154 * g - 18.285 * b) } ∧
      exec (.sampleBY x y) s =
        .next { s with result := 128 + 0.003906 * (-37.945 * r - 74.494 * g + 112.439 * b) }

/-- R148: the range of the results, whatever the buffer holds. -/
def Obligations.SampleResultsStayInRange : Prop :=
  ∀ (x y : ℕ) (s t : State),
    (∀ i ∈ [Instr.sampleR x y, .sampleG x y, .sampleB x y], exec i s = .next t → 0 ≤ t.result ∧ t.result ≤ 255) ∧
      (exec (.sampleY x y) s = .next t → 16 ≤ t.result ∧ t.result ≤ 234.98615977) ∧
      (exec (.sampleRY x y) s = .next t → 16.00738283 ≤ t.result ∧ t.result ≤ 239.99261717) ∧
      (exec (.sampleBY x y) s = .next t → 16.00738283 ≤ t.result ∧ t.result ≤ 239.99261717)

/-- R53: a read outside the buffer returns no value: the machine stops (log entry 15: with a fault of its own name). A
scan of a buffer smaller than its mode's image would make such a read, and stops the same way (log entry 16). -/
def Obligations.SampleOutsideTheBufferStops : Prop :=
  (∀ (x y : ℕ) (s : State) (i : Instr), s.latched.w.toNat ≤ x ∨ s.latched.h.toNat ≤ y →
    i ∈ [Instr.sampleR x y, .sampleG x y, .sampleB x y, .sampleY x y, .sampleRY x y, .sampleBY x y] →
    exec i s = .fault .pixelOutsideBuffer) ∧
  ∀ (m : Mode) (s : State), s.latched.sr ≠ 0 → s.latched.w.toNat < m.width ∨ s.latched.h.toNat < m.rows →
    exec m.scan s = .fault .pixelOutsideBuffer

/-- R147, R258: a SAMPLE with a selector that names no channel raises `InvalidChannel` and reads no pixel. -/
def Obligations.InvalidChannelEntersTheFault : Prop :=
  ∀ (c : BitVec 1) (x y : ℕ) (s : State), exec (.chIllegal c x y) s =
    .next { s with status := ⟨false, true, 3⟩, seq := { s.seq with stage := .fault }, emitting := none }

/-- R149, R150: the two-row average and the frequency map, exact, with nothing else written. -/
def Obligations.AverageAndFrequencyMapAreExact : Prop :=
  ∀ (a b : ℚ) (s : State), exec (.avg2 a b) s = .next { s with result := (a + b) / 2 } ∧
    exec (.fmap a) s = .next { s with result := 1500 + a * 3.1372549 }

/-! ### The memories -/

/-- R51, R50: the bytes of an image are the addresses below `3 * W * H`, each the address of one channel of one pixel. -/
def Obligations.PixelAddressesTileTheBuffer : Prop :=
  ∀ (w h : BitVec 16) (a : ℕ), a < 3 * w.toNat * h.toNat ↔
    ∃ x y c, x < w.toNat ∧ y < h.toNat ∧ c < 3 ∧ pixelAddress w x y c = a ∧
      ∀ x' y' c', x' < w.toNat → y' < h.toNat → c' < 3 → pixelAddress w x' y' c' = a → x' = x ∧ y' = y ∧ c' = c

/-- R50, R289: a byte the host places while the block rests is the byte read there, and no other byte changes. How the
host reaches its buffer, a list of stores on the inputs of a step, is the model's choice (log entry 19). -/
def Obligations.HostStoreReachesItsByteOnly : Prop :=
  ∀ (s : State) (a : BitVec 32) (v : Byte), s.pix.wf → s.nextPins.stores = [(a, v)] → s.nextPins.rst = false →
    s.nextPins.cmdValid = false → s.issue = none → s.emitting = none → s.seq.stage.running = false →
    s.status.busy = false →
    ∃ t, step s = .next t ∧ t.pix.wf ∧ t.pix.read a.toNat = v ∧ ∀ b, b ≠ a.toNat → t.pix.read b = s.pix.read b

/-- R54, R323, R38: no operation of the block stores to the pixel buffer, changes a parameter or touches the ports. -/
def Obligations.NoOperationTouchesTheEnvironment : Prop :=
  ∀ (i : Instr) (s t : State), exec i s = .next t → SameEnvironment s t ∧ ∀ a, t.pix.read a = s.pix.read a

/-! ### The VIS header -/

/-- R162 to R166 (the table of R167): the tone the sequencer issues at each VIS slot. -/
def Obligations.VisSlotTones : Prop :=
  ∀ (s : State) (k : ℕ), s.seq = ⟨.vis, k, 0, 0, 0⟩ →
    (k < 8 → toneAt s = some ⟨[1900, 1500, 1900, 1500, 2300, 1500, 2300, 1500].getD k 0, 100⟩) ∧
      (k = 8 → toneAt s = some ⟨1900, 300⟩) ∧ (k = 9 → toneAt s = some ⟨1200, 10⟩) ∧
      (k = 10 → toneAt s = some ⟨1900, 300⟩) ∧ (k = 11 → toneAt s = some ⟨1200, 30⟩) ∧
      (∀ j, j < 7 → k = 12 + j →
        toneAt s = some (if s.latched.mode.getLsbD j = true then ⟨1100, 30⟩ else ⟨1300, 30⟩)) ∧
      (k = 19 → toneAt s = some (if s.visOnes % 2 = 0 then ⟨1300, 30⟩ else ⟨1100, 30⟩)) ∧
      (k = 20 → toneAt s = some ⟨1200, 30⟩)

/-- R160, R170: ENCODE_VIS emits the preamble and the 21 tones of its code, counts the ones, and hands over to the body. -/
def Obligations.EncodeVisEmitsItsTones : Prop :=
  ∀ (code : ModeCode) (s : State), s.latched.sr ≠ 0 → (∀ t ∈ s.params.preamble, 0 ≤ t.f ∧ 0 < t.d) →
    s.sink.acceptsAll →
    ∃ t u, exec (.encodeVis code) s = .next t ∧
      emitAll (s.params.preamble
        ++ [⟨1900, 100⟩, ⟨1500, 100⟩, ⟨1900, 100⟩, ⟨1500, 100⟩, ⟨2300, 100⟩, ⟨1500, 100⟩, ⟨2300, 100⟩, ⟨1500, 100⟩,
          ⟨1900, 300⟩, ⟨1200, 10⟩, ⟨1900, 300⟩, ⟨1200, 30⟩]
        ++ (List.range 7).map (fun j => if code.getLsbD j = true then ⟨1100, 30⟩ else ⟨1300, 30⟩)
        ++ [if ((List.range 7).filter fun j => code.getLsbD j).length % 2 = 0 then ⟨1300, 30⟩ else ⟨1100, 30⟩,
          ⟨1200, 30⟩]) s = .next u ∧
      t.sink = u.sink ∧ t.total = u.total ∧ t.osc = u.osc ∧ t.seq = ⟨.body, 0, 0, 0, 0⟩ ∧
      t.visOnes = ((List.range 7).filter fun j => code.getLsbD j).length ∧ SynthesisFrame s t

/-- R165, R84: with the parity bit the eight bits of the header hold an even number of ones (1100 Hz tones). -/
def Obligations.VisParityIsEven : Prop :=
  ∀ code : ModeCode, (((visTones code).drop 12).take 8).countP (fun t => t.f = 1100) % 2 = 0

/-! ### The scan encoders -/

/-- R182, R183: SCAN.SDX emits the tone list of its pseudocode, in order, and nothing else happens. -/
def Obligations.ScanSdxEmitsItsTones : Prop :=
  ∀ s : State, s.latched.sr ≠ 0 → 320 ≤ s.latched.w.toNat → 256 ≤ s.latched.h.toNat → s.sink.acceptsAll →
    ∃ t u, exec .scanSdx s = .next t ∧ emitAll (scanTones .scottieDx s) s = .next u ∧ t.sink = u.sink ∧
      t.total = u.total ∧ t.osc = u.osc ∧ t.seq = ⟨.eot, 0, 0, 0, 0⟩ ∧ t.visOnes = s.visOnes ∧ SynthesisFrame s t

/-- R197, R198: SCAN.PD120 emits the tone list of its pseudocode, in order, and nothing else happens. -/
def Obligations.ScanPd120EmitsItsTones : Prop :=
  ∀ s : State, s.latched.sr ≠ 0 → 640 ≤ s.latched.w.toNat → 496 ≤ s.latched.h.toNat → s.sink.acceptsAll →
    ∃ t u, exec .scanPd120 s = .next t ∧ emitAll (scanTones .pd120 s) s = .next u ∧ t.sink = u.sink ∧
      t.total = u.total ∧ t.osc = u.osc ∧ t.seq = ⟨.eot, 0, 0, 0, 0⟩ ∧ t.visOnes = s.visOnes ∧ SynthesisFrame s t

/-- R212, R213: SCAN.R36 emits the tone list of its pseudocode, in order, and nothing else happens. -/
def Obligations.ScanR36EmitsItsTones : Prop :=
  ∀ s : State, s.latched.sr ≠ 0 → 320 ≤ s.latched.w.toNat → 240 ≤ s.latched.h.toNat → s.sink.acceptsAll →
    ∃ t u, exec .scanR36 s = .next t ∧ emitAll (scanTones .robot36 s) s = .next u ∧ t.sink = u.sink ∧
      t.total = u.total ∧ t.osc = u.osc ∧ t.seq = ⟨.eot, 0, 0, 0, 0⟩ ∧ t.visOnes = s.visOnes ∧ SynthesisFrame s t

/-- R187, R202, R217: the tones of a body and its nominal duration, whatever the image. -/
def Obligations.ScanTotals : Prop :=
  ∀ s : State,
    ((scanTones .scottieDx s).length = 246785 ∧ nominalDuration (scanTones .scottieDx s) = 268885.8) ∧
      ((scanTones .pd120 s).length = 635376 ∧ nominalDuration (scanTones .pd120 s) = 126103.04) ∧
      ((scanTones .robot36 s).length = 154560 ∧ nominalDuration (scanTones .robot36 s) = 36000)

/-- R188: on a black image the body of Scottie-DX has 257 tones of 1200 Hz and 246528 of 1500 Hz, and every pixel tone is
1500 Hz. -/
def Obligations.BlackScottieImage : Prop :=
  ∀ s : State, (∀ a, s.pix.read a = 0) → (scanTones .scottieDx s).countP (fun t => t.f = 1200) = 257 ∧
    (scanTones .scottieDx s).countP (fun t => t.f = 1500) = 246528 ∧
    ∀ t ∈ scanTones .scottieDx s, t.d = 1.08 → t.f = 1500

/-- R254, R258, R237: where the sink fails inside a scan, the VIS header or the end of transmission, the operation ends in
the fault state with exactly the samples accepted before. -/
def Obligations.StageStopsAtTheFailingSample : Prop :=
  ∀ (i : Instr) (s : State) (j n : ℕ), s.latched.sr ≠ 0 → 0 ≤ s.osc.carry → s.osc.carry < 1 →
    ((∃ m : Mode, i = m.scan ∧ m.width ≤ s.latched.w.toNat ∧ m.rows ≤ s.latched.h.toNat ∧
        n = ⌊samplesDue s.latched.sr s.osc.carry (scanTones m s)⌋₊) ∨
      (∃ code, i = .encodeVis code ∧ (∀ t ∈ s.params.preamble, 0 ≤ t.f ∧ 0 < t.d) ∧
        n = ⌊samplesDue s.latched.sr s.osc.carry (s.params.preamble ++ visTones code)⌋₊) ∨
      (i = .eot ∧ n = ⌊samplesDue s.latched.sr s.osc.carry eotTones⌋₊)) →
    j < n → s.sink.accepts j → s.sink.answerTo j = false →
    ∃ t vs, exec i s = .next t ∧ t.seq.stage = .fault ∧ t.status = ⟨false, true, 4⟩ ∧ t.total = s.total + j ∧
      vs.length = j ∧ t.sink.accepted = s.sink.accepted ++ vs ∧ t.emitting = none ∧ t.latched = s.latched ∧
      t.issue = s.issue ∧ SameEnvironment s t

/-! ### The frame level -/

/-- R231, R232: EOT emits its five tones (R231) and completes the encode (R232): `ERR` stays, `TOTAL` is the result. That
EOT issued by itself completes, whatever precedes it, is the model's choice (log entry 8), and so is the field `result`
(log entry 5). -/
def Obligations.EotEmitsItsTonesAndCompletes : Prop :=
  ∀ s : State, s.latched.sr ≠ 0 → s.sink.acceptsAll →
    ∃ t u, exec .eot s = .next t ∧
      emitAll [⟨1500, 500⟩, ⟨1900, 100⟩, ⟨1500, 100⟩, ⟨1900, 100⟩, ⟨1500, 100⟩] s = .next u ∧
      t.sink = u.sink ∧ t.total = u.total ∧ t.osc = u.osc ∧ t.seq.stage = .done ∧ t.status = ⟨false, true, s.status.err⟩ ∧
      t.result = t.total ∧ t.visOnes = s.visOnes ∧ t.latched = s.latched ∧ t.issue = s.issue ∧ t.emitting = s.emitting ∧
      SameEnvironment s t

/-- R225, R226, R228 (R233 to R235): a command of a mode with that mode's geometry is accepted and starts synthesis. -/
def Obligations.EncodeAcceptsAndStarts : Prop :=
  ∀ (m : Mode) (s : State), s.status.busy = false → s.pins.imgWidth.toNat = m.width → s.pins.imgHeight.toNat = m.rows →
    s.pins.cfgSampleRate ≠ 0 →
    ∃ t, exec m.command s = .next t ∧ t.latched = ⟨m.code, s.pins.cfgSampleRate, s.pins.imgWidth, s.pins.imgHeight⟩ ∧
      t.status = ⟨true, false, 0⟩ ∧ t.total = 0 ∧ t.osc.la = 0 ∧ t.osc.lc = 1 ∧ t.osc.carry = 0 ∧ t.visOnes = 0 ∧
      (s.params.preamble ≠ [] → t.seq = ⟨.pre, 0, 0, 0, 0⟩) ∧ (s.params.preamble = [] → t.seq = ⟨.vis, 0, 0, 0, 0⟩) ∧
      t.sink.accepted = s.sink.accepted ∧ t.sink.stream = [] ∧ t.sink.answers = s.sink.answers ∧
      t.sink.rest = s.sink.rest ∧ t.emitting = s.emitting ∧ t.issue = s.issue ∧ t.result = s.result ∧ SameEnvironment s t

/-- R88, R253, R260: each of the 125 other codes is rejected with `UnsupportedMode`, whatever the geometry: `MODE` keeps
it, nothing is emitted and the oscillator is not reset. -/
def Obligations.UnsupportedModeIsRejected : Prop :=
  ((List.range 128).filter fun n => !ModeCode.isMode (BitVec.ofNat 7 n)).length = 125 ∧
    ∀ (c : ModeCode) (s : State), c ≠ 0b1001100#7 → c ≠ 0b1011111#7 → c ≠ 0b0001000#7 → s.status.busy = false →
      ∃ t, exec (.cmdIllegal c) s = .next t ∧ t.status = ⟨false, true, 2⟩ ∧ t.seq = { s.seq with stage := .fault } ∧
        t.latched = ⟨c, s.pins.cfgSampleRate, s.pins.imgWidth, s.pins.imgHeight⟩ ∧ t.total = 0 ∧ t.osc = s.osc ∧
        t.visOnes = s.visOnes ∧ t.emitting = none ∧ t.sink.accepted = s.sink.accepted ∧
        t.sink.answers = s.sink.answers ∧ t.issue = s.issue ∧ t.result = s.result ∧ SameEnvironment s t

/-- R226 check 2, R255: a command of a mode with another width or height is rejected with `InvalidGeometry`. -/
def Obligations.InvalidGeometryIsRejected : Prop :=
  ∀ (m : Mode) (s : State), s.status.busy = false →
    s.pins.imgWidth.toNat ≠ m.width ∨ s.pins.imgHeight.toNat ≠ m.rows →
    ∃ t, exec m.command s = .next t ∧ t.status = ⟨false, true, 5⟩ ∧ t.seq = { s.seq with stage := .fault } ∧
      t.latched = ⟨m.code, s.pins.cfgSampleRate, s.pins.imgWidth, s.pins.imgHeight⟩ ∧ t.total = 0 ∧ t.osc = s.osc ∧
      t.visOnes = s.visOnes ∧ t.emitting = none ∧ t.sink.accepted = s.sink.accepted ∧
      t.sink.answers = s.sink.answers ∧ t.issue = s.issue ∧ t.result = s.result ∧ SameEnvironment s t

/-- R304, R225: a command presented while busy is ignored. -/
def Obligations.BusyCommandIsIgnored : Prop :=
  ∀ s : State, s.status.busy = true →
    (∀ m : Mode, exec m.command s = .next s) ∧ (∀ c, exec (.cmdIllegal c) s = .next s) ∧
      (s.issue = none → s.nextPins.rst = false → s.nextPins.stores = [] → step s = sequencerStep s.takePins)

/-- R256: a run at rate 0 has no meaning; a stage is refused at once, a command when its checks have passed. -/
def Obligations.ZeroRateHasNoMeaning : Prop :=
  ∀ s : State,
    (s.latched.sr = 0 → (∀ code, exec (.encodeVis code) s = .refused .sampleRateZero) ∧
      (∀ m : Mode, exec m.scan s = .refused .sampleRateZero) ∧ exec .eot s = .refused .sampleRateZero) ∧
    (∀ m : Mode, s.status.busy = false → s.pins.imgWidth.toNat = m.width → s.pins.imgHeight.toNat = m.rows →
      s.pins.cfgSampleRate = 0 → exec m.command s = .refused .sampleRateZero)

/-! ### The step -/

/-- An issued operation runs: the step is exec of it, once the ports are taken and the host's stores are placed. The field
`issue` and its place before a presented command are the model's choice (log entry 8), as are the list of inputs and the
stores on it (log entries 20 and 19). -/
def Obligations.StepRunsTheIssuedOperation : Prop :=
  ∀ (s : State) (i : Instr) (w : IssueWord), s.issue = some w → decode w = .ok i → s.nextPins.rst = false →
    s.status.busy = false ∨ s.nextPins.stores = [] →
    step s = exec i { s with pins := s.nextPins, inputs := s.inputs.tail, issue := none,
                             pix := placeBytes s.pix s.nextPins.stores }

/-- A command on the port is accepted: the step is exec of the operation its code decodes to (R225). The
list of inputs and the stores on it are the model's choice (log entries 20 and 19). -/
def Obligations.StepAcceptsThePresentedCommand : Prop :=
  ∀ s : State, s.issue = none → s.nextPins.rst = false → s.nextPins.cmdValid = true → s.status.busy = false →
    step s = exec (decodeCommand s.nextPins.cmdMode)
      { s with pins := s.nextPins, inputs := s.inputs.tail, pix := placeBytes s.pix s.nextPins.stores }

/-- The two forms above for a word of the opcode table: the next step after `withFetchWord` is exec of the operation the
decoder reads from the word. It rests wholly on the model's choices, the layout of bare table words (log entry 9) and the
field `issue` (log entry 8): the block itself fetches no words (R75). -/
def Obligations.FetchWordRunsNext : Prop :=
  ∀ (s : State) (nbits w : ℕ) (i : Instr), decodeTableWord nbits w = some i → s.status.busy = false →
    ∃ u, step (s.withFetchWord nbits w) = exec i u ∧ u.inputs = s.inputs ∧ u.issue = none ∧
      u = { s with pins := u.pins, issue := none }

/-- R7, R119, R31: with an EMIT in progress, a step pushes its next sample, and after the last one re-seeds the phase and
advances `SEQ`. -/
def Obligations.StepEmitsTheNextSample : Prop :=
  ∀ (s : State) (e : Emission), s.quiet → s.issue = none → s.emitting = some e → s.sink.answer = true →
    ∃ t, step s = .next t ∧ t.total = s.total + 1 ∧
      t.sink.accepted = s.sink.accepted ++ [sampleWord (phaseAt s.latched.sr e.tone.f e.theta0 e.i)] ∧
      (e.i + 1 < e.n → t.emitting = some { e with i := e.i + 1 } ∧ t.osc = s.osc ∧ t.seq = s.seq ∧ t.visOnes = s.visOnes
        ∧ t.status = s.status ∧ t.result = s.result) ∧
      (¬ e.i + 1 < e.n → t.emitting = none ∧ t.osc.carry = s.osc.carry ∧
        t.osc.ph = frac (phaseAt s.latched.sr e.tone.f e.theta0 (reseedIndex s.params.oscEnd e.n))) ∧
      t.latched = s.latched ∧ SameEnvironment s t

/-- R7, R113, R114, R121: with none in progress, a step issues the tone of `SEQ`: its count and carry are computed, and a
tone of count 0 is over at once. -/
def Obligations.StepIssuesTheToneOfSeq : Prop :=
  ∀ (s : State) (t : Tone), s.quiet → s.issue = none → s.emitting = none → s.seq.stage.running = true →
    toneAt s = some t → 0 ≤ t.f → 0 < t.d → readsInside s = true → s.latched.sr ≠ 0 →
    ∃ u, step s = .next u ∧ u.total = s.total ∧ u.sink = s.sink ∧
      u.osc.carry = segmentCarry s.latched.sr t.d s.osc.carry ∧ u.latched = s.latched ∧ SameEnvironment s u ∧
      (segmentCount s.latched.sr t.d s.osc.carry ≠ 0 → u.seq = s.seq ∧ u.status = s.status ∧ u.osc.ph = s.osc.ph ∧
        u.emitting = some ⟨t, segmentCount s.latched.sr t.d s.osc.carry, 0, s.osc.ph⟩) ∧
      (segmentCount s.latched.sr t.d s.osc.carry = 0 → u.emitting = none ∧ u.osc.ph = frac s.osc.ph)

/-- R237, R270: in a resting position, with nothing presented, nothing happens. -/
def Obligations.RestingPositionsRest : Prop :=
  ∀ s : State, s.quiet → s.issue = none → s.emitting = none → s.seq.stage ∈ [Stage.idle, .done, .fault] →
    step s = .next s

/-- R56, R59, R62: a step of a run appends at most one sample to the stream and rewrites none; and only the host's stores
(the model's list of them, log entry 19) change the buffer. -/
def Obligations.StreamIsAppendOnly : Prop :=
  ∀ s t : State, s.issue = none → step s = .next t →
    (∃ vs, t.sink.accepted = s.sink.accepted ++ vs ∧ vs.length ≤ 1) ∧
      t.pix = placeBytes s.pix s.nextPins.stores ∧ t.params = s.params

/-! ### The invariant -/

/-- The invariant holds right after reset. -/
def Obligations.ResetMeetsTheInvariant : Prop := State.reset.Inv

/-- Every step keeps the invariant (R20, R25, R26, R30, R32, R33, R35), whatever the host drives. -/
def Obligations.StepKeepsTheInvariant : Prop := ∀ s t : State, s.Inv → step s = .next t → t.Inv

/-- From a state that meets the invariant a step stops for two breaches of the host's duties only (R238): a command at
rate 0, or a store to the buffer while an encode runs. -/
def Obligations.StepStopsOnlyOnAHostBreach : Prop :=
  ∀ s : State, s.Inv →
    (∃ t, step s = .next t) ∨
      (step s = .refused .sampleRateZero ∧ s.nextPins.cmdValid = true ∧ s.nextPins.cfgSampleRate = 0 ∧
        s.status.busy = false) ∨
      (step s = .refused .pixelBufferChanged ∧ s.nextPins.stores ≠ [] ∧ s.status.busy = true)

/-! ### Whole runs -/

/-- R227, R229 to R231: single steps, from the first position of a stage, do what the stage's operation does. -/
def Obligations.SingleStepsRunTheStages : Prop :=
  ∀ s : State, s.quiet → s.issue = none → s.emitting = none → s.latched.sr ≠ 0 →
    (s.seq = Seq.first s.params → s.params.preamble.all Tone.legal = true →
      ∃ t, exec (.encodeVis s.latched.mode) s = .next t ∧ Reaches s t) ∧
    (∀ m : Mode, s.latched.mode = m.code → s.seq = ⟨.body, 0, 0, 0, 0⟩ → m.width ≤ s.latched.w.toNat →
      m.rows ≤ s.latched.h.toNat → ∃ t, exec m.scan s = .next t ∧ Reaches s t) ∧
    (s.seq = ⟨.eot, 0, 0, 0, 0⟩ → ∃ t, exec .eot s = .next t ∧ Reaches s t)

/-- R236, R232 (R233 to R235): an accepted command whose samples the sink accepts reaches `DONE` with
`TOTAL = floor(SR * T / 1000)`, and the stream of the encode has that many samples. -/
def Obligations.EncodeRunsToCompletion : Prop :=
  ∀ (m : Mode) (s : State), s.quiet → s.issue = none → s.emitting = none → s.status.busy = false →
    s.pins.imgWidth.toNat = m.width → s.pins.imgHeight.toNat = m.rows → s.pins.cfgSampleRate ≠ 0 →
    (∀ t ∈ s.params.preamble, 0 ≤ t.f ∧ 0 < t.d) → s.sink.acceptsAll →
    ∃ t u, exec m.command s = .next t ∧ Reaches t u ∧ u.completed ∧ u.status = ⟨false, true, 0⟩ ∧
      u.total = ⌊s.pins.cfgSampleRate.toNat * ((s.params.preamble.map Tone.d).sum + m.duration) / 1000⌋₊ ∧
      u.osc.carry = Int.fract (s.pins.cfgSampleRate.toNat * ((s.params.preamble.map Tone.d).sum + m.duration) / 1000 : ℚ) ∧
      u.result = u.total ∧ u.sink.stream.length = u.total ∧ SameEnvironment s u

/-- R322, R237: whatever the sink answers, an accepted command's run ends in `DONE` or in `FAULT`, and `TOTAL` counts the
samples of the stream. -/
def Obligations.EveryRunEnds : Prop :=
  ∀ (m : Mode) (s : State), s.Inv → s.quiet → s.status.busy = false → s.pins.imgWidth.toNat = m.width →
    s.pins.imgHeight.toNat = m.rows → s.pins.cfgSampleRate ≠ 0 →
    ∃ t u, exec m.command s = .next t ∧ Reaches t u ∧ u.ended ∧ u.status.busy = false ∧ u.status.done = true ∧
      (u.seq.stage = .done → u.status.err = 0) ∧ (u.seq.stage = .fault → u.status.err = 4) ∧
      u.sink.stream.length = u.total

/-- R296: under the rule's bound on the rate and the preamble no encode's `TOTAL` exceeds the 32 bits of its port; with an
empty preamble every rate up to 15819645 meets the bound, and at 15819646 the count of Scottie-DX exceeds it. -/
def Obligations.TotalFitsItsPort : Prop :=
  (∀ (m : Mode) (s : State) (sr : BitVec 32) (preamble : List Tone),
    sr.toNat * (271495.8 + nominalDuration preamble) / 1000 < 2 ^ 32 →
    s.total = ⌊sr.toNat * (nominalDuration preamble + m.duration) / 1000⌋₊ →
    s.outputs.totalSamples.toNat = s.total) ∧
  (∀ sr : ℕ, sr ≤ 15819645 → (sr : ℚ) * (271495.8 + nominalDuration []) / 1000 < 2 ^ 32) ∧
  2 ^ 32 ≤ ⌊(15819646 : ℚ) * Mode.duration .scottieDx / 1000⌋₊

/-- R288: an encode remembers nothing of earlier ones. Two blocks that meet the invariant, with the same buffer,
parameters, sink answers and ports, and a command of a mode now accepted, show the same stream, `TOTAL` and status after
every number of steps. -/
def Obligations.EncodesRememberNothing : Prop :=
  ∀ (m : Mode) (s₁ s₂ : State) (k : ℕ), s₁.Inv → s₂.Inv → s₁.pix = s₂.pix → s₁.params = s₂.params →
    s₁.sink.answers = s₂.sink.answers → s₁.sink.rest = s₂.sink.rest → s₁.nextPins = s₂.nextPins →
    s₁.inputs.tail = s₂.inputs.tail → s₁.status.busy = false → s₂.status.busy = false → s₁.nextPins.rst = false →
    s₁.nextPins.cmdValid = true → s₁.nextPins.cmdMode = m.code → s₁.nextPins.imgWidth.toNat = m.width →
    s₁.nextPins.imgHeight.toNat = m.rows → s₁.nextPins.cfgSampleRate ≠ 0 →
    ∀ t₁, Host.Core.run core (k + 1) s₁ = .next t₁ →
      ∃ t₂, Host.Core.run core (k + 1) s₂ = .next t₂ ∧ t₁.sink.stream = t₂.sink.stream ∧ t₁.total = t₂.total ∧
        t₁.status = t₂.status ∧ t₁.seq = t₂.seq ∧ t₁.osc = t₂.osc

/-! ### The encodings -/

/-- R76 to R80: decoding the word of a well-formed operation gives it back, with every operand. -/
def Obligations.DecodeEncodeRoundTrip : Prop := ∀ i : Instr, i.wf = true → decode (encode i) = .ok i

/-- The other direction: every word decodes to a well-formed operation or is rejected, and a decoded word is the word of
its operation, but for SAMPLE, which may also come as number `1010` with its selector as an operand (R80). -/
def Obligations.DecodedWordsAreTheOperationsWords : Prop :=
  ∀ (w : IssueWord) (i : Instr), decode w = .ok i → i.wf = true ∧
    (encode i = w ∨ ∃ sel x y, w = .uop 0b1010#4 [.channel sel, .coord x, .coord y] ∧ encode i = .ch sel x y)

/-- R77, R78, R80: words written out from the tables decode to the operations they stand for, and the numbers above `1010`
to none. -/
def Obligations.TableWordsDecode : Prop :=
  decode (.cmd 0b1001100#7) = .ok .encodeSdx ∧ decode (.cmd 0b1011111#7) = .ok .encodePd120 ∧
    decode (.cmd 0b0001000#7) = .ok .encodeR36 ∧ decode (.cmd 0b0000000#7) = .ok (.cmdIllegal 0) ∧
    (∀ x y, decode (.ch 0b100#3 x y) = .ok (.sampleRY x y) ∧ decode (.ch 0b111#3 x y) = .ok (.chIllegal 1 x y)) ∧
    decode (.uop 0b0000#4 []) = .ok .oscReset ∧ decode (.uop 0b0101#4 [.code 0b1111111#7]) = .ok (.encodeVis 0b1111111#7) ∧
    decode (.uop 0b0111#4 []) = .ok .scanPd120 ∧ decode (.uop 0b1001#4 []) = .ok .eot ∧
    ∀ args, decode (.uop 0b1011#4 args) = .error (.unassignedUop 0b1011#4) ∧
      decode (.uop 0b1111#4 args) = .error (.unassignedUop 0b1111#4)
end

