-- ==== Sys2Proof/Laws/State.lean ====
section
/-! SUPPORT. One lemma per field and named update of the state, each true by rfl, so that no proof unfolds a record update. -/

namespace Sys2Proof.Machine

/-! ### `resetOscillator` -/

@[simp] theorem resetOscillator_osc (s : State) : (resetOscillator s).osc = Osc.start := rfl
@[simp] theorem resetOscillator_total (s : State) : (resetOscillator s).total = s.total := rfl
@[simp] theorem resetOscillator_latched (s : State) : (resetOscillator s).latched = s.latched := rfl
@[simp] theorem resetOscillator_status (s : State) : (resetOscillator s).status = s.status := rfl
@[simp] theorem resetOscillator_seq (s : State) : (resetOscillator s).seq = s.seq := rfl
@[simp] theorem resetOscillator_visOnes (s : State) : (resetOscillator s).visOnes = s.visOnes := rfl
@[simp] theorem resetOscillator_emitting (s : State) : (resetOscillator s).emitting = s.emitting := rfl
@[simp] theorem resetOscillator_pix (s : State) : (resetOscillator s).pix = s.pix := rfl
@[simp] theorem resetOscillator_sink (s : State) : (resetOscillator s).sink = s.sink := rfl
@[simp] theorem resetOscillator_pins (s : State) : (resetOscillator s).pins = s.pins := rfl
@[simp] theorem resetOscillator_inputs (s : State) : (resetOscillator s).inputs = s.inputs := rfl
@[simp] theorem resetOscillator_issue (s : State) : (resetOscillator s).issue = s.issue := rfl
@[simp] theorem resetOscillator_result (s : State) : (resetOscillator s).result = s.result := rfl
@[simp] theorem resetOscillator_params (s : State) : (resetOscillator s).params = s.params := rfl

/-! ### `writeCarry` -/

@[simp] theorem writeCarry_osc (t : Tone) (s : State) : (writeCarry t s).osc = ⟨s.osc.ph, segmentCarry s.latched.sr t.d s.osc.carry⟩ := rfl
@[simp] theorem writeCarry_total (t : Tone) (s : State) : (writeCarry t s).total = s.total := rfl
@[simp] theorem writeCarry_latched (t : Tone) (s : State) : (writeCarry t s).latched = s.latched := rfl
@[simp] theorem writeCarry_status (t : Tone) (s : State) : (writeCarry t s).status = s.status := rfl
@[simp] theorem writeCarry_seq (t : Tone) (s : State) : (writeCarry t s).seq = s.seq := rfl
@[simp] theorem writeCarry_visOnes (t : Tone) (s : State) : (writeCarry t s).visOnes = s.visOnes := rfl
@[simp] theorem writeCarry_emitting (t : Tone) (s : State) : (writeCarry t s).emitting = s.emitting := rfl
@[simp] theorem writeCarry_pix (t : Tone) (s : State) : (writeCarry t s).pix = s.pix := rfl
@[simp] theorem writeCarry_sink (t : Tone) (s : State) : (writeCarry t s).sink = s.sink := rfl
@[simp] theorem writeCarry_pins (t : Tone) (s : State) : (writeCarry t s).pins = s.pins := rfl
@[simp] theorem writeCarry_inputs (t : Tone) (s : State) : (writeCarry t s).inputs = s.inputs := rfl
@[simp] theorem writeCarry_issue (t : Tone) (s : State) : (writeCarry t s).issue = s.issue := rfl
@[simp] theorem writeCarry_result (t : Tone) (s : State) : (writeCarry t s).result = s.result := rfl
@[simp] theorem writeCarry_params (t : Tone) (s : State) : (writeCarry t s).params = s.params := rfl

/-! ### `endTone` -/

@[simp] theorem endTone_osc (t : Tone) (n : Nat) (p : Rat) (s : State) : (endTone t n p s).osc = ⟨frac (phaseAt s.latched.sr t.f p (reseedIndex s.params.oscEnd n)), s.osc.carry⟩ := rfl
@[simp] theorem endTone_total (t : Tone) (n : Nat) (p : Rat) (s : State) : (endTone t n p s).total = s.total := rfl
@[simp] theorem endTone_latched (t : Tone) (n : Nat) (p : Rat) (s : State) : (endTone t n p s).latched = s.latched := rfl
@[simp] theorem endTone_status (t : Tone) (n : Nat) (p : Rat) (s : State) : (endTone t n p s).status = s.status := rfl
@[simp] theorem endTone_seq (t : Tone) (n : Nat) (p : Rat) (s : State) : (endTone t n p s).seq = s.seq := rfl
@[simp] theorem endTone_visOnes (t : Tone) (n : Nat) (p : Rat) (s : State) : (endTone t n p s).visOnes = s.visOnes := rfl
@[simp] theorem endTone_emitting (t : Tone) (n : Nat) (p : Rat) (s : State) : (endTone t n p s).emitting = s.emitting := rfl
@[simp] theorem endTone_pix (t : Tone) (n : Nat) (p : Rat) (s : State) : (endTone t n p s).pix = s.pix := rfl
@[simp] theorem endTone_sink (t : Tone) (n : Nat) (p : Rat) (s : State) : (endTone t n p s).sink = s.sink := rfl
@[simp] theorem endTone_pins (t : Tone) (n : Nat) (p : Rat) (s : State) : (endTone t n p s).pins = s.pins := rfl
@[simp] theorem endTone_inputs (t : Tone) (n : Nat) (p : Rat) (s : State) : (endTone t n p s).inputs = s.inputs := rfl
@[simp] theorem endTone_issue (t : Tone) (n : Nat) (p : Rat) (s : State) : (endTone t n p s).issue = s.issue := rfl
@[simp] theorem endTone_result (t : Tone) (n : Nat) (p : Rat) (s : State) : (endTone t n p s).result = (n : Rat) := rfl
@[simp] theorem endTone_params (t : Tone) (n : Nat) (p : Rat) (s : State) : (endTone t n p s).params = s.params := rfl

/-! ### `faultEntry` -/

@[simp] theorem faultEntry_osc (e : ErrorKind) (s : State) : (faultEntry e s).osc = s.osc := rfl
@[simp] theorem faultEntry_total (e : ErrorKind) (s : State) : (faultEntry e s).total = s.total := rfl
@[simp] theorem faultEntry_latched (e : ErrorKind) (s : State) : (faultEntry e s).latched = s.latched := rfl
@[simp] theorem faultEntry_status (e : ErrorKind) (s : State) : (faultEntry e s).status = Status.faulted e := rfl
@[simp] theorem faultEntry_seq (e : ErrorKind) (s : State) : (faultEntry e s).seq = { s.seq with stage := .fault } := rfl
@[simp] theorem faultEntry_visOnes (e : ErrorKind) (s : State) : (faultEntry e s).visOnes = s.visOnes := rfl
@[simp] theorem faultEntry_emitting (e : ErrorKind) (s : State) : (faultEntry e s).emitting = none := rfl
@[simp] theorem faultEntry_pix (e : ErrorKind) (s : State) : (faultEntry e s).pix = s.pix := rfl
@[simp] theorem faultEntry_sink (e : ErrorKind) (s : State) : (faultEntry e s).sink = s.sink := rfl
@[simp] theorem faultEntry_pins (e : ErrorKind) (s : State) : (faultEntry e s).pins = s.pins := rfl
@[simp] theorem faultEntry_inputs (e : ErrorKind) (s : State) : (faultEntry e s).inputs = s.inputs := rfl
@[simp] theorem faultEntry_issue (e : ErrorKind) (s : State) : (faultEntry e s).issue = s.issue := rfl
@[simp] theorem faultEntry_result (e : ErrorKind) (s : State) : (faultEntry e s).result = s.result := rfl
@[simp] theorem faultEntry_params (e : ErrorKind) (s : State) : (faultEntry e s).params = s.params := rfl

/-! ### `latchCommand` -/

@[simp] theorem latchCommand_osc (c : ModeCode) (s : State) : (latchCommand c s).osc = s.osc := rfl
@[simp] theorem latchCommand_total (c : ModeCode) (s : State) : (latchCommand c s).total = 0 := rfl
@[simp] theorem latchCommand_latched (c : ModeCode) (s : State) : (latchCommand c s).latched = ⟨c, s.pins.cfgSampleRate, s.pins.imgWidth, s.pins.imgHeight⟩ := rfl
@[simp] theorem latchCommand_status (c : ModeCode) (s : State) : (latchCommand c s).status = Status.accepted := rfl
@[simp] theorem latchCommand_seq (c : ModeCode) (s : State) : (latchCommand c s).seq = s.seq := rfl
@[simp] theorem latchCommand_visOnes (c : ModeCode) (s : State) : (latchCommand c s).visOnes = s.visOnes := rfl
@[simp] theorem latchCommand_emitting (c : ModeCode) (s : State) : (latchCommand c s).emitting = s.emitting := rfl
@[simp] theorem latchCommand_pix (c : ModeCode) (s : State) : (latchCommand c s).pix = s.pix := rfl
@[simp] theorem latchCommand_sink (c : ModeCode) (s : State) : (latchCommand c s).sink = { s.sink with base := s.sink.acceptedRev.length } := rfl
@[simp] theorem latchCommand_pins (c : ModeCode) (s : State) : (latchCommand c s).pins = s.pins := rfl
@[simp] theorem latchCommand_inputs (c : ModeCode) (s : State) : (latchCommand c s).inputs = s.inputs := rfl
@[simp] theorem latchCommand_issue (c : ModeCode) (s : State) : (latchCommand c s).issue = s.issue := rfl
@[simp] theorem latchCommand_result (c : ModeCode) (s : State) : (latchCommand c s).result = s.result := rfl
@[simp] theorem latchCommand_params (c : ModeCode) (s : State) : (latchCommand c s).params = s.params := rfl

/-! ### `startSynthesis` -/

@[simp] theorem startSynthesis_osc (s : State) : (startSynthesis s).osc = Osc.start := rfl
@[simp] theorem startSynthesis_total (s : State) : (startSynthesis s).total = s.total := rfl
@[simp] theorem startSynthesis_latched (s : State) : (startSynthesis s).latched = s.latched := rfl
@[simp] theorem startSynthesis_status (s : State) : (startSynthesis s).status = s.status := rfl
@[simp] theorem startSynthesis_seq (s : State) : (startSynthesis s).seq = Seq.first s.params := rfl
@[simp] theorem startSynthesis_visOnes (s : State) : (startSynthesis s).visOnes = 0 := rfl
@[simp] theorem startSynthesis_emitting (s : State) : (startSynthesis s).emitting = s.emitting := rfl
@[simp] theorem startSynthesis_pix (s : State) : (startSynthesis s).pix = s.pix := rfl
@[simp] theorem startSynthesis_sink (s : State) : (startSynthesis s).sink = s.sink := rfl
@[simp] theorem startSynthesis_pins (s : State) : (startSynthesis s).pins = s.pins := rfl
@[simp] theorem startSynthesis_inputs (s : State) : (startSynthesis s).inputs = s.inputs := rfl
@[simp] theorem startSynthesis_issue (s : State) : (startSynthesis s).issue = s.issue := rfl
@[simp] theorem startSynthesis_result (s : State) : (startSynthesis s).result = s.result := rfl
@[simp] theorem startSynthesis_params (s : State) : (startSynthesis s).params = s.params := rfl

/-! ### `complete` -/

@[simp] theorem complete_osc (s : State) : (complete s).osc = s.osc := rfl
@[simp] theorem complete_total (s : State) : (complete s).total = s.total := rfl
@[simp] theorem complete_latched (s : State) : (complete s).latched = s.latched := rfl
@[simp] theorem complete_status (s : State) : (complete s).status = s.status.completed := rfl
@[simp] theorem complete_seq (s : State) : (complete s).seq = { s.seq with stage := .done } := rfl
@[simp] theorem complete_visOnes (s : State) : (complete s).visOnes = s.visOnes := rfl
@[simp] theorem complete_emitting (s : State) : (complete s).emitting = s.emitting := rfl
@[simp] theorem complete_pix (s : State) : (complete s).pix = s.pix := rfl
@[simp] theorem complete_sink (s : State) : (complete s).sink = s.sink := rfl
@[simp] theorem complete_pins (s : State) : (complete s).pins = s.pins := rfl
@[simp] theorem complete_inputs (s : State) : (complete s).inputs = s.inputs := rfl
@[simp] theorem complete_issue (s : State) : (complete s).issue = s.issue := rfl
@[simp] theorem complete_result (s : State) : (complete s).result = (s.total : Rat) := rfl
@[simp] theorem complete_params (s : State) : (complete s).params = s.params := rfl

/-! ### `enterPosition` -/

@[simp] theorem enterPosition_osc (p : Seq) (s : State) : (enterPosition p s).osc = s.osc := rfl
@[simp] theorem enterPosition_total (p : Seq) (s : State) : (enterPosition p s).total = s.total := rfl
@[simp] theorem enterPosition_latched (p : Seq) (s : State) : (enterPosition p s).latched = s.latched := rfl
@[simp] theorem enterPosition_status (p : Seq) (s : State) : (enterPosition p s).status = s.status := rfl
@[simp] theorem enterPosition_seq (p : Seq) (s : State) : (enterPosition p s).seq = p := rfl
@[simp] theorem enterPosition_visOnes (p : Seq) (s : State) : (enterPosition p s).visOnes = if p.stage = .vis ∧ p.k = 12 then 0 else s.visOnes := rfl
@[simp] theorem enterPosition_emitting (p : Seq) (s : State) : (enterPosition p s).emitting = s.emitting := rfl
@[simp] theorem enterPosition_pix (p : Seq) (s : State) : (enterPosition p s).pix = s.pix := rfl
@[simp] theorem enterPosition_sink (p : Seq) (s : State) : (enterPosition p s).sink = s.sink := rfl
@[simp] theorem enterPosition_pins (p : Seq) (s : State) : (enterPosition p s).pins = s.pins := rfl
@[simp] theorem enterPosition_inputs (p : Seq) (s : State) : (enterPosition p s).inputs = s.inputs := rfl
@[simp] theorem enterPosition_issue (p : Seq) (s : State) : (enterPosition p s).issue = s.issue := rfl
@[simp] theorem enterPosition_result (p : Seq) (s : State) : (enterPosition p s).result = s.result := rfl
@[simp] theorem enterPosition_params (p : Seq) (s : State) : (enterPosition p s).params = s.params := rfl

/-! ### `leavePosition` -/

@[simp] theorem leavePosition_osc (c : ModeCode) (p : Seq) (s : State) : (leavePosition c p s).osc = s.osc := rfl
@[simp] theorem leavePosition_total (c : ModeCode) (p : Seq) (s : State) : (leavePosition c p s).total = s.total := rfl
@[simp] theorem leavePosition_latched (c : ModeCode) (p : Seq) (s : State) : (leavePosition c p s).latched = s.latched := rfl
@[simp] theorem leavePosition_status (c : ModeCode) (p : Seq) (s : State) : (leavePosition c p s).status = s.status := rfl
@[simp] theorem leavePosition_seq (c : ModeCode) (p : Seq) (s : State) : (leavePosition c p s).seq = s.seq := rfl
@[simp] theorem leavePosition_visOnes (c : ModeCode) (p : Seq) (s : State) : (leavePosition c p s).visOnes = if p.stage = .vis ∧ 12 ≤ p.k ∧ p.k ≤ 18 ∧ c.getLsbD (p.k - 12) = true then s.visOnes + 1 else s.visOnes := rfl
@[simp] theorem leavePosition_emitting (c : ModeCode) (p : Seq) (s : State) : (leavePosition c p s).emitting = s.emitting := rfl
@[simp] theorem leavePosition_pix (c : ModeCode) (p : Seq) (s : State) : (leavePosition c p s).pix = s.pix := rfl
@[simp] theorem leavePosition_sink (c : ModeCode) (p : Seq) (s : State) : (leavePosition c p s).sink = s.sink := rfl
@[simp] theorem leavePosition_pins (c : ModeCode) (p : Seq) (s : State) : (leavePosition c p s).pins = s.pins := rfl
@[simp] theorem leavePosition_inputs (c : ModeCode) (p : Seq) (s : State) : (leavePosition c p s).inputs = s.inputs := rfl
@[simp] theorem leavePosition_issue (c : ModeCode) (p : Seq) (s : State) : (leavePosition c p s).issue = s.issue := rfl
@[simp] theorem leavePosition_result (c : ModeCode) (p : Seq) (s : State) : (leavePosition c p s).result = s.result := rfl
@[simp] theorem leavePosition_params (c : ModeCode) (p : Seq) (s : State) : (leavePosition c p s).params = s.params := rfl

/-! ### `handOver` -/

@[simp] theorem handOver_osc (g : Stage) (s : State) : (handOver g s).osc = s.osc := rfl
@[simp] theorem handOver_total (g : Stage) (s : State) : (handOver g s).total = s.total := rfl
@[simp] theorem handOver_latched (g : Stage) (s : State) : (handOver g s).latched = s.latched := rfl
@[simp] theorem handOver_status (g : Stage) (s : State) : (handOver g s).status = s.status := rfl
@[simp] theorem handOver_seq (g : Stage) (s : State) : (handOver g s).seq = ⟨g, 0, 0, 0, 0⟩ := rfl
@[simp] theorem handOver_visOnes (g : Stage) (s : State) : (handOver g s).visOnes = s.visOnes := rfl
@[simp] theorem handOver_emitting (g : Stage) (s : State) : (handOver g s).emitting = s.emitting := rfl
@[simp] theorem handOver_pix (g : Stage) (s : State) : (handOver g s).pix = s.pix := rfl
@[simp] theorem handOver_sink (g : Stage) (s : State) : (handOver g s).sink = s.sink := rfl
@[simp] theorem handOver_pins (g : Stage) (s : State) : (handOver g s).pins = s.pins := rfl
@[simp] theorem handOver_inputs (g : Stage) (s : State) : (handOver g s).inputs = s.inputs := rfl
@[simp] theorem handOver_issue (g : Stage) (s : State) : (handOver g s).issue = s.issue := rfl
@[simp] theorem handOver_result (g : Stage) (s : State) : (handOver g s).result = s.result := rfl
@[simp] theorem handOver_params (g : Stage) (s : State) : (handOver g s).params = s.params := rfl

/-! ### `hardwareReset` -/

@[simp] theorem hardwareReset_osc (s : State) : (hardwareReset s).osc = Osc.start := rfl
@[simp] theorem hardwareReset_total (s : State) : (hardwareReset s).total = 0 := rfl
@[simp] theorem hardwareReset_latched (s : State) : (hardwareReset s).latched = Latched.atReset := rfl
@[simp] theorem hardwareReset_status (s : State) : (hardwareReset s).status = Status.atReset := rfl
@[simp] theorem hardwareReset_seq (s : State) : (hardwareReset s).seq = Seq.idle := rfl
@[simp] theorem hardwareReset_visOnes (s : State) : (hardwareReset s).visOnes = 0 := rfl
@[simp] theorem hardwareReset_emitting (s : State) : (hardwareReset s).emitting = none := rfl
@[simp] theorem hardwareReset_pix (s : State) : (hardwareReset s).pix = s.pix := rfl
@[simp] theorem hardwareReset_sink (s : State) : (hardwareReset s).sink = { s.sink with base := s.sink.acceptedRev.length } := rfl
@[simp] theorem hardwareReset_pins (s : State) : (hardwareReset s).pins = s.pins := rfl
@[simp] theorem hardwareReset_inputs (s : State) : (hardwareReset s).inputs = s.inputs := rfl
@[simp] theorem hardwareReset_issue (s : State) : (hardwareReset s).issue = none := rfl
@[simp] theorem hardwareReset_result (s : State) : (hardwareReset s).result = 0 := rfl
@[simp] theorem hardwareReset_params (s : State) : (hardwareReset s).params = s.params := rfl

/-! ### `takePins` -/

@[simp] theorem takePins_osc (s : State) : s.takePins.osc = s.osc := rfl
@[simp] theorem takePins_total (s : State) : s.takePins.total = s.total := rfl
@[simp] theorem takePins_latched (s : State) : s.takePins.latched = s.latched := rfl
@[simp] theorem takePins_status (s : State) : s.takePins.status = s.status := rfl
@[simp] theorem takePins_seq (s : State) : s.takePins.seq = s.seq := rfl
@[simp] theorem takePins_visOnes (s : State) : s.takePins.visOnes = s.visOnes := rfl
@[simp] theorem takePins_emitting (s : State) : s.takePins.emitting = s.emitting := rfl
@[simp] theorem takePins_pix (s : State) : s.takePins.pix = s.pix := rfl
@[simp] theorem takePins_sink (s : State) : s.takePins.sink = s.sink := rfl
@[simp] theorem takePins_pins (s : State) : s.takePins.pins = s.nextPins := rfl
@[simp] theorem takePins_inputs (s : State) : s.takePins.inputs = s.inputs.tail := rfl
@[simp] theorem takePins_issue (s : State) : s.takePins.issue = s.issue := rfl
@[simp] theorem takePins_result (s : State) : s.takePins.result = s.result := rfl
@[simp] theorem takePins_params (s : State) : s.takePins.params = s.params := rfl

/-! ### `placeStores` -/

@[simp] theorem placeStores_osc (s : State) : s.placeStores.osc = s.osc := rfl
@[simp] theorem placeStores_total (s : State) : s.placeStores.total = s.total := rfl
@[simp] theorem placeStores_latched (s : State) : s.placeStores.latched = s.latched := rfl
@[simp] theorem placeStores_status (s : State) : s.placeStores.status = s.status := rfl
@[simp] theorem placeStores_seq (s : State) : s.placeStores.seq = s.seq := rfl
@[simp] theorem placeStores_visOnes (s : State) : s.placeStores.visOnes = s.visOnes := rfl
@[simp] theorem placeStores_emitting (s : State) : s.placeStores.emitting = s.emitting := rfl
@[simp] theorem placeStores_pix (s : State) : s.placeStores.pix = placeBytes s.pix s.pins.stores := rfl
@[simp] theorem placeStores_sink (s : State) : s.placeStores.sink = s.sink := rfl
@[simp] theorem placeStores_pins (s : State) : s.placeStores.pins = s.pins := rfl
@[simp] theorem placeStores_inputs (s : State) : s.placeStores.inputs = s.inputs := rfl
@[simp] theorem placeStores_issue (s : State) : s.placeStores.issue = s.issue := rfl
@[simp] theorem placeStores_result (s : State) : s.placeStores.result = s.result := rfl
@[simp] theorem placeStores_params (s : State) : s.placeStores.params = s.params := rfl

/-! ### `advance`, which moves `SEQ` and at the end of an encode completes it -/

@[simp] theorem advance_osc (s : State) : (advance s).osc = s.osc := by
  unfold advance; split <;> (try split) <;> rfl
@[simp] theorem advance_total (s : State) : (advance s).total = s.total := by
  unfold advance; split <;> (try split) <;> rfl
@[simp] theorem advance_latched (s : State) : (advance s).latched = s.latched := by
  unfold advance; split <;> (try split) <;> rfl
@[simp] theorem advance_visOnes (s : State) : (advance s).visOnes = s.visOnes := by
  unfold advance; split <;> (try split) <;> rfl
@[simp] theorem advance_emitting (s : State) : (advance s).emitting = s.emitting := by
  unfold advance; split <;> (try split) <;> rfl
@[simp] theorem advance_pix (s : State) : (advance s).pix = s.pix := by
  unfold advance; split <;> (try split) <;> rfl
@[simp] theorem advance_sink (s : State) : (advance s).sink = s.sink := by
  unfold advance; split <;> (try split) <;> rfl
@[simp] theorem advance_pins (s : State) : (advance s).pins = s.pins := by
  unfold advance; split <;> (try split) <;> rfl
@[simp] theorem advance_inputs (s : State) : (advance s).inputs = s.inputs := by
  unfold advance; split <;> (try split) <;> rfl
@[simp] theorem advance_issue (s : State) : (advance s).issue = s.issue := by
  unfold advance; split <;> (try split) <;> rfl
@[simp] theorem advance_params (s : State) : (advance s).params = s.params := by
  unfold advance; split <;> (try split) <;> rfl

/-! ### `finishTone`, the end of a tone at `SEQ` -/

@[simp] theorem finishTone_osc (t : Tone) (n : Nat) (p : Rat) (s : State) :
    (finishTone t n p s).osc = ⟨frac (phaseAt s.latched.sr t.f p (reseedIndex s.params.oscEnd n)), s.osc.carry⟩ := by simp [finishTone]
@[simp] theorem finishTone_total (t : Tone) (n : Nat) (p : Rat) (s : State) :
    (finishTone t n p s).total = s.total := by simp [finishTone]
@[simp] theorem finishTone_latched (t : Tone) (n : Nat) (p : Rat) (s : State) :
    (finishTone t n p s).latched = s.latched := by simp [finishTone]
@[simp] theorem finishTone_emitting (t : Tone) (n : Nat) (p : Rat) (s : State) :
    (finishTone t n p s).emitting = none := by simp [finishTone]
@[simp] theorem finishTone_pix (t : Tone) (n : Nat) (p : Rat) (s : State) :
    (finishTone t n p s).pix = s.pix := by simp [finishTone]
@[simp] theorem finishTone_sink (t : Tone) (n : Nat) (p : Rat) (s : State) :
    (finishTone t n p s).sink = s.sink := by simp [finishTone]
@[simp] theorem finishTone_pins (t : Tone) (n : Nat) (p : Rat) (s : State) :
    (finishTone t n p s).pins = s.pins := by simp [finishTone]
@[simp] theorem finishTone_inputs (t : Tone) (n : Nat) (p : Rat) (s : State) :
    (finishTone t n p s).inputs = s.inputs := by simp [finishTone]
@[simp] theorem finishTone_issue (t : Tone) (n : Nat) (p : Rat) (s : State) :
    (finishTone t n p s).issue = s.issue := by simp [finishTone]
@[simp] theorem finishTone_params (t : Tone) (n : Nat) (p : Rat) (s : State) :
    (finishTone t n p s).params = s.params := by simp [finishTone]

end Sys2Proof.Machine
end

