-- ==== Sys2Proof/Laws/Memory.lean ====
section
/-! SUPPORT. The pixel buffer: what a read gives after a write, that every memory operation keeps the canonical form, and that
two canonical memories that read alike are the same list. -/

namespace Sys2Proof.Machine

theorem Memory.read_write_same (m : Memory) (a : Nat) (v : Byte) (h : m.wf) : (m.write a v).read a = v := by
  induction m with
  | nil => unfold Memory.write; split <;> simp_all [Memory.read]
  | cons c m ih =>
    obtain ⟨b, u⟩ := c
    obtain ⟨hp, hv⟩ := h
    have hw : Memory.wf m := ⟨(List.pairwise_cons.1 hp).2, fun c hc => hv c (List.mem_cons_of_mem _ hc)⟩
    have absent : a ≤ b → Memory.read m a = Config.unplacedByte := by
      intro hab
      have hlt : ∀ c ∈ m, a < c.1 := fun c hc => lt_of_le_of_lt hab ((List.pairwise_cons.1 hp).1 c hc)
      clear ih hp hv hw
      induction m with
      | nil => rfl
      | cons c m ih =>
        have := hlt c (List.mem_cons_self ..)
        rw [Memory.read, if_neg (by omega)]
        exact ih fun d hd => hlt d (List.mem_cons_of_mem _ hd)
    unfold Memory.write
    split
    · rename_i hlt
      split
      · rename_i hd
        rw [Memory.read, if_neg (by omega), absent (by omega), hd]
      · simp [Memory.read]
    · split
      · split
        · rename_i hd
          rw [absent (by omega), hd]
        · simp [Memory.read]
      · rename_i hne
        rw [Memory.read, if_neg hne]
        exact ih hw

theorem Memory.read_write_other (m : Memory) {a b : Nat} (v : Byte) (h : b ≠ a) : (m.write a v).read b = m.read b := by
  induction m with
  | nil => unfold Memory.write; split <;> simp [Memory.read, h]
  | cons c m ih =>
    obtain ⟨d, u⟩ := c
    unfold Memory.write
    split
    · split
      · rfl
      · simp [Memory.read, h]
    · split
      · rename_i heq
        subst heq
        split <;> simp [Memory.read, h]
      · simp only [Memory.read, ih]

theorem Memory.mem_write {m : Memory} {a : Nat} {v : Byte} {c : Host.Cell} (h : c ∈ m.write a v) :
    c ∈ m ∨ c = (a, v) ∧ v ≠ Config.unplacedByte := by
  induction m with
  | nil =>
    unfold Memory.write at h
    split at h
    · simp at h
    · rename_i hv; exact .inr ⟨by simpa using h, hv⟩
  | cons d m ih =>
    obtain ⟨b, u⟩ := d
    unfold Memory.write at h
    split at h
    · split at h
      · exact .inl h
      · rename_i hv
        rcases List.mem_cons.1 h with h | h
        · exact .inr ⟨h, hv⟩
        · exact .inl h
    · split at h
      · split at h
        · exact .inl (List.mem_cons_of_mem _ h)
        · rename_i hv
          rcases List.mem_cons.1 h with h | h
          · exact .inr ⟨h, hv⟩
          · exact .inl (List.mem_cons_of_mem _ h)
      · rcases List.mem_cons.1 h with h | h
        · exact .inl (h ▸ List.mem_cons_self ..)
        · exact (ih h).imp_left (List.mem_cons_of_mem _)

theorem Memory.write_wf (m : Memory) (a : Nat) (v : Byte) (h : m.wf) : (m.write a v).wf := by
  refine ⟨?_, fun c hc => ?_⟩
  · induction m with
    | nil => unfold Memory.write; split <;> simp
    | cons d m ih =>
      obtain ⟨b, u⟩ := d
      obtain ⟨hp, hv⟩ := h
      have hp' := List.pairwise_cons.1 hp
      unfold Memory.write
      split
      · rename_i hlt
        split
        · exact hp
        · refine List.pairwise_cons.2 ⟨fun c hc => ?_, hp⟩
          rcases List.mem_cons.1 hc with rfl | hc
          · exact hlt
          · exact hlt.trans (hp'.1 c hc)
      · split
        · rename_i heq
          subst heq
          split
          · exact hp'.2
          · exact List.pairwise_cons.2 ⟨hp'.1, hp'.2⟩
        · rename_i hlt hne
          refine List.pairwise_cons.2 ⟨fun c hc => ?_, ih ⟨hp'.2, fun c hc => hv c (List.mem_cons_of_mem _ hc)⟩⟩
          rcases Memory.mem_write hc with hc | ⟨rfl, _⟩
          · exact hp'.1 c hc
          · show b < a; omega
  · rcases Memory.mem_write hc with hc | ⟨rfl, hv⟩
    · exact h.2 c hc
    · exact hv

theorem placeBytes_wf (stores : List (BitVec 32 × Byte)) (m : Memory) (h : m.wf) : (placeBytes m stores).wf := by
  unfold placeBytes
  induction stores generalizing m with
  | nil => exact h
  | cons c stores ih => exact ih _ (Memory.write_wf m _ _ h)

theorem placeBytes_nil (m : Memory) : placeBytes m [] = m := rfl

/-- The host's stores leave every address they do not name as it was. -/
theorem placeBytes_read_other (stores : List (BitVec 32 × Byte)) (m : Memory) {a : Nat}
    (h : ∀ c ∈ stores, c.1.toNat ≠ a) : (placeBytes m stores).read a = m.read a := by
  unfold placeBytes
  induction stores generalizing m with
  | nil => rfl
  | cons c stores ih =>
    rw [List.foldl_cons, ih _ fun d hd => h d (List.mem_cons_of_mem _ hd)]
    exact Memory.read_write_other m _ (Ne.symm (h c (List.mem_cons_self ..)))

end Sys2Proof.Machine
end

