-- ==== Sys2Proof/Laws/Sine.lean ====
section
/-! SUPPORT. The sample former is exact: `dac t` is the rounded sine of R118 at every rational phase. Machin's formula and the
Taylor polynomial give an enclosure; a Chebyshev recurrence keeps the sine of a rational turn away from every half-integer
that is no tie, so some precision within the search's reach decides. -/

open Real

namespace Sys2Proof.Machine

theorem arctanInverse_cast (m k : ℕ) :
    (arctanInverse m k : ℝ) = ∑ i ∈ Finset.range k, (-1) ^ i * (((m : ℝ)⁻¹) ^ (2 * i + 1) / (2 * i + 1)) := by
  induction k with
  | zero => simp [arctanInverse]
  | succ k ih =>
    rw [Finset.sum_range_succ, ← ih, arctanInverse]
    push_cast
    rw [inv_pow]
    congr 1
    rw [div_eq_mul_inv, div_eq_mul_inv, mul_inv]
    ring

theorem arctanInverse_error (m k : ℕ) (hm : 2 ≤ m) :
    |(arctanInverse m k : ℝ) - arctan ((m : ℝ)⁻¹)| ≤ ((m : ℝ)⁻¹) ^ (2 * k + 1) := by
  have hm' : (2 : ℝ) ≤ m := by exact_mod_cast hm
  have hpos : (0 : ℝ) < (m : ℝ)⁻¹ := by positivity
  have hlt : (m : ℝ)⁻¹ < 1 := by
    rw [inv_lt_one₀ (by linarith)]; linarith
  have hsum := Real.hasSum_arctan (x := (m : ℝ)⁻¹) (by rw [Real.norm_eq_abs, abs_of_pos hpos]; exact hlt)
  have hsum' : HasSum (fun i : ℕ => (-1 : ℝ) ^ i * (((m : ℝ)⁻¹) ^ (2 * i + 1) / (2 * i + 1))) (arctan ((m : ℝ)⁻¹)) := by
    convert hsum using 2 with i
    push_cast
    ring
  have hant : Antitone fun i : ℕ => ((m : ℝ)⁻¹) ^ (2 * i + 1) / (2 * (i : ℝ) + 1) := by
    refine antitone_nat_of_succ_le fun i => ?_
    apply div_le_div₀ (by positivity) _ (by positivity) (by push_cast; linarith)
    exact pow_le_pow_of_le_one hpos.le hlt.le (by omega)
  have hle : ∀ i : ℕ, ((m : ℝ)⁻¹) ^ (2 * i + 1) / (2 * (i : ℝ) + 1) ≤ ((m : ℝ)⁻¹) ^ (2 * i + 1) := fun i =>
    div_le_self (by positivity) (by linarith [(Nat.cast_nonneg i : (0 : ℝ) ≤ i)])
  have hsummable : Summable fun i : ℕ => ((m : ℝ)⁻¹) ^ (2 * i + 1) / (2 * (i : ℝ) + 1) := by
    refine Summable.of_nonneg_of_le (fun i => by positivity) (fun i => ?_) (summable_geometric_of_lt_one hpos.le hlt)
    exact (hle i).trans (pow_le_pow_of_le_one hpos.le hlt.le (by omega))
  have key := alternating_series_error_bound _ hant hsummable k
  rw [hsum'.tsum_eq] at key
  rw [arctanInverse_cast, abs_sub_comm]
  exact key.trans (hle k)

theorem piApprox_error (k : ℕ) : |(piApprox k : ℝ) - π| ≤ 4 / 25 ^ k := by
  have h5 := arctanInverse_error 5 k (by norm_num)
  have h239 := arctanInverse_error 239 k (by norm_num)
  have hπ := four_mul_arctan_inv_5_sub_arctan_inv_239
  have e5 : (((5 : ℕ) : ℝ)⁻¹) ^ (2 * k + 1) = (1 / 25 ^ k) * (1 / 5) := by
    rw [pow_succ, pow_mul, ← one_div_pow]; norm_num
  have e239 : (((239 : ℕ) : ℝ)⁻¹) ^ (2 * k + 1) ≤ (1 / 25 ^ k) * (1 / 239) := by
    rw [pow_succ, pow_mul, ← one_div_pow]
    gcongr <;> norm_num
  rw [e5] at h5
  have h239' := h239.trans e239
  have hp : (0 : ℝ) < 1 / 25 ^ k := by positivity
  have heq : (4 : ℝ) / 25 ^ k = 4 * (1 / 25 ^ k) := by ring
  rw [heq]
  generalize (1 : ℝ) / 25 ^ k = e at *
  rw [piApprox]
  push_cast at *
  rw [abs_le] at *
  constructor <;> linarith [h5.1, h5.2, h239'.1, h239'.2]

theorem sineSeries_cast (y : ℚ) (n j : ℕ) :
    (sineSeries y n j : ℝ) =
      ∑ i ∈ Finset.range n, (-(y : ℝ)) ^ i * ((2 * j + 1).factorial / (2 * (i + j) + 1).factorial) := by
  induction n generalizing j with
  | zero => simp [sineSeries]
  | succ n ih =>
    rw [Finset.sum_range_succ', sineSeries]
    push_cast
    rw [ih]
    have hf : ((2 * j + 1).factorial : ℝ) ≠ 0 := by positivity
    have hstep : ((2 * (j + 1) + 1).factorial : ℝ) = (2 * j + 3) * (2 * j + 2) * (2 * j + 1).factorial := by
      rw [show 2 * (j + 1) + 1 = (2 * j + 1 + 1) + 1 by ring, Nat.factorial_succ, Nat.factorial_succ]
      push_cast; ring
    rw [hstep, Finset.mul_sum]
    simp only [pow_zero, zero_add, one_mul, div_self hf]
    rw [sub_eq_add_neg, add_comm, ← Finset.sum_neg_distrib]
    congr 1
    refine Finset.sum_congr rfl fun i _ => ?_
    rw [show 2 * (i + (j + 1)) + 1 = 2 * (i + 1 + j) + 1 by ring]
    have h2 : (2 * (j : ℝ) + 2) ≠ 0 := by positivity
    have h3 : (2 * (j : ℝ) + 3) ≠ 0 := by positivity
    have hg : ((2 * (i + 1 + j) + 1).factorial : ℝ) ≠ 0 := by positivity
    field_simp
    ring

theorem sineApprox_cast (x : ℚ) (n : ℕ) :
    (sineApprox x n : ℝ) = ∑ j ∈ Finset.range n, (-1) ^ j * (x : ℝ) ^ (2 * j + 1) / (2 * j + 1).factorial := by
  rw [sineApprox, Rat.cast_mul, sineSeries_cast, Finset.mul_sum]
  refine Finset.sum_congr rfl fun j _ => ?_
  push_cast
  simp only [add_zero]
  norm_num
  rw [neg_pow, mul_pow, ← pow_add]
  ring

theorem im_exp_partial_sum (x : ℝ) (n : ℕ) :
    (∑ m ∈ Finset.range (2 * n), ((x : ℂ) * Complex.I) ^ m / (m.factorial : ℂ)).im =
      ∑ j ∈ Finset.range n, (-1) ^ j * x ^ (2 * j + 1) / (2 * j + 1).factorial := by
  induction n with
  | zero => simp
  | succ n ih =>
    rw [show 2 * (n + 1) = 2 * n + 1 + 1 by ring, Finset.sum_range_succ, Finset.sum_range_succ, Finset.sum_range_succ,
      Complex.add_im, Complex.add_im, ih, add_assoc]
    congr 1
    have h1 : ((x : ℂ) * Complex.I) ^ (2 * n) / ((2 * n).factorial : ℂ)
        = (((-1) ^ n * x ^ (2 * n) / (2 * n).factorial : ℝ) : ℂ) := by
      rw [mul_pow, pow_mul Complex.I, Complex.I_sq]; push_cast; ring
    have h2 : ((x : ℂ) * Complex.I) ^ (2 * n + 1) / ((2 * n + 1).factorial : ℂ)
        = (((-1) ^ n * x ^ (2 * n + 1) / (2 * n + 1).factorial : ℝ) : ℂ) * Complex.I := by
      rw [mul_pow, pow_succ Complex.I, pow_mul Complex.I, Complex.I_sq]; push_cast; ring
    rw [h1, h2, Complex.ofReal_im, zero_add, Complex.mul_im, Complex.ofReal_re, Complex.ofReal_im, Complex.I_re, Complex.I_im]
    ring

theorem sineApprox_error (x : ℚ) (n : ℕ) (hx : |(x : ℝ)| / (2 * n + 1) ≤ 1 / 2) :
    |(sineApprox x n : ℝ) - sin x| ≤ 2 * |(x : ℝ)| ^ (2 * n) / (2 * n).factorial := by
  have hn : ‖((x : ℝ) : ℂ) * Complex.I‖ = |(x : ℝ)| := by
    rw [norm_mul, Complex.norm_I, mul_one, Complex.norm_real, Real.norm_eq_abs]
  have hb := Complex.exp_bound' (x := ((x : ℝ) : ℂ) * Complex.I) (n := 2 * n)
    (by rw [hn]; push_cast; exact hx)
  rw [hn] at hb
  have him := (Complex.abs_im_le_norm _).trans hb
  rw [Complex.sub_im, im_exp_partial_sum, ← sineApprox_cast, Complex.exp_ofReal_mul_I_im] at him
  rw [abs_sub_comm]
  refine him.trans (le_of_eq (by ring))

theorem roundHalfAway_mono {y z : ℝ} (h : y ≤ z) : roundHalfAway y ≤ roundHalfAway z := by
  unfold roundHalfAway
  split_ifs with hy hz hz
  · exact Int.floor_le_floor (by linarith)
  · linarith
  · have h1 : 0 ≤ ⌊z + 1 / 2⌋ := Int.floor_nonneg.2 (by linarith)
    have h2 : 0 ≤ ⌊-y + 1 / 2⌋ := Int.floor_nonneg.2 (by linarith)
    linarith
  · have : ⌊-z + 1 / 2⌋ ≤ ⌊-y + 1 / 2⌋ := Int.floor_le_floor (by linarith)
    linarith

theorem roundHalfAway_neg {y : ℝ} : roundHalfAway (-y) = -roundHalfAway y := by
  unfold roundHalfAway
  rcases lt_trichotomy y 0 with h | h | h
  · rw [if_pos (by linarith), if_neg (by linarith)]; simp
  · subst h; norm_num
  · rw [if_neg (by linarith), if_pos h.le]; simp

/-- Where two reals round apart, a half-integer lies between them. -/
theorem half_between {y z : ℝ} (h : y ≤ z) (hne : roundHalfAway y ≠ roundHalfAway z) :
    ∃ c : ℤ, Odd c ∧ y ≤ c / 2 ∧ (c : ℝ) / 2 ≤ z := by
  unfold roundHalfAway at hne
  split_ifs at hne with hy hz hz
  · have hlt : ⌊y + 1 / 2⌋ < ⌊z + 1 / 2⌋ := lt_of_le_of_ne (Int.floor_le_floor (by linarith)) hne
    refine ⟨2 * ⌊z + 1 / 2⌋ - 1, ⟨⌊z + 1 / 2⌋ - 1, by ring⟩, ?_, ?_⟩
    · have h1 := Int.lt_floor_add_one (y + 1 / 2)
      have h2 : (⌊y + 1 / 2⌋ : ℝ) + 1 ≤ ⌊z + 1 / 2⌋ := by exact_mod_cast hlt
      push_cast; linarith
    · have h1 := Int.floor_le (z + 1 / 2)
      push_cast; linarith
  · linarith
  · push Not at hy
    by_cases hz2 : 1 / 2 ≤ z
    · exact ⟨1, odd_one, by push_cast; linarith, by push_cast; linarith⟩
    · by_cases hy2 : y ≤ -(1 / 2)
      · exact ⟨-1, by decide, by push_cast; linarith, by push_cast; linarith⟩
      · exfalso
        push Not at hz2 hy2
        have a : ⌊z + 1 / 2⌋ = 0 := Int.floor_eq_zero_iff.2 ⟨by linarith, by linarith⟩
        have b : ⌊-y + 1 / 2⌋ = 0 := Int.floor_eq_zero_iff.2 ⟨by linarith, by linarith⟩
        rw [a, b] at hne
        exact hne rfl
  · have hlt : ⌊-z + 1 / 2⌋ < ⌊-y + 1 / 2⌋ :=
      lt_of_le_of_ne (Int.floor_le_floor (by linarith)) (fun e => hne (by rw [e]))
    refine ⟨-(2 * ⌊-y + 1 / 2⌋ - 1), ⟨-⌊-y + 1 / 2⌋, by ring⟩, ?_, ?_⟩
    · have h1 := Int.floor_le (-y + 1 / 2)
      push_cast; linarith
    · have h1 := Int.lt_floor_add_one (-z + 1 / 2)
      have h2 : (⌊-z + 1 / 2⌋ : ℝ) + 1 ≤ ⌊-y + 1 / 2⌋ := by exact_mod_cast hlt
      push_cast; linarith

/-- `A ^ n * (2 cos (n t))` as a polynomial in `2 A cos t`, with `A = 32767`. -/
def cheb {R : Type} [CommRing R] (y : R) : ℕ → R
  | 0 => 2
  | 1 => y
  | n + 2 => y * cheb y (n + 1) - 32767 ^ 2 * cheb y n

theorem cheb_cast (c : ℤ) (n : ℕ) : ((cheb c n : ℤ) : ℝ) = cheb (c : ℝ) n := by
  induction n using Nat.strong_induction_on with
  | _ n ih =>
    match n with
    | 0 => simp [cheb]
    | 1 => simp [cheb]
    | n + 2 => simp only [cheb]; push_cast; rw [ih (n + 1) (by omega), ih n (by omega)]; norm_num

theorem cheb_cos (t : ℝ) (n : ℕ) : cheb (2 * 32767 * cos t) n = 2 * 32767 ^ n * cos (n * t) := by
  induction n using Nat.strong_induction_on with
  | _ n ih =>
    match n with
    | 0 => simp [cheb]
    | 1 => simp [cheb]
    | n + 2 =>
      simp only [cheb]
      rw [ih (n + 1) (by omega), ih n (by omega)]
      have h1 : cos (((n + 2 : ℕ) : ℝ) * t) = 2 * cos t * cos (((n + 1 : ℕ) : ℝ) * t) - cos ((n : ℝ) * t) := by
        have e1 : ((n + 2 : ℕ) : ℝ) * t = ((n + 1 : ℕ) : ℝ) * t + t := by push_cast; ring
        have e2 : (n : ℝ) * t = ((n + 1 : ℕ) : ℝ) * t - t := by push_cast; ring
        rw [e1, e2, cos_add, cos_sub]; ring
      rw [h1]; ring

theorem cheb_bound {y : ℝ} (hy : |y| ≤ 65535) (n : ℕ) : |cheb y n| ≤ 2 * 131072 ^ n := by
  induction n using Nat.strong_induction_on with
  | _ n ih =>
    match n with
    | 0 => simp [cheb]
    | 1 => simp only [cheb]; linarith
    | n + 2 =>
      simp only [cheb]
      have h1 := ih (n + 1) (by omega)
      have h0 := ih n (by omega)
      calc |y * cheb y (n + 1) - 32767 ^ 2 * cheb y n|
          ≤ |y * cheb y (n + 1)| + |32767 ^ 2 * cheb y n| := abs_sub _ _
        _ = |y| * |cheb y (n + 1)| + 32767 ^ 2 * |cheb y n| := by
            rw [abs_mul, abs_mul, abs_of_pos (by norm_num : (0 : ℝ) < 32767 ^ 2)]
        _ ≤ 65535 * (2 * 131072 ^ (n + 1)) + 32767 ^ 2 * (2 * 131072 ^ n) := by gcongr
        _ ≤ 2 * 131072 ^ (n + 2) := by
            have : (0 : ℝ) < 131072 ^ n := by positivity
            rw [show (131072 : ℝ) ^ (n + 2) = 131072 ^ n * 17179869184 by rw [pow_add]; norm_num,
              show (131072 : ℝ) ^ (n + 1) = 131072 ^ n * 131072 by rw [pow_add]; norm_num]
            norm_num
            linarith

theorem cheb_lipschitz {y z : ℝ} (hy : |y| ≤ 65535) (hz : |z| ≤ 65535) (n : ℕ) :
    |cheb y n - cheb z n| ≤ 262144 ^ n * |y - z| := by
  induction n using Nat.strong_induction_on with
  | _ n ih =>
    match n with
    | 0 => simp [cheb]
    | 1 => simp only [cheb]; nlinarith [abs_nonneg (y - z)]
    | n + 2 =>
      simp only [cheb]
      have h1 := ih (n + 1) (by omega)
      have h0 := ih n (by omega)
      have hb := cheb_bound hy (n + 1)
      have e : y * cheb y (n + 1) - 32767 ^ 2 * cheb y n - (z * cheb z (n + 1) - 32767 ^ 2 * cheb z n)
          = (y - z) * cheb y (n + 1) + z * (cheb y (n + 1) - cheb z (n + 1)) - 32767 ^ 2 * (cheb y n - cheb z n) := by
        ring
      rw [e]
      calc _ ≤ |(y - z) * cheb y (n + 1)| + |z * (cheb y (n + 1) - cheb z (n + 1))|
              + |32767 ^ 2 * (cheb y n - cheb z n)| := (abs_sub _ _).trans (by gcongr; exact abs_add_le _ _)
        _ = |y - z| * |cheb y (n + 1)| + |z| * |cheb y (n + 1) - cheb z (n + 1)|
              + 32767 ^ 2 * |cheb y n - cheb z n| := by
            rw [abs_mul, abs_mul, abs_mul, abs_of_pos (by norm_num : (0 : ℝ) < 32767 ^ 2)]
        _ ≤ |y - z| * (2 * 131072 ^ (n + 1)) + 65535 * (262144 ^ (n + 1) * |y - z|)
              + 32767 ^ 2 * (262144 ^ n * |y - z|) := by gcongr
        _ ≤ 262144 ^ (n + 2) * |y - z| := by
            have hm : (2 : ℝ) * 131072 ^ (n + 1) ≤ 262144 ^ (n + 1) := by
              rw [show (262144 : ℝ) = 2 * 131072 by norm_num, mul_pow]
              gcongr
              exact le_self_pow₀ (by norm_num) (by omega)
            have hd := abs_nonneg (y - z)
            have hp : (0 : ℝ) < 262144 ^ n := by positivity
            have h2 := mul_le_mul_of_nonneg_left hm hd
            rw [show (262144 : ℝ) ^ (n + 2) = 262144 ^ n * 68719476736 by rw [pow_add]; norm_num]
            rw [show (262144 : ℝ) ^ (n + 1) = 262144 ^ n * 262144 by rw [pow_add]; norm_num] at h2 ⊢
            have hw := mul_nonneg hp.le hd
            norm_num at h2 ⊢
            generalize (262144 : ℝ) ^ n = a at *
            generalize (131072 : ℝ) ^ (n + 1) = b at *
            generalize |y - z| = e at *
            have e1 : a * 68719476736 * e = 68719476736 * (a * e) := by ring
            have e2 : 65535 * (a * 262144 * e) = 17179607040 * (a * e) := by ring
            have e3 : e * (a * 262144) = 262144 * (a * e) := by ring
            rw [e1, e2]
            rw [e3] at h2
            linarith

theorem cheb_mod (c : ℤ) (n : ℕ) : cheb c (n + 1) ≡ c ^ (n + 1) [ZMOD 32767] := by
  induction n with
  | zero => simp [cheb]
  | succ n ih =>
    have e : cheb c (n + 1 + 1) = c * cheb c (n + 1) + 32767 * (-(32767 * cheb c n)) := by
      simp only [cheb]; ring
    rw [e, pow_succ', ← add_zero (c * c ^ (n + 1))]
    exact (ih.mul_left c).add (Int.modEq_zero_iff_dvd.2 (dvd_mul_right _ _))

theorem dvd_of_cheb {c : ℤ} {q : ℕ} (hq : 0 < q) (h : cheb c q = 2 * 32767 ^ q) : (32767 : ℤ) ∣ c := by
  obtain ⟨n, rfl⟩ : ∃ n, q = n + 1 := ⟨q - 1, by omega⟩
  have hm := cheb_mod c n
  rw [h] at hm
  have hd : (32767 : ℤ) ∣ c ^ (n + 1) := by
    exact (Int.ModEq.dvd_iff hm).1 (Dvd.dvd.mul_left (dvd_pow_self _ (by omega)) _)
  have p7 : (7 : ℤ) ∣ c := Int.Prime.dvd_pow' (by norm_num) (dvd_trans (by norm_num) hd)
  have p31 : (31 : ℤ) ∣ c := Int.Prime.dvd_pow' (by norm_num) (dvd_trans (by norm_num) hd)
  have p151 : (151 : ℤ) ∣ c := Int.Prime.dvd_pow' (by norm_num) (dvd_trans (by norm_num) hd)
  omega

/-- The gap between `2 A cos t`, `t` a rational multiple of a turn, and an odd integer other than `A` and `-A`. -/
theorem cos_gap {t : ℝ} {q : ℕ} (hq : 0 < q) (ht : cos (q * t) = 1) {c : ℤ} (hodd : Odd c) (hc : |c| ≤ 65535)
    (hA : c ≠ 32767) (hA' : c ≠ -32767) : 1 / (262144 : ℝ) ^ q ≤ |(c : ℝ) - 2 * 32767 * cos t| := by
  have hne : cheb c q - 2 * 32767 ^ q ≠ 0 := by
    intro h
    obtain ⟨k, hk⟩ := dvd_of_cheb hq (sub_eq_zero.1 h)
    clear h ht hq
    obtain ⟨m, hm⟩ := hodd
    obtain ⟨h1, h2⟩ := abs_le.1 hc
    have hk1 : -2 ≤ k := by linarith
    have hk2 : k ≤ 2 := by linarith
    interval_cases k <;> omega
  have hone : (1 : ℝ) ≤ |cheb (c : ℝ) q - 2 * 32767 ^ q| := by
    have hcast : ((cheb c q - 2 * 32767 ^ q : ℤ) : ℝ) = cheb (c : ℝ) q - 2 * 32767 ^ q := by
      rw [Int.cast_sub, cheb_cast, Int.cast_mul, Int.cast_pow]; norm_num
    rw [← hcast, ← Int.cast_abs]
    exact_mod_cast Int.one_le_abs hne
  have hcos : cheb (2 * 32767 * cos t) q = 2 * 32767 ^ q := by rw [cheb_cos, ht, mul_one]
  rw [← hcos] at hone
  have hl := cheb_lipschitz (y := (c : ℝ)) (z := 2 * 32767 * cos t) (by exact_mod_cast hc)
    (by
      rw [abs_mul, abs_of_pos (by norm_num : (0 : ℝ) < 2 * 32767)]
      nlinarith [abs_cos_le_one t]) q
  rw [div_le_iff₀ (by positivity)]
  linarith [hone.trans hl, mul_comm ((262144 : ℝ) ^ q) |(c : ℝ) - 2 * 32767 * cos t|]

theorem roundAway_cast (q : ℚ) : roundAway q = roundHalfAway (q : ℝ) := by
  unfold roundAway roundHalfAway
  have h0 : (0 ≤ q) ↔ (0 : ℝ) ≤ (q : ℝ) := by norm_cast
  have hf : ∀ r : ℚ, r.floor = ⌊(r : ℝ)⌋ := fun r => by
    rw [Rat.floor_cast]; rfl
  by_cases h : 0 ≤ q
  · rw [if_pos h, if_pos (h0.1 h), hf]; push_cast; rfl
  · rw [if_neg h, if_neg (fun e => h (h0.2 e)), hf]; push_cast; rfl

theorem factorial_dominates (m : ℕ) : (131068 : ℝ) * 10.24 ^ (16 + m) * 4 ^ (16 + m) ≤ (2 * (16 + m)).factorial := by
  induction m with
  | zero => norm_num [Nat.factorial]
  | succ m ih =>
    have e : ((2 * (16 + (m + 1))).factorial : ℝ) = (2 * (16 + m) + 2) * (2 * (16 + m) + 1) * (2 * (16 + m)).factorial := by
      rw [show 2 * (16 + (m + 1)) = (2 * (16 + m) + 1) + 1 by ring, Nat.factorial_succ, Nat.factorial_succ]
      push_cast; ring
    rw [e, show 16 + (m + 1) = (16 + m) + 1 by ring, pow_succ, pow_succ]
    have hm : (0 : ℝ) ≤ m := Nat.cast_nonneg m
    have hk : (40.96 : ℝ) ≤ (2 * (16 + m) + 2) * (2 * (16 + m) + 1) := by nlinarith
    have hf : (0 : ℝ) ≤ (2 * (16 + m)).factorial := by positivity
    calc (131068 : ℝ) * (10.24 ^ (16 + m) * 10.24) * (4 ^ (16 + m) * 4)
        = 40.96 * (131068 * 10.24 ^ (16 + m) * 4 ^ (16 + m)) := by ring
      _ ≤ 40.96 * (2 * (16 + m)).factorial := by gcongr
      _ ≤ _ := by gcongr

theorem pi_power (n : ℕ) (hn : 16 ≤ n) : (262136 : ℝ) * 4 ^ n ≤ 25 ^ n := by
  obtain ⟨m, rfl⟩ := Nat.exists_eq_add_of_le hn
  rw [pow_add, pow_add]
  have h : (4 : ℝ) ^ m ≤ 25 ^ m := by gcongr; norm_num
  have h4 : (0 : ℝ) < 4 ^ m := by positivity
  calc (262136 : ℝ) * (4 ^ 16 * 4 ^ m) ≤ 25 ^ 16 * 4 ^ m := by nlinarith
    _ ≤ 25 ^ 16 * 25 ^ m := by gcongr

theorem scaledSine_error (u : ℚ) (hu : |(u : ℝ)| ≤ 1 / 2) (n : ℕ) (hn : 16 ≤ n) :
    |(scaledSine u n : ℝ) - 32767 * sin (2 * π * u)| ≤ 1 / 4 ^ n := by
  have hpi := piApprox_error n
  have h4 : (0 : ℝ) < 4 ^ n := by positivity
  have h25 : (0 : ℝ) < 25 ^ n := by positivity
  have hpp := pi_power n hn
  set x : ℚ := 2 * piApprox n * u with hx
  have hxabs : |(x : ℝ)| ≤ 3.2 := by
    have h1 : (4 : ℝ) / 25 ^ n ≤ 0.01 := by
      rw [div_le_iff₀ h25]
      have : (1 : ℝ) ≤ 4 ^ n := one_le_pow₀ (by norm_num)
      nlinarith
    have h2 : |(piApprox n : ℝ)| ≤ 3.2 := by
      rw [abs_le] at hpi ⊢
      constructor <;> linarith [hpi.1, hpi.2, pi_gt_three, pi_lt_d2]
    rw [hx]; push_cast
    rw [abs_mul, abs_mul, abs_of_pos (by norm_num : (0 : ℝ) < 2)]
    have := mul_le_mul h2 hu (abs_nonneg _) (by norm_num)
    linarith
  have hsin : |sin (x : ℝ) - sin (2 * π * u)| ≤ 4 / 25 ^ n := by
    have h1 : |sin (x : ℝ) - sin (2 * π * u)| ≤ |(x : ℝ) - 2 * π * u| := by
      rw [sin_sub_sin, abs_mul, abs_mul, abs_of_pos (by norm_num : (0 : ℝ) < 2)]
      have ha := abs_cos_le_one (((x : ℝ) + 2 * π * u) / 2)
      have hb : |sin (((x : ℝ) - 2 * π * u) / 2)| ≤ |((x : ℝ) - 2 * π * u) / 2| := abs_sin_le_abs
      rw [abs_div, abs_of_pos (by norm_num : (0 : ℝ) < 2)] at hb
      calc 2 * |sin (((x : ℝ) - 2 * π * u) / 2)| * |cos (((x : ℝ) + 2 * π * u) / 2)|
          ≤ 2 * (|(x : ℝ) - 2 * π * u| / 2) * 1 := by gcongr
        _ = _ := by ring
    have h2 : (x : ℝ) - 2 * π * u = 2 * u * ((piApprox n : ℝ) - π) := by rw [hx]; push_cast; ring
    rw [h2, abs_mul, abs_mul, abs_of_pos (by norm_num : (0 : ℝ) < 2)] at h1
    refine h1.trans ?_
    have := mul_le_mul hu hpi (abs_nonneg _) (by norm_num)
    linarith
  have htay := sineApprox_error x n (by
    rw [div_le_iff₀ (by positivity)]
    have : (16 : ℝ) ≤ n := by exact_mod_cast hn
    linarith)
  have hfac : 2 * |(x : ℝ)| ^ (2 * n) / (2 * n).factorial ≤ 2 / 131068 / 4 ^ n := by
    obtain ⟨m, rfl⟩ := Nat.exists_eq_add_of_le hn
    have hd := factorial_dominates m
    have hp : |(x : ℝ)| ^ (2 * (16 + m)) ≤ 10.24 ^ (16 + m) := by
      rw [pow_mul]
      have : |(x : ℝ)| ^ 2 ≤ 10.24 := by nlinarith [abs_nonneg (x : ℝ)]
      gcongr
    rw [div_div, div_le_div_iff₀ (by positivity) (by positivity)]
    calc 2 * |(x : ℝ)| ^ (2 * (16 + m)) * (131068 * 4 ^ (16 + m))
        ≤ 2 * 10.24 ^ (16 + m) * (131068 * 4 ^ (16 + m)) := by gcongr
      _ = 2 * (131068 * 10.24 ^ (16 + m) * 4 ^ (16 + m)) := by ring
      _ ≤ _ := by gcongr
  have hsc : (scaledSine u n : ℝ) = 32767 * (sineApprox x n : ℝ) := by
    rw [scaledSine, ← hx, amplitude]; push_cast; ring
  rw [hsc]
  have e : (32767 : ℝ) * (sineApprox x n : ℝ) - 32767 * sin (2 * π * u)
      = 32767 * (((sineApprox x n : ℝ) - sin x) + (sin x - sin (2 * π * u))) := by ring
  rw [e, abs_mul, abs_of_pos (by norm_num : (0 : ℝ) < 32767)]
  have h1 := (abs_add_le ((sineApprox x n : ℝ) - sin x) (sin x - sin (2 * π * u))).trans (add_le_add (htay.trans hfac) hsin)
  have h2 : (4 : ℝ) / 25 ^ n ≤ 4 / 262136 / 4 ^ n := by
    rw [div_div, div_le_div_iff₀ h25 (by positivity)]; linarith
  have h3 : (2 : ℝ) / 131068 / 4 ^ n + 4 / 262136 / 4 ^ n = (1 / 32767) * (1 / 4 ^ n) := by
    field_simp; norm_num
  have h4' := h1.trans (add_le_add le_rfl h2)
  rw [h3] at h4'
  calc _ ≤ (32767 : ℝ) * ((1 / 32767) * (1 / 4 ^ n)) := by gcongr
    _ = 1 / 4 ^ n := by ring

/-- The distance of a sine of a rational turn from zero. -/
theorem abs_sin_pi_ge {r : ℝ} {d : ℝ} (hd : 0 < d) (h1 : d ≤ |r|) (h2 : |r| ≤ 1 - d) : 2 * d ≤ |sin (π * r)| := by
  have hs : |sin (π * r)| = sin (π * |r|) := by
    have hr1 : |r| ≤ 1 := by linarith
    rcases le_total 0 r with h | h
    · rw [abs_of_nonneg h] at *
      exact abs_of_nonneg (sin_nonneg_of_nonneg_of_le_pi (by positivity) (by nlinarith [pi_pos]))
    · rw [abs_of_nonpos h] at *
      rw [← abs_neg, ← sin_neg, ← mul_neg]
      exact abs_of_nonneg (sin_nonneg_of_nonneg_of_le_pi (mul_nonneg pi_pos.le (by linarith)) (by nlinarith [pi_pos]))
  rw [hs]
  have base : ∀ v : ℝ, d ≤ v → v ≤ 1 / 2 → 2 * d ≤ sin (π * v) := fun v hv1 hv2 => by
    have := mul_le_sin (x := π * v) (mul_nonneg pi_pos.le (by linarith)) (by nlinarith [pi_pos])
    have e : 2 / π * (π * v) = 2 * v := by field_simp
    rw [e] at this
    linarith
  rcases le_total |r| (1 / 2) with h | h
  · exact base _ h1 h
  · have := base (1 - |r|) (by linarith) (by linarith)
    rw [mul_sub, mul_one, sin_pi_sub] at this
    exact this

/-- A rational with denominator dividing `12 q` that is not an integer keeps its distance from 0 and 1. -/
theorem rat_distance {r : ℚ} {q : ℕ} (hq : 0 < q) (hint : ∃ z : ℤ, r * (12 * q) = z) (h0 : r ≠ 0) (h1 : |r| < 1) :
    (1 : ℝ) / (12 * q) ≤ |(r : ℝ)| ∧ |(r : ℝ)| ≤ 1 - 1 / (12 * q) := by
  obtain ⟨z, hz⟩ := hint
  have hqq : (0 : ℚ) < 12 * q := by positivity
  have hz0 : z ≠ 0 := fun e => by
    rw [e] at hz; push_cast at hz
    rcases mul_eq_zero.1 hz with h | h
    · exact h0 h
    · exact hqq.ne' h
  have habs : |r| * (12 * q) = (|z| : ℤ) := by
    rw [Int.cast_abs, ← hz, abs_mul, abs_of_pos hqq]
  have hz1 : (1 : ℤ) ≤ |z| := Int.one_le_abs hz0
  have hz2 : |z| < 12 * q := by
    have : ((|z| : ℤ) : ℚ) < 12 * q := by rw [← habs]; nlinarith
    exact_mod_cast this
  have a1 : (1 : ℚ) / (12 * q) ≤ |r| := by
    rw [div_le_iff₀ hqq, habs]; exact_mod_cast hz1
  have a2 : |r| ≤ 1 - 1 / (12 * q) := by
    have : |r| * (12 * q) + 1 ≤ 12 * q := by rw [habs]; exact_mod_cast (show |z| + 1 ≤ 12 * q by omega)
    rw [le_sub_iff_add_le, ← mul_le_mul_iff_left₀ hqq, add_mul, div_mul_cancel₀ _ hqq.ne', one_mul]
    exact this
  have c1 := (Rat.cast_le (K := ℝ)).2 a1
  have c2 := (Rat.cast_le (K := ℝ)).2 a2
  push_cast at c1 c2
  exact ⟨c1, c2⟩

theorem sin_sub_half_gap {u : ℚ} {q : ℕ} (hq : 0 < q) (hint : ∃ z : ℤ, u * q = z) (hlo : -(1 / 2) ≤ u) (hhi : u ≤ 1 / 2)
    (h1 : u ≠ 1 / 12) (h5 : u ≠ 5 / 12) : 1 / (18 * (q : ℝ) ^ 2) ≤ |sin (2 * π * u) - 1 / 2| := by
  obtain ⟨z, hz⟩ := hint
  have hqq : (0 : ℝ) < q := by exact_mod_cast hq
  obtain ⟨a1, a2⟩ := rat_distance (r := u - 1 / 12) hq ⟨12 * z - q, by push_cast; rw [← hz]; ring⟩
    (sub_ne_zero.2 h1) (by rw [abs_lt]; constructor <;> linarith)
  obtain ⟨b1, b2⟩ := rat_distance (r := 5 / 12 - u) hq ⟨5 * q - 12 * z, by push_cast; rw [← hz]; ring⟩
    (sub_ne_zero.2 (Ne.symm h5)) (by rw [abs_lt]; constructor <;> linarith)
  have hd : (0 : ℝ) < 1 / (12 * q) := by positivity
  have sa := abs_sin_pi_ge hd a1 a2
  have sb := abs_sin_pi_ge hd b1 b2
  have e : sin (2 * π * u) - 1 / 2 = 2 * sin (π * ((u - 1 / 12 : ℚ) : ℝ)) * sin (π * ((5 / 12 - u : ℚ) : ℝ)) := by
    rw [← sin_pi_div_six, sin_sub_sin]
    push_cast
    rw [show (2 * π * (u : ℝ) - π / 6) / 2 = π * ((u : ℝ) - 1 / 12) by ring,
      show π * (5 / 12 - (u : ℝ)) = π / 2 - (2 * π * (u : ℝ) + π / 6) / 2 by ring, sin_pi_div_two_sub]
  rw [e, abs_mul, abs_mul, abs_of_pos (by norm_num : (0 : ℝ) < 2)]
  calc 1 / (18 * (q : ℝ) ^ 2) = 2 * (2 * (1 / (12 * q))) * (2 * (1 / (12 * q))) := by field_simp; norm_num
    _ ≤ _ := by gcongr


/-- The four phases of R129 (d). -/
def isTie (u : ℚ) : Prop := u = 1 / 12 ∨ u = 5 / 12 ∨ u = -1 / 12 ∨ u = -5 / 12

/-- The distance of `32767 * sin (2 pi u)` from every half-integer, at a phase that is no tie. -/
theorem half_gap {u : ℚ} {q : ℕ} (hq : 0 < q) (hint : ∃ z : ℤ, u * q = z) (hlo : -(1 / 2) ≤ u) (hhi : u ≤ 1 / 2)
    (ht : ¬ isTie u) {c : ℤ} (hodd : Odd c) (hc : |c| ≤ 65535) :
    1 / (2 * (262144 : ℝ) ^ (4 * q)) ≤ |32767 * sin (2 * π * u) - (c : ℝ) / 2| := by
  have hqq : (1 : ℝ) ≤ q := by exact_mod_cast hq
  have small : 1 / (2 * (262144 : ℝ) ^ (4 * q)) ≤ 32767 * (1 / (18 * (q : ℝ) ^ 2)) := by
    have h2 : (q : ℝ) ^ 2 ≤ (262144 : ℝ) ^ (4 * q) := by
      have : (q : ℝ) ≤ 262144 ^ q := by exact_mod_cast (Nat.lt_pow_self (by norm_num : 1 < 262144)).le
      calc (q : ℝ) ^ 2 ≤ ((262144 : ℝ) ^ q) ^ 2 := by gcongr
        _ = 262144 ^ (q * 2) := by rw [← pow_mul]
        _ ≤ 262144 ^ (4 * q) := pow_le_pow_right₀ (by norm_num) (by omega)
    have hp : (0 : ℝ) < (q : ℝ) ^ 2 := by positivity
    rw [mul_one_div, div_le_div_iff₀ (by positivity) (by positivity)]
    nlinarith
  unfold isTie at ht
  push Not at ht
  by_cases hA : c = 32767
  · subst hA
    have h := sin_sub_half_gap hq hint hlo hhi ht.1 ht.2.1
    have e : 32767 * sin (2 * π * u) - ((32767 : ℤ) : ℝ) / 2 = 32767 * (sin (2 * π * u) - 1 / 2) := by push_cast; ring
    rw [e, abs_mul, abs_of_pos (by norm_num : (0 : ℝ) < 32767)]
    exact small.trans (by gcongr)
  by_cases hA' : c = -32767
  · subst hA'
    obtain ⟨z, hz⟩ := hint
    have h := sin_sub_half_gap (u := -u) hq ⟨-z, by push_cast; rw [← hz]; ring⟩ (by linarith) (by linarith)
      (fun e => ht.2.2.1 (by linarith)) (fun e => ht.2.2.2 (by linarith))
    have e : 32767 * sin (2 * π * u) - ((-32767 : ℤ) : ℝ) / 2 = -(32767 * (sin (2 * π * ((-u : ℚ) : ℝ)) - 1 / 2)) := by
      push_cast; rw [mul_neg, sin_neg]; ring
    rw [e, abs_neg, abs_mul, abs_of_pos (by norm_num : (0 : ℝ) < 32767)]
    exact small.trans (by gcongr)
  · obtain ⟨z, hz⟩ := hint
    have hcos : cos (((4 * q : ℕ) : ℝ) * (2 * π * u - π / 2)) = 1 := by
      have hz' : (u : ℝ) * q = z := by exact_mod_cast congrArg (Rat.cast (K := ℝ)) hz
      have e : ((4 * q : ℕ) : ℝ) * (2 * π * u - π / 2) = ((4 * z - q : ℤ) : ℝ) * (2 * π) := by
        push_cast; rw [← hz']; ring
      rw [e, cos_int_mul_two_pi]
    have h := cos_gap (t := 2 * π * u - π / 2) (q := 4 * q) (by omega) hcos hodd hc hA hA'
    rw [cos_sub_pi_div_two] at h
    have e : 32767 * sin (2 * π * u) - (c : ℝ) / 2 = -(((c : ℝ) - 2 * 32767 * sin (2 * π * u)) / 2) := by ring
    rw [e, abs_neg, abs_div, abs_of_pos (by norm_num : (0 : ℝ) < 2)]
    calc 1 / (2 * (262144 : ℝ) ^ (4 * q)) = 1 / 262144 ^ (4 * q) / 2 := by field_simp
      _ ≤ _ := by gcongr

/-- What one precision decides is right. -/
theorem decided_at (u : ℚ) (hu : |(u : ℝ)| ≤ 1 / 2) (n : ℕ) (hn : 16 ≤ n)
    (h : roundAway (scaledSine u n - 1 / 4 ^ n) = roundAway (scaledSine u n + 1 / 4 ^ n)) :
    roundAway (scaledSine u n) = roundHalfAway (32767 * sin (2 * π * u)) := by
  have he := abs_le.1 (scaledSine_error u hu n hn)
  have h4 : (0 : ℝ) < 1 / 4 ^ n := by positivity
  rw [roundAway_cast, roundAway_cast] at h
  push_cast at h
  rw [roundAway_cast]
  have a := roundHalfAway_mono (y := (scaledSine u n : ℝ) - 1 / 4 ^ n) (z := scaledSine u n) (by linarith)
  have b := roundHalfAway_mono (y := (scaledSine u n : ℝ)) (z := scaledSine u n + 1 / 4 ^ n) (by linarith)
  have c := roundHalfAway_mono (y := (scaledSine u n : ℝ) - 1 / 4 ^ n) (z := 32767 * sin (2 * π * u)) (by linarith [he.2])
  have d := roundHalfAway_mono (y := 32767 * sin (2 * π * u)) (z := scaledSine u n + 1 / 4 ^ n) (by linarith [he.1])
  omega

/-- A precision of 64 terms per unit of the denominator decides every phase that is no tie. -/
theorem decides (u : ℚ) {q : ℕ} (hq : 0 < q) (hint : ∃ z : ℤ, u * q = z) (hlo : -(1 / 2) ≤ u) (hhi : u ≤ 1 / 2)
    (ht : ¬ isTie u) (n : ℕ) (hn : 64 * q ≤ n) :
    roundAway (scaledSine u n - 1 / 4 ^ n) = roundAway (scaledSine u n + 1 / 4 ^ n) := by
  by_contra hne
  have hu : |(u : ℝ)| ≤ 1 / 2 := by
    rw [abs_le]
    have h1 := (Rat.cast_le (K := ℝ)).2 hlo
    have h2 := (Rat.cast_le (K := ℝ)).2 hhi
    push_cast at h1 h2
    exact ⟨h1, h2⟩
  have he := abs_le.1 (scaledSine_error u hu n (by omega))
  have h4 : (0 : ℝ) < 1 / 4 ^ n := by positivity
  have h41 : (1 : ℝ) / 4 ^ n ≤ 1 / 16 := by
    apply one_div_le_one_div_of_le (by norm_num)
    calc (16 : ℝ) = 4 ^ 2 := by norm_num
      _ ≤ 4 ^ n := pow_le_pow_right₀ (by norm_num) (by omega)
  rw [roundAway_cast, roundAway_cast] at hne
  push_cast at hne
  obtain ⟨c, hodd, hc1, hc2⟩ := half_between (by linarith) hne
  have hs := abs_le.1 (abs_sin_le_one (2 * π * u))
  have hcabs : |c| ≤ 65535 := by
    rw [abs_le]
    have l : (c : ℝ) < 65536 := by linarith [hs.2, he.2]
    have m : (-65536 : ℝ) < c := by linarith [hs.1, he.1]
    have l' : c < 65536 := by exact_mod_cast l
    have m' : -65536 < c := by exact_mod_cast m
    constructor <;> omega
  have hg := half_gap hq hint hlo hhi ht hodd hcabs
  have hup : |32767 * sin (2 * π * u) - (c : ℝ) / 2| ≤ 2 * (1 / 4 ^ n) := by
    rw [abs_le]; constructor <;> linarith [he.1, he.2]
  have hbig : 2 * (1 / (4 : ℝ) ^ n) < 1 / (2 * (262144 : ℝ) ^ (4 * q)) := by
    rw [mul_one_div, div_lt_div_iff₀ (by positivity) (by positivity)]
    have e1 : (262144 : ℝ) ^ (4 * q) = 4 ^ (36 * q) := by
      rw [show (262144 : ℝ) = 4 ^ 9 by norm_num, ← pow_mul]; congr 1; ring
    have e2 : (4 : ℝ) ^ (36 * q + 2) ≤ 4 ^ n := pow_le_pow_right₀ (by norm_num) (by omega)
    rw [pow_add] at e2
    rw [e1]
    have : (0 : ℝ) < 4 ^ (36 * q) := by positivity
    linarith
  linarith

/-- The search for a deciding precision ends at the rounded sine. -/
theorem roundedSine_eq (u : ℚ) {q : ℕ} (hq : 0 < q) (hint : ∃ z : ℤ, u * q = z) (hlo : -(1 / 2) ≤ u) (hhi : u ≤ 1 / 2)
    (ht : ¬ isTie u) (fuel n : ℕ) (hn : 16 ≤ n) (hf : 64 * q ≤ n * 2 ^ fuel) :
    roundedSine u (fuel + 1) n = roundHalfAway (32767 * sin (2 * π * u)) := by
  have hu : |(u : ℝ)| ≤ 1 / 2 := by
    rw [abs_le]
    have h1 := (Rat.cast_le (K := ℝ)).2 hlo
    have h2 := (Rat.cast_le (K := ℝ)).2 hhi
    push_cast at h1 h2
    exact ⟨h1, h2⟩
  induction fuel generalizing n with
  | zero =>
    have hd := decides u hq hint hlo hhi ht n (by simpa using hf)
    simp only [roundedSine, if_pos hd]
    exact decided_at u hu n hn hd
  | succ fuel ih =>
    rw [roundedSine]
    split_ifs with hd
    · exact decided_at u hu n hn hd
    · exact ih (2 * n) (by omega) (by rw [pow_succ] at hf; linarith)

theorem frac_nonneg (t : ℚ) : 0 ≤ frac t := by
  unfold frac; linarith [Rat.floor_le t]

theorem frac_lt_one (t : ℚ) : frac t < 1 := by
  have h := Rat.lt_floor_add_one t
  push_cast at h
  unfold frac; linarith

theorem roundHalfAway_of_eq {y : ℝ} {z : ℤ} (h1 : (z : ℝ) - 1 / 2 ≤ y) (h2 : y < z + 1 / 2) (hz : 0 ≤ y) :
    roundHalfAway y = z := by
  rw [roundHalfAway, if_pos hz, Int.floor_eq_iff]; constructor <;> linarith

theorem sin_turn (t : ℚ) : sin (2 * π * t) = sin (2 * π * (principalTurn t : ℚ)) := by
  have e : 2 * π * (t : ℝ) = 2 * π * ((principalTurn t : ℚ) : ℝ) + ((t + 1 / 2).floor : ℤ) * (2 * π) := by
    unfold principalTurn frac; push_cast; ring
  rw [e, sin_add_int_mul_two_pi]

theorem sin_five_pi_div_six : sin (5 * π / 6) = 1 / 2 := by
  rw [show 5 * π / 6 = π - π / 6 by ring, sin_pi_sub, sin_pi_div_six]

/-- `idealSample` is the rounded sine of R118. -/
theorem idealSample_eq (t : ℚ) : idealSample t = roundHalfAway (32767 * sin (2 * π * t)) := by
  have hlo : -(1 / 2) ≤ principalTurn t := by unfold principalTurn; linarith [frac_nonneg (t + 1 / 2)]
  have hhi : principalTurn t ≤ 1 / 2 := by unfold principalTurn; linarith [frac_lt_one (t + 1 / 2)]
  rw [sin_turn]
  have tie : roundHalfAway (32767 * (1 / 2)) = 16384 := by
    apply roundHalfAway_of_eq <;> norm_num
  unfold idealSample
  dsimp only
  split_ifs with h1 h2
  · rcases h1 with h | h <;> rw [h] <;> push_cast
    · rw [show 2 * π * (1 / 12) = π / 6 by ring, sin_pi_div_six, tie]
    · rw [show 2 * π * (5 / 12) = 5 * π / 6 by ring, sin_five_pi_div_six, tie]
  · rcases h2 with h | h <;> rw [h] <;> push_cast
    · rw [show 2 * π * (-1 / 12) = -(π / 6) by ring, sin_neg, sin_pi_div_six, mul_neg, roundHalfAway_neg, tie]
    · rw [show 2 * π * (-5 / 12) = -(5 * π / 6) by ring, sin_neg, sin_five_pi_div_six, mul_neg, roundHalfAway_neg, tie]
  · have ht : ¬ isTie (principalTurn t) := by
      unfold isTie; push Not at h1 h2 ⊢
      exact ⟨h1.1, h1.2, h2.1, h2.2⟩
    refine roundedSine_eq (principalTurn t) t.den_pos ?_ hlo hhi ht (Nat.log2 t.den + 3) 16 le_rfl ?_
    · refine ⟨t.num - (t + 1 / 2).floor * t.den, ?_⟩
      unfold principalTurn frac
      push_cast
      have := Rat.mul_den_eq_num t
      linarith
    · have h := Nat.lt_log2_self (n := t.den)
      rw [pow_succ] at h
      rw [pow_add]
      omega

/-- The scaled sine never leaves the 16-bit range, so the clamp changes no value (R118). -/
theorem dac_eq (t : ℚ) : dac t = roundHalfAway (32767 * sin (2 * π * t)) := by
  have hs := abs_le.1 (abs_sin_le_one (2 * π * t))
  have h1 : roundHalfAway (32767 * sin (2 * π * t)) ≤ 32767 := by
    have := roundHalfAway_mono (y := 32767 * sin (2 * π * t)) (z := 32767) (by linarith [hs.2])
    have e : roundHalfAway 32767 = 32767 := by apply roundHalfAway_of_eq <;> norm_num
    omega
  have h2 : -32767 ≤ roundHalfAway (32767 * sin (2 * π * t)) := by
    have := roundHalfAway_mono (y := -32767) (z := 32767 * sin (2 * π * t)) (by linarith [hs.1])
    have e : roundHalfAway (-32767) = -32767 := by
      rw [roundHalfAway_neg]; congr 1; apply roundHalfAway_of_eq <;> norm_num
    omega
  rw [dac, idealSample_eq, clamp16]
  omega

end Sys2Proof.Machine
end

