-- ==== Sys2Proof/Laws/Oscillator.lean ====
section
/-! SUPPORT. What the oscillator's operations can do, said once: the domain of a tone, the count and carry of R113 and R114 as
one floor and one fraction (R127), the sink, and EMIT when the sink accepts and when it fails. -/

namespace Sys2Proof.Machine

/-! ### Flow -/

@[simp] theorem Flow.state_on (s : State) : (Flow.on s).state = s := rfl
@[simp] theorem Flow.state_raised (s : State) : (Flow.raised s).state = s := rfl
@[simp] theorem Flow.andThen_on (s : State) (g : State → Flow) : (Flow.on s).andThen g = g s := rfl
@[simp] theorem Flow.andThen_raised (s : State) (g : State → Flow) : (Flow.raised s).andThen g = .raised s := rfl

theorem Flow.andThen_assoc (r : Flow) (g h : State → Flow) :
    (r.andThen g).andThen h = r.andThen fun s => (g s).andThen h := by
  cases r <;> rfl

/-! ### The domain of a tone (R79, R90) -/

theorem legal_iff (t : Tone) : t.legal = true ↔ 0 ≤ t.f ∧ 0 < t.d := by
  simp [Tone.legal, Rat.num_nonneg, Rat.num_pos]

/-! ### Count and carry (R113, R114, R127) -/

theorem frac_eq (q : ℚ) : frac q = Int.fract q := rfl

theorem frac_of_mem {q : ℚ} (h0 : 0 ≤ q) (h1 : q < 1) : frac q = q := by
  rw [frac_eq, Int.fract_eq_self]; exact ⟨h0, h1⟩

theorem targetCount_add (sr : BitVec 32) (a b : ℚ) : targetCount sr (a + b) = targetCount sr a + targetCount sr b := by
  unfold targetCount; ring

theorem targetCount_nonneg (sr : BitVec 32) {d : ℚ} (hd : 0 ≤ d) : 0 ≤ targetCount sr d := by
  unfold targetCount; positivity

/-- The nominal count is the integer part of the target, and the rest of it lies in [0, 1) (R115 (a)). -/
theorem nominalCount_bounds (sr : BitVec 32) {d : ℚ} (hd : 0 ≤ d) :
    (nominalCount sr d : ℚ) ≤ targetCount sr d ∧ targetCount sr d < nominalCount sr d + 1 := by
  have h0 := targetCount_nonneg sr hd
  have hf : 0 ≤ (targetCount sr d).floor := Int.floor_nonneg.2 h0
  have e : (nominalCount sr d : ℚ) = ((targetCount sr d).floor : ℚ) := by
    unfold nominalCount
    exact_mod_cast congrArg (Int.cast (R := ℚ)) (Int.toNat_of_nonneg hf)
  rw [e]
  exact ⟨Int.floor_le _, Int.lt_floor_add_one _⟩

/-- `k` is 0 or 1 (R115 (a)). -/
theorem carriedSamples_cases (sr : BitVec 32) {d c : ℚ} (hd : 0 ≤ d) (h0 : 0 ≤ c) (h1 : c < 1) :
    (carrySum sr d c < 1 ∧ carriedSamples sr d c = 0) ∨
      (1 ≤ carrySum sr d c ∧ carrySum sr d c < 2 ∧ carriedSamples sr d c = 1) := by
  obtain ⟨ha, hb⟩ := nominalCount_bounds sr hd
  have hlo : 0 ≤ carrySum sr d c := by unfold carrySum; linarith
  have hhi : carrySum sr d c < 2 := by unfold carrySum; linarith
  unfold carriedSamples
  by_cases h : 1 ≤ carrySum sr d c
  · refine .inr ⟨h, hhi, ?_⟩
    rw [if_pos h]
    have : ⌊carrySum sr d c⌋ = 1 := Int.floor_eq_iff.2 ⟨by exact_mod_cast h, by push_cast; linarith⟩
    change ⌊carrySum sr d c⌋.toNat = 1
    rw [this]; rfl
  · exact .inl ⟨not_le.1 h, if_neg h⟩

/-- The count and the carry together are what was due (R114). -/
theorem segment_total (sr : BitVec 32) (d c : ℚ) :
    (segmentCount sr d c : ℚ) + segmentCarry sr d c = c + targetCount sr d := by
  unfold segmentCount segmentCarry carrySum; push_cast; ring

/-- The carry stays in [0, 1) (R115 (a)). -/
theorem segmentCarry_bounds (sr : BitVec 32) {d c : ℚ} (hd : 0 ≤ d) (h0 : 0 ≤ c) (h1 : c < 1) :
    0 ≤ segmentCarry sr d c ∧ segmentCarry sr d c < 1 := by
  obtain ⟨ha, hb⟩ := nominalCount_bounds sr hd
  have hlo : 0 ≤ carrySum sr d c := by unfold carrySum; linarith
  unfold segmentCarry
  rcases carriedSamples_cases sr hd h0 h1 with ⟨h, e⟩ | ⟨h, h', e⟩ <;> rw [e] <;> constructor <;> push_cast <;> linarith

/-- The count is the integer part of what was due (R127). -/
theorem segmentCount_eq (sr : BitVec 32) {d c : ℚ} (hd : 0 ≤ d) (h0 : 0 ≤ c) (h1 : c < 1) :
    segmentCount sr d c = (c + targetCount sr d).floor.toNat := by
  obtain ⟨hb0, hb1⟩ := segmentCarry_bounds sr hd h0 h1
  have ht := segment_total sr d c
  have : ⌊c + targetCount sr d⌋ = (segmentCount sr d c : ℤ) := by
    refine Int.floor_eq_iff.2 ⟨?_, ?_⟩ <;> push_cast <;> linarith
  change _ = ⌊c + targetCount sr d⌋.toNat
  rw [this]; rfl

/-- The carry is the fraction of what was due (R127). -/
theorem segmentCarry_eq (sr : BitVec 32) {d c : ℚ} (hd : 0 ≤ d) (h0 : 0 ≤ c) (h1 : c < 1) :
    segmentCarry sr d c = frac (c + targetCount sr d) := by
  obtain ⟨hb0, hb1⟩ := segmentCarry_bounds sr hd h0 h1
  have ht := segment_total sr d c
  have : ⌊c + targetCount sr d⌋ = (segmentCount sr d c : ℤ) := by
    refine Int.floor_eq_iff.2 ⟨?_, ?_⟩ <;> push_cast <;> linarith
  change _ = c + targetCount sr d - (⌊c + targetCount sr d⌋ : ℚ)
  rw [this]; push_cast; linarith

/-! ### The sink (R66) -/

@[simp] theorem Sink.answerTo_zero (k : Sink) : k.answerTo 0 = k.answer := by
  cases h : k.answers <;> simp [Sink.answerTo, Sink.answer, h]

@[simp] theorem Sink.answerTo_accept (k : Sink) (v : Sample) (i : Nat) : (k.accept v).answerTo i = k.answerTo (i + 1) := by
  cases h : k.answers <;> simp [Sink.answerTo, Sink.accept, h]

theorem Sink.accepts_mono {k : Sink} {m n : Nat} (h : k.accepts n) (hmn : m ≤ n) : k.accepts m :=
  fun i hi => h i (lt_of_lt_of_le hi hmn)

theorem Sink.answer_of_accepts {k : Sink} {n : Nat} (h : k.accepts (n + 1)) : k.answer = true := by
  rw [← Sink.answerTo_zero]; exact h 0 (Nat.succ_pos n)

theorem Sink.accepts_accept {k : Sink} {n : Nat} (v : Sample) (h : k.accepts (n + 1)) : (k.accept v).accepts n :=
  fun i hi => by rw [Sink.answerTo_accept]; exact h (i + 1) (Nat.succ_lt_succ hi)

@[simp] theorem Sink.acceptList_nil (k : Sink) : k.acceptList [] = k := rfl

theorem Sink.acceptList_cons (k : Sink) (v : Sample) (vs : List Sample) :
    k.acceptList (v :: vs) = (k.accept v).acceptList vs := by
  simp [Sink.acceptList, Sink.accept, List.drop_tail]

theorem Sink.acceptList_append (k : Sink) (us vs : List Sample) :
    k.acceptList (us ++ vs) = (k.acceptList us).acceptList vs := by
  simp [Sink.acceptList, List.drop_drop]

theorem Sink.answerTo_acceptList (k : Sink) (vs : List Sample) (i : Nat) :
    (k.acceptList vs).answerTo i = k.answerTo (vs.length + i) := by
  induction vs generalizing k with
  | nil => simp
  | cons v vs ih => rw [Sink.acceptList_cons, ih, Sink.answerTo_accept]; congr 1; simp; omega

theorem Sink.accepts_acceptList {k : Sink} {n : Nat} (vs : List Sample) (h : k.accepts (vs.length + n)) :
    (k.acceptList vs).accepts n := fun i hi => by
  rw [Sink.answerTo_acceptList]; exact h _ (by omega)

@[simp] theorem Sink.acceptList_base (k : Sink) (vs : List Sample) : (k.acceptList vs).base = k.base := rfl

@[simp] theorem Sink.acceptList_accepted (k : Sink) (vs : List Sample) :
    (k.acceptList vs).accepted = k.accepted ++ vs := by
  simp [Sink.acceptList, Sink.accepted]

/-! ### Push (R124) -/

theorem pushSample_on {s : State} (v : Sample) (h : s.sink.answer = true) :
    pushSample v s = .on { s with total := s.total + 1, sink := s.sink.accept v } := if_pos h

theorem pushSample_raised {s : State} (v : Sample) (h : s.sink.answer = false) :
    pushSample v s = .raised (faultEntry .sinkWriteFailure { s with sink := s.sink.refuse }) := by
  simp [pushSample, h]

theorem pushAll_on {s : State} (vs : List Sample) (h : s.sink.accepts vs.length) :
    pushAll vs s = .on { s with total := s.total + vs.length, sink := s.sink.acceptList vs } := by
  induction vs generalizing s with
  | nil => rfl
  | cons v vs ih =>
    rw [pushAll, pushSample_on v (Sink.answer_of_accepts h), Flow.andThen_on, ih (Sink.accepts_accept v h),
      Sink.acceptList_cons]
    simp only [List.length_cons]
    congr 2
    omega

/-- The sink fails at sample `j`: the samples before it are accepted and the fault is entered (R124, R254, R258). -/
theorem pushAll_raised {s : State} (vs : List Sample) {j : Nat} (hj : j < vs.length) (h : s.sink.accepts j)
    (hf : s.sink.answerTo j = false) :
    pushAll vs s = .raised (faultEntry .sinkWriteFailure
      { s with total := s.total + j, sink := (s.sink.acceptList (vs.take j)).refuse }) := by
  induction vs generalizing s j with
  | nil => simp at hj
  | cons v vs ih =>
    cases j with
    | zero => rw [pushAll, pushSample_raised v (by rw [← Sink.answerTo_zero]; exact hf)]; rfl
    | succ j =>
      rw [pushAll, pushSample_on v (Sink.answer_of_accepts h), Flow.andThen_on,
        ih (by simpa using hj) (Sink.accepts_accept v h) (by rw [Sink.answerTo_accept]; exact hf),
        List.take_succ_cons, Sink.acceptList_cons]
      have e : s.total + 1 + j = s.total + (j + 1) := by omega
      simp only [e]

/-- Either the sink accepts the next `n` samples or there is a first one it refuses. -/
theorem Sink.accepts_or_fails (k : Sink) (n : Nat) :
    k.accepts n ∨ ∃ j, j < n ∧ k.accepts j ∧ k.answerTo j = false := by
  induction n with
  | zero => exact .inl fun i hi => absurd hi (Nat.not_lt_zero i)
  | succ n ih =>
    rcases ih with h | ⟨j, hj, h⟩
    · cases hn : k.answerTo n
      · exact .inr ⟨n, Nat.lt_succ_self n, h, hn⟩
      · refine .inl fun i hi => ?_
        rcases Nat.lt_succ_iff_lt_or_eq.1 hi with h' | rfl
        · exact h i h'
        · exact hn
    · exact .inr ⟨j, by omega, h⟩

/-! ### EMIT (R112) -/

@[simp] theorem toneSamples_length (sr : BitVec 32) (f p : ℚ) (n : Nat) : (toneSamples sr f p n).length = n := by
  simp [toneSamples]

theorem toneSamples_getElem (sr : BitVec 32) (f p : ℚ) (n i : Nat) (h : i < (toneSamples sr f p n).length) :
    (toneSamples sr f p n)[i] = sampleWord (phaseAt sr f p i) := by
  simp [toneSamples]

/-- The state an EMIT ends in when the sink accepts its samples. -/
def emitted (t : Tone) (s : State) : State :=
  let n := segmentCount s.latched.sr t.d s.osc.carry
  { s with
    osc := ⟨frac (phaseAt s.latched.sr t.f s.osc.ph (reseedIndex s.params.oscEnd n)),
      segmentCarry s.latched.sr t.d s.osc.carry⟩
    total := s.total + n
    sink := s.sink.acceptList (toneSamples s.latched.sr t.f s.osc.ph n)
    result := (n : ℚ) }

theorem emitTone_on (t : Tone) {s : State} (h : s.sink.accepts (segmentCount s.latched.sr t.d s.osc.carry)) :
    emitTone t s = .on (emitted t s) := by
  simp only [emitTone]
  rw [pushAll_on (s := writeCarry t s) _ (by rw [toneSamples_length]; exact h)]
  simp [emitted, endTone, writeCarry]

/-- The state an EMIT ends in when the sink fails at its sample `j`: the carry has been written, the phase has not. -/
def emitFailed (t : Tone) (j : Nat) (s : State) : State :=
  let n := segmentCount s.latched.sr t.d s.osc.carry
  faultEntry .sinkWriteFailure
    { writeCarry t s with
      total := s.total + j
      sink := (s.sink.acceptList ((toneSamples s.latched.sr t.f s.osc.ph n).take j)).refuse }

theorem emitTone_raised (t : Tone) {s : State} {j : Nat} (hj : j < segmentCount s.latched.sr t.d s.osc.carry)
    (h : s.sink.accepts j) (hf : s.sink.answerTo j = false) : emitTone t s = .raised (emitFailed t j s) := by
  simp only [emitTone]
  rw [pushAll_raised (s := writeCarry t s) _ (by rw [toneSamples_length]; exact hj) h hf]
  rfl

/-- The two ways an EMIT can end. -/
theorem emitTone_cases (t : Tone) (s : State) :
    (s.sink.accepts (segmentCount s.latched.sr t.d s.osc.carry) ∧ emitTone t s = .on (emitted t s)) ∨
      ∃ j, j < segmentCount s.latched.sr t.d s.osc.carry ∧ s.sink.accepts j ∧ s.sink.answerTo j = false ∧
        emitTone t s = .raised (emitFailed t j s) := by
  rcases s.sink.accepts_or_fails (segmentCount s.latched.sr t.d s.osc.carry) with h | ⟨j, hj, h, hf⟩
  · exact .inl ⟨h, emitTone_on t h⟩
  · exact .inr ⟨j, hj, h, hf, emitTone_raised t hj h hf⟩

/-! ### The phase (R116, R126) -/

theorem signOf_mul_arcsin (φ : ℝ) :
    Real.sin (theta0 (Real.sin φ) (Real.cos φ)) = Real.sin φ ∧ Real.cos (theta0 (Real.sin φ) (Real.cos φ)) = Real.cos φ := by
  have hc : Real.cos (Real.arcsin (Real.sin φ)) = |Real.cos φ| := by
    rw [Real.cos_arcsin, ← Real.abs_cos_eq_sqrt_one_sub_sin_sq]
  have hs := Real.sin_arcsin (Real.neg_one_le_sin φ) (Real.sin_le_one φ)
  unfold theta0 signOf
  split_ifs with h
  · rw [abs_of_nonneg h] at hc
    simp only [one_mul, sub_self, abs_zero, zero_div, zero_mul, add_zero]
    exact ⟨hs, hc⟩
  · rw [abs_of_neg (not_le.1 h)] at hc
    have e : (-1 : ℝ) * Real.arcsin (Real.sin φ) + |(-1 : ℝ) - 1| / 2 * Real.pi = Real.pi - Real.arcsin (Real.sin φ) := by
      norm_num; ring
    rw [e, Real.sin_pi_sub, Real.cos_pi_sub, hs, hc, neg_neg]
    exact ⟨rfl, rfl⟩

/-- The two forms of the phase argument agree (R126): `a_i` of R117 and the phase in turns have one sine and one cosine. -/
theorem argument_forms (sr : BitVec 32) (hsr : sr ≠ 0) (f : ℚ) (o : Osc) (i : ℕ) :
    Real.sin (argumentOf sr.toNat f o.la o.lc i) = Real.sin (2 * Real.pi * (phaseAt sr f o.ph i : ℚ)) ∧
      Real.cos (argumentOf sr.toNat f o.la o.lc i) = Real.cos (2 * Real.pi * (phaseAt sr f o.ph i : ℚ)) := by
  have hpos : (sr.toNat : ℝ) ≠ 0 := by
    exact_mod_cast fun h => hsr (BitVec.eq_of_toNat_eq (by simpa using h))
  have e1 : argumentOf sr.toNat f o.la o.lc i
      = 2 * Real.pi * ((f : ℝ) * i / sr.toNat) + theta0 o.la o.lc := by
    unfold argumentOf; field_simp
  have e2 : 2 * Real.pi * ((phaseAt sr f o.ph i : ℚ) : ℝ)
      = 2 * Real.pi * ((f : ℝ) * i / sr.toNat) + 2 * Real.pi * o.ph := by
    unfold phaseAt; push_cast; ring
  have h := signOf_mul_arcsin (2 * Real.pi * o.ph)
  change Real.sin (theta0 o.la o.lc) = o.la ∧ Real.cos (theta0 o.la o.lc) = o.lc at h
  rw [e1, e2, Real.sin_add, Real.sin_add, Real.cos_add, Real.cos_add, h.1, h.2]
  exact ⟨rfl, rfl⟩

/-- A phase and the same phase less its whole turns are one phase. -/
theorem turn_frac (t : ℚ) :
    Real.sin (2 * Real.pi * (frac t : ℚ)) = Real.sin (2 * Real.pi * t) ∧
      Real.cos (2 * Real.pi * (frac t : ℚ)) = Real.cos (2 * Real.pi * t) := by
  have e : 2 * Real.pi * ((frac t : ℚ) : ℝ) = 2 * Real.pi * (t : ℝ) - (t.floor : ℤ) * (2 * Real.pi) := by
    unfold frac; push_cast; ring
  rw [e, Real.sin_sub_int_mul_two_pi, Real.cos_sub_int_mul_two_pi]
  exact ⟨rfl, rfl⟩

theorem dac_frac (t : ℚ) : dac (frac t) = dac t := by
  rw [dac_eq, dac_eq, (turn_frac t).1]

end Sys2Proof.Machine
end

