-- ==== Sys2Proof/Laws/Program.lean ====
section
/-! SUPPORT. What a tone program can do, said once: it ends with every tone emitted, with the counts of R127, or in the fault
state with the tones before the failing sample emitted; and what neither end changes. -/

namespace Sys2Proof.Machine

/-! ### What EMIT leaves alone -/

@[simp] theorem emitted_latched (t : Tone) (s : State) : (emitted t s).latched = s.latched := rfl
@[simp] theorem emitted_status (t : Tone) (s : State) : (emitted t s).status = s.status := rfl
@[simp] theorem emitted_seq (t : Tone) (s : State) : (emitted t s).seq = s.seq := rfl
@[simp] theorem emitted_visOnes (t : Tone) (s : State) : (emitted t s).visOnes = s.visOnes := rfl
@[simp] theorem emitted_emitting (t : Tone) (s : State) : (emitted t s).emitting = s.emitting := rfl
@[simp] theorem emitted_pix (t : Tone) (s : State) : (emitted t s).pix = s.pix := rfl
@[simp] theorem emitted_pins (t : Tone) (s : State) : (emitted t s).pins = s.pins := rfl
@[simp] theorem emitted_inputs (t : Tone) (s : State) : (emitted t s).inputs = s.inputs := rfl
@[simp] theorem emitted_issue (t : Tone) (s : State) : (emitted t s).issue = s.issue := rfl
@[simp] theorem emitted_params (t : Tone) (s : State) : (emitted t s).params = s.params := rfl
@[simp] theorem emitted_carry (t : Tone) (s : State) :
    (emitted t s).osc.carry = segmentCarry s.latched.sr t.d s.osc.carry := rfl
@[simp] theorem emitted_total (t : Tone) (s : State) :
    (emitted t s).total = s.total + segmentCount s.latched.sr t.d s.osc.carry := rfl
@[simp] theorem emitted_sink (t : Tone) (s : State) : (emitted t s).sink = s.sink.acceptList
    (toneSamples s.latched.sr t.f s.osc.ph (segmentCount s.latched.sr t.d s.osc.carry)) := rfl

@[simp] theorem emitFailed_latched (t : Tone) (j : Nat) (s : State) : (emitFailed t j s).latched = s.latched := rfl
@[simp] theorem emitFailed_status (t : Tone) (j : Nat) (s : State) :
    (emitFailed t j s).status = Status.faulted .sinkWriteFailure := rfl
@[simp] theorem emitFailed_seq (t : Tone) (j : Nat) (s : State) :
    (emitFailed t j s).seq = { s.seq with stage := .fault } := rfl
@[simp] theorem emitFailed_visOnes (t : Tone) (j : Nat) (s : State) : (emitFailed t j s).visOnes = s.visOnes := rfl
@[simp] theorem emitFailed_emitting (t : Tone) (j : Nat) (s : State) : (emitFailed t j s).emitting = none := rfl
@[simp] theorem emitFailed_pix (t : Tone) (j : Nat) (s : State) : (emitFailed t j s).pix = s.pix := rfl
@[simp] theorem emitFailed_pins (t : Tone) (j : Nat) (s : State) : (emitFailed t j s).pins = s.pins := rfl
@[simp] theorem emitFailed_inputs (t : Tone) (j : Nat) (s : State) : (emitFailed t j s).inputs = s.inputs := rfl
@[simp] theorem emitFailed_issue (t : Tone) (j : Nat) (s : State) : (emitFailed t j s).issue = s.issue := rfl
@[simp] theorem emitFailed_params (t : Tone) (j : Nat) (s : State) : (emitFailed t j s).params = s.params := rfl
@[simp] theorem emitFailed_result (t : Tone) (j : Nat) (s : State) : (emitFailed t j s).result = s.result := rfl

/-! ### A program run through -/

/-- The state a tone program ends in when the sink accepts its samples. -/
def played (code : ModeCode) : List Entry → State → State
  | [], s => s
  | (p, t) :: rest, s => played code rest (leavePosition code p (emitted t (enterPosition p s)))

/-- What neither end of a tone program changes. -/
structure KeptByProgram (s t : State) : Prop extends SameEnvironment s t where
  latched : t.latched = s.latched
  issue : t.issue = s.issue

theorem KeptByProgram.refl (s : State) : KeptByProgram s s := ⟨⟨rfl, rfl, rfl, rfl⟩, rfl, rfl⟩

theorem KeptByProgram.trans {s t u : State} (h : KeptByProgram s t) (k : KeptByProgram t u) : KeptByProgram s u :=
  ⟨⟨k.pix.trans h.pix, k.params.trans h.params, k.pins.trans h.pins, k.inputs.trans h.inputs⟩,
    k.latched.trans h.latched, k.issue.trans h.issue⟩

/-- One tone of a program, with its position entered and left. -/
theorem KeptByProgram.tone (code : ModeCode) (p : Seq) (t : Tone) (s : State) :
    KeptByProgram s (leavePosition code p (emitted t (enterPosition p s))) := ⟨⟨rfl, rfl, rfl, rfl⟩, rfl, rfl⟩

theorem played_kept (code : ModeCode) (es : List Entry) (s : State) : KeptByProgram s (played code es s) := by
  induction es generalizing s with
  | nil => exact .refl s
  | cons e es ih => exact (KeptByProgram.tone code e.1 e.2 s).trans (ih _)

theorem emitTone_kept (t : Tone) (s : State) : KeptByProgram s (emitTone t s).state := by
  rcases emitTone_cases t s with ⟨_, h⟩ | ⟨j, _, _, _, h⟩ <;> rw [h] <;> exact ⟨⟨rfl, rfl, rfl, rfl⟩, rfl, rfl⟩

/-- Whatever the sink answers, a tone program leaves these alone. -/
theorem runProgram_kept (code : ModeCode) (es : List Entry) (s : State) :
    KeptByProgram s (runProgram code es s).state := by
  induction es generalizing s with
  | nil => exact .refl s
  | cons e es ih =>
    rw [runProgram]
    rcases emitTone_cases e.2 (enterPosition e.1 s) with ⟨_, h⟩ | ⟨j, _, _, _, h⟩ <;> rw [h]
    · exact (KeptByProgram.tone code e.1 e.2 s).trans (ih _)
    · exact ⟨⟨rfl, rfl, rfl, rfl⟩, rfl, rfl⟩

theorem Flow.andThen_kept {r : Flow} {g : State → Flow} {s : State} (h : KeptByProgram s r.state)
    (hg : ∀ t, KeptByProgram t (g t).state) : KeptByProgram s (r.andThen g).state := by
  cases r with
  | on t => exact h.trans (hg t)
  | raised t => exact h

theorem played_status (code : ModeCode) (es : List Entry) (s : State) : (played code es s).status = s.status := by
  induction es generalizing s with
  | nil => rfl
  | cons e es ih => rw [played, ih]; rfl

theorem played_emitting (code : ModeCode) (es : List Entry) (s : State) : (played code es s).emitting = s.emitting := by
  induction es generalizing s with
  | nil => rfl
  | cons e es ih => rw [played, ih]; rfl

theorem nominalDuration_cons (t : Tone) (ts : List Tone) : nominalDuration (t :: ts) = t.d + nominalDuration ts := by
  simp [nominalDuration]

theorem nominalDuration_append (ts us : List Tone) :
    nominalDuration (ts ++ us) = nominalDuration ts + nominalDuration us := by
  simp [nominalDuration]

theorem nominalDuration_nonneg {ts : List Tone} (h : ts.all Tone.legal = true) : 0 ≤ nominalDuration ts := by
  induction ts with
  | nil => simp [nominalDuration]
  | cons t ts ih =>
    rw [List.all_cons, Bool.and_eq_true] at h
    rw [nominalDuration_cons]
    have := ((legal_iff t).1 h.1).2
    have := ih h.2
    linarith

/-- Samples due after one tone more: what the tone's count and carry make of them (R114). -/
theorem samplesDue_cons (sr : BitVec 32) (c : ℚ) (t : Tone) (ts : List Tone) :
    samplesDue sr c (t :: ts) = segmentCount sr t.d c + samplesDue sr (segmentCarry sr t.d c) ts := by
  have := segment_total sr t.d c
  unfold samplesDue
  rw [nominalDuration_cons, targetCount_add]
  linarith

theorem samplesDue_nonneg {sr : BitVec 32} {c : ℚ} {ts : List Tone} (h : ts.all Tone.legal = true) (hc : 0 ≤ c) :
    0 ≤ samplesDue sr c ts := by
  have := targetCount_nonneg sr (nominalDuration_nonneg h)
  unfold samplesDue; linarith

/-- The samples a tone list emits (R127). -/
def emittedCount (sr : BitVec 32) (carry : Rat) (ts : List Tone) : Nat := (samplesDue sr carry ts).floor.toNat

theorem floor_toNat_add (n : ℕ) {q : ℚ} (hq : 0 ≤ q) : ((n : ℚ) + q).floor.toNat = n + q.floor.toNat := by
  have h0 : 0 ≤ ⌊q⌋ := Int.floor_nonneg.2 hq
  have e : ⌊(n : ℚ) + q⌋ = (n : ℤ) + ⌊q⌋ := Int.floor_natCast_add n q
  change ⌊(n : ℚ) + q⌋.toNat = n + ⌊q⌋.toNat
  rw [e]; omega

theorem frac_natCast_add (n : ℕ) (q : ℚ) : frac ((n : ℚ) + q) = frac q := by
  rw [frac_eq, frac_eq]; exact Int.fract_natCast_add n q

theorem emittedCount_nil (sr : BitVec 32) {c : ℚ} (h0 : 0 ≤ c) (h1 : c < 1) : emittedCount sr c [] = 0 := by
  have : ⌊c⌋ = 0 := Int.floor_eq_zero_iff.2 ⟨h0, h1⟩
  have e : samplesDue sr c [] = c := by simp [samplesDue, nominalDuration, targetCount]
  unfold emittedCount
  rw [e]
  change ⌊c⌋.toNat = 0
  rw [this]; rfl

theorem emittedCount_cons {sr : BitVec 32} {c : ℚ} {t : Tone} {ts : List Tone} (h : (t :: ts).all Tone.legal = true)
    (h0 : 0 ≤ c) (h1 : c < 1) :
    emittedCount sr c (t :: ts) = segmentCount sr t.d c + emittedCount sr (segmentCarry sr t.d c) ts := by
  rw [List.all_cons, Bool.and_eq_true] at h
  have hb := segmentCarry_bounds sr ((legal_iff t).1 h.1).2.le h0 h1
  unfold emittedCount
  rw [samplesDue_cons, floor_toNat_add _ (samplesDue_nonneg h.2 hb.1)]

/-- The closed form of counts (R127) for a program the sink accepts. -/
theorem played_counts (code : ModeCode) (es : List Entry) (s : State) (hl : (es.map Prod.snd).all Tone.legal = true)
    (h0 : 0 ≤ s.osc.carry) (h1 : s.osc.carry < 1) :
    (played code es s).total = s.total + emittedCount s.latched.sr s.osc.carry (es.map Prod.snd) ∧
      (played code es s).osc.carry = frac (samplesDue s.latched.sr s.osc.carry (es.map Prod.snd)) ∧
      ∃ vs : List Sample, vs.length = emittedCount s.latched.sr s.osc.carry (es.map Prod.snd) ∧
        (played code es s).sink = s.sink.acceptList vs := by
  induction es generalizing s with
  | nil =>
    refine ⟨?_, ?_, [], ?_, rfl⟩
    · rw [List.map_nil, emittedCount_nil _ h0 h1]; rfl
    · have e : samplesDue s.latched.sr s.osc.carry [] = s.osc.carry := by simp [samplesDue, nominalDuration, targetCount]
      rw [List.map_nil, e, frac_of_mem h0 h1]; rfl
    · rw [List.map_nil, emittedCount_nil _ h0 h1]; rfl
  | cons e es ih =>
    obtain ⟨p, t⟩ := e
    rw [List.map_cons] at hl ⊢
    have hl' := hl
    rw [List.all_cons, Bool.and_eq_true] at hl'
    have hb := segmentCarry_bounds s.latched.sr ((legal_iff t).1 hl'.1).2.le h0 h1
    obtain ⟨ht, hc, vs, hv, hs⟩ := ih (leavePosition code p (emitted t (enterPosition p s))) hl'.2 hb.1 hb.2
    simp only [leavePosition_total, emitted_total, enterPosition_total, leavePosition_latched, emitted_latched,
      enterPosition_latched, leavePosition_osc, emitted_carry, enterPosition_osc, leavePosition_sink, emitted_sink,
      enterPosition_sink] at ht hc hv hs
    rw [emittedCount_cons hl h0 h1]
    refine ⟨by rw [played, ht, Nat.add_assoc], ?_,
      toneSamples s.latched.sr t.f s.osc.ph (segmentCount s.latched.sr t.d s.osc.carry) ++ vs, ?_, ?_⟩
    · rw [played, hc, samplesDue_cons, frac_natCast_add]
    · rw [List.length_append, hv, toneSamples_length]
    · rw [played, hs, Sink.acceptList_append]

/-- A program whose samples the sink accepts is run through. -/
theorem runProgram_on (code : ModeCode) (es : List Entry) (s : State) (hl : (es.map Prod.snd).all Tone.legal = true)
    (h0 : 0 ≤ s.osc.carry) (h1 : s.osc.carry < 1)
    (hk : s.sink.accepts (emittedCount s.latched.sr s.osc.carry (es.map Prod.snd))) :
    runProgram code es s = .on (played code es s) := by
  induction es generalizing s with
  | nil => rfl
  | cons e es ih =>
    obtain ⟨p, t⟩ := e
    rw [List.map_cons] at hl hk
    have hl' := hl
    rw [List.all_cons, Bool.and_eq_true] at hl'
    have hb := segmentCarry_bounds s.latched.sr ((legal_iff t).1 hl'.1).2.le h0 h1
    rw [emittedCount_cons hl h0 h1] at hk
    rw [runProgram, emitTone_on t (s := enterPosition p s) (Sink.accepts_mono hk (Nat.le_add_right _ _)), Flow.andThen_on,
      played]
    refine ih _ hl'.2 hb.1 hb.2 ?_
    exact Sink.accepts_acceptList _ (by rw [toneSamples_length]; exact hk)

/-- What a program that fails leaves: the fault state of R258, with only accepted samples added. -/
structure FailedRun (n : Nat) (s t : State) : Prop extends KeptByProgram s t where
  status : t.status = Status.faulted .sinkWriteFailure
  stage : t.seq.stage = .fault
  emitting : t.emitting = none
  result : t.result = s.result ∨ ∃ m : Nat, t.result = m
  carry : 0 ≤ t.osc.carry ∧ t.osc.carry < 1
  phase : 0 ≤ s.osc.ph ∧ s.osc.ph < 1 → 0 ≤ t.osc.ph ∧ t.osc.ph < 1
  samples : ∃ vs : List Sample, vs.length < n ∧ t.total = s.total + vs.length ∧
    t.sink = (s.sink.acceptList vs).refuse ∧ s.sink.accepts vs.length ∧ s.sink.answerTo vs.length = false

/-- The two ways a tone program can end. -/
theorem runProgram_cases (code : ModeCode) (es : List Entry) (s : State)
    (hl : (es.map Prod.snd).all Tone.legal = true) (h0 : 0 ≤ s.osc.carry) (h1 : s.osc.carry < 1) :
    (s.sink.accepts (emittedCount s.latched.sr s.osc.carry (es.map Prod.snd)) ∧
        runProgram code es s = .on (played code es s)) ∨
      ∃ t, runProgram code es s = .raised t ∧
        FailedRun (emittedCount s.latched.sr s.osc.carry (es.map Prod.snd)) s t := by
  induction es generalizing s with
  | nil => exact .inl ⟨by rw [List.map_nil, emittedCount_nil _ h0 h1]; exact fun i hi => absurd hi (Nat.not_lt_zero i), rfl⟩
  | cons e es ih =>
    obtain ⟨p, t⟩ := e
    rw [List.map_cons] at hl ⊢
    have hl' := hl
    rw [List.all_cons, Bool.and_eq_true] at hl'
    have hb := segmentCarry_bounds s.latched.sr ((legal_iff t).1 hl'.1).2.le h0 h1
    rw [emittedCount_cons hl h0 h1, runProgram]
    rcases emitTone_cases t (enterPosition p s) with ⟨ha, he⟩ | ⟨j, hj, ha, hf, he⟩
    · rw [he, Flow.andThen_on, played]
      have ha' : s.sink.accepts (segmentCount s.latched.sr t.d s.osc.carry) := ha
      rcases ih (leavePosition code p (emitted t (enterPosition p s))) hl'.2 hb.1 hb.2 with ⟨hk, hr⟩ | ⟨u, hr, hu⟩
      · refine .inl ⟨fun i hi => ?_, hr⟩
        by_cases hi' : i < segmentCount s.latched.sr t.d s.osc.carry
        · exact ha' i hi'
        · have := hk (i - segmentCount s.latched.sr t.d s.osc.carry) (by
            simp only [leavePosition_latched, emitted_latched, enterPosition_latched, leavePosition_osc, emitted_carry,
              enterPosition_osc]
            change i < segmentCount s.latched.sr t.d s.osc.carry
              + emittedCount s.latched.sr (segmentCarry s.latched.sr t.d s.osc.carry) (es.map Prod.snd) at hi
            omega)
          simp only [leavePosition_sink, emitted_sink, enterPosition_sink] at this
          rw [Sink.answerTo_acceptList, toneSamples_length] at this
          rw [← this]; congr 1
          change i = segmentCount s.latched.sr t.d s.osc.carry + (i - segmentCount s.latched.sr t.d s.osc.carry)
          omega
      · refine .inr ⟨u, hr, (KeptByProgram.tone code p t s).trans hu.toKeptByProgram, hu.status, hu.stage, hu.emitting,
          ?_, hu.carry, fun _ => hu.phase ⟨frac_nonneg _, frac_lt_one _⟩, ?_⟩
        · exact .inr (hu.result.elim (fun h => ⟨_, h⟩) id)
        · obtain ⟨vs, hn, ht, hs, ha2, hf2⟩ := hu.samples
          simp only [leavePosition_total, emitted_total, enterPosition_total, leavePosition_latched, emitted_latched,
            enterPosition_latched, leavePosition_osc, emitted_carry, enterPosition_osc, leavePosition_sink, emitted_sink,
            enterPosition_sink] at hn ht hs ha2 hf2
          rw [Sink.answerTo_acceptList, toneSamples_length] at hf2
          refine ⟨toneSamples s.latched.sr t.f s.osc.ph (segmentCount s.latched.sr t.d s.osc.carry) ++ vs, ?_, ?_, ?_,
            fun i hi => ?_, ?_⟩
          · rw [List.length_append, toneSamples_length]; exact Nat.add_lt_add_left hn _
          · rw [ht, List.length_append, toneSamples_length, Nat.add_assoc]
          · rw [hs, Sink.acceptList_append]
          · rw [List.length_append, toneSamples_length] at hi
            by_cases hi' : i < segmentCount s.latched.sr t.d s.osc.carry
            · exact ha' i hi'
            · have := ha2 (i - segmentCount s.latched.sr t.d s.osc.carry) (by omega)
              rw [Sink.answerTo_acceptList, toneSamples_length] at this
              rw [← this]; congr 1; omega
          · rw [List.length_append, toneSamples_length]; exact hf2
    · rw [he, Flow.andThen_raised]
      refine .inr ⟨_, rfl, ⟨⟨rfl, rfl, rfl, rfl⟩, rfl, rfl⟩, rfl, rfl, rfl, .inl rfl, hb, fun h => h, ?_⟩
      have hj' : j < segmentCount s.latched.sr t.d s.osc.carry := hj
      have hlen : ((toneSamples s.latched.sr t.f s.osc.ph (segmentCount s.latched.sr t.d s.osc.carry)).take j).length = j := by
        rw [List.length_take, toneSamples_length]; omega
      refine ⟨(toneSamples s.latched.sr t.f s.osc.ph (segmentCount s.latched.sr t.d s.osc.carry)).take j, ?_, ?_, rfl, ?_, ?_⟩
      · rw [hlen]; change j < segmentCount s.latched.sr t.d s.osc.carry + _; omega
      · rw [hlen]; rfl
      · rw [hlen]; exact ha
      · rw [hlen]; exact hf

end Sys2Proof.Machine
end

