-- ==== Sys2Proof/Laws/Emit.lean ====
section
/-! SUPPORT. EMIT as an operation: when it has its effect, its samples and its phase pair over the reals, and a list of EMITs as
a tone program. -/

namespace Sys2Proof.Machine

theorem execEmit_next {f d : ℚ} {s : State} (hf : 0 ≤ f) (hd : 0 < d) (hr : s.latched.sr ≠ 0) :
    exec (.emit f d) s = .next (emitTone ⟨f, d⟩ s).state := by
  simp only [exec, execEmit, (legal_iff ⟨f, d⟩).2 ⟨hf, hd⟩, if_true, if_neg hr]

theorem execEmit_on {f d : ℚ} {s : State} (hf : 0 ≤ f) (hd : 0 < d) (hr : s.latched.sr ≠ 0)
    (hk : s.sink.accepts (segmentCount s.latched.sr d s.osc.carry)) :
    exec (.emit f d) s = .next (emitted ⟨f, d⟩ s) := by
  rw [execEmit_next hf hd hr, emitTone_on ⟨f, d⟩ hk]; rfl

theorem dac_range (t : ℚ) : -32768 ≤ dac t ∧ dac t ≤ 32767 := by unfold dac clamp16; omega

theorem sampleWord_toInt (t : ℚ) : (sampleWord t).toInt = dac t := by
  have h := dac_range t
  unfold sampleWord
  rw [BitVec.toInt_ofInt, Int.bmod_def]
  split <;> omega

/-- The sample of R126 is the sample of R116 to R118. -/
theorem dac_formula (sr : BitVec 32) (hsr : sr ≠ 0) (f : ℚ) (o : Osc) (i : ℕ) :
    dac (phaseAt sr f o.ph i) = formulaSample sr.toNat f o.la o.lc i := by
  have h := (argument_forms sr hsr f o i).1
  have := dac_range (phaseAt sr f o.ph i)
  unfold formulaSample
  rw [h, ← dac_eq]
  unfold clamp16
  omega

theorem frac_la (t c : ℚ) : (⟨frac t, c⟩ : Osc).la = Real.sin (2 * Real.pi * (t : ℚ)) := (turn_frac t).1

theorem frac_lc (t c : ℚ) : (⟨frac t, c⟩ : Osc).lc = Real.cos (2 * Real.pi * (t : ℚ)) := (turn_frac t).2

theorem start_la : Osc.start.la = 0 := by simp [Osc.la, Osc.start]

theorem start_lc : Osc.start.lc = 1 := by simp [Osc.lc, Osc.start]

theorem Sink.acceptsAll_accepts {k : Sink} (h : k.acceptsAll) (n : Nat) : k.accepts n := fun i _ => h i

theorem Sink.acceptsAll_acceptList {k : Sink} (h : k.acceptsAll) (vs : List Sample) : (k.acceptList vs).acceptsAll :=
  fun i => by rw [Sink.answerTo_acceptList]; exact h _

/-! ### A tone program is a list of EMITs -/

/-- The parts of a state EMIT reads and writes agree. -/
structure SameSynthesis (s t : State) : Prop where
  osc : t.osc = s.osc
  total : t.total = s.total
  sink : t.sink = s.sink
  latched : t.latched = s.latched
  params : t.params = s.params

theorem SameSynthesis.emitted {s t : State} (h : SameSynthesis s t) (tone : Tone) :
    SameSynthesis (emitted tone s) (emitted tone t) := by
  obtain ⟨h1, h2, h3, h4, h5⟩ := h
  constructor <;> simp only [Machine.emitted, h1, h2, h3, h4, h5]

/-- A tone program the sink accepts emits what its tones emit, one EMIT after another. -/
theorem played_emitAll (code : ModeCode) (es : List Entry) {s u : State} (h : SameSynthesis s u)
    (hl : (es.map Prod.snd).all Tone.legal = true) (hr : s.latched.sr ≠ 0) (hk : s.sink.acceptsAll) :
    ∃ v, emitAll (es.map Prod.snd) u = .next v ∧ SameSynthesis (played code es s) v := by
  induction es generalizing s u with
  | nil => exact ⟨u, rfl, h⟩
  | cons e es ih =>
    obtain ⟨p, t⟩ := e
    rw [List.map_cons, List.all_cons, Bool.and_eq_true] at hl
    obtain ⟨hf, hd⟩ := (legal_iff t).1 hl.1
    have hu : u.sink.accepts (segmentCount u.latched.sr t.d u.osc.carry) := by
      rw [h.sink]; exact Sink.acceptsAll_accepts hk _
    have hx := execEmit_on hf hd (by rw [h.latched]; exact hr) hu
    rw [List.map_cons, emitAll]
    simp only [hx]
    have hs := SameSynthesis.emitted (s := enterPosition p s) (t := u) ⟨h.osc, h.total, h.sink, h.latched, h.params⟩ t
    exact ih (s := leavePosition code p (Machine.emitted t (enterPosition p s)))
      ⟨hs.osc, hs.total, hs.sink, hs.latched, hs.params⟩ hl.2 hr (Sink.acceptsAll_acceptList hk _)

theorem runProgram_acceptsAll (code : ModeCode) (es : List Entry) {s : State} (hk : s.sink.acceptsAll) :
    runProgram code es s = .on (played code es s) := by
  induction es generalizing s with
  | nil => rfl
  | cons e es ih =>
    rw [runProgram, emitTone_on e.2 (s := enterPosition e.1 s) (Sink.acceptsAll_accepts hk _), Flow.andThen_on, played]
    exact ih (Sink.acceptsAll_acceptList hk _)

/-- What a program the sink accepts leaves alone. -/
theorem played_frame (code : ModeCode) (es : List Entry) (s : State) : SynthesisFrame s (played code es s) := by
  induction es generalizing s with
  | nil => exact ⟨⟨rfl, rfl, rfl, rfl⟩, rfl, rfl, rfl, rfl, rfl, List.suffix_rfl⟩
  | cons e es ih =>
    obtain ⟨⟨h1, h2, h3, h4⟩, h5, h6, h7, h8, h9, h10⟩ := ih (leavePosition code e.1 (emitted e.2 (enterPosition e.1 s)))
    exact ⟨⟨h1, h2, h3, h4⟩, h5, h6, h7, h8, h9, (List.suffix_append _ _).trans h10⟩

/-- `VIS.ones` changes at VIS positions only. -/
theorem played_visOnes (code : ModeCode) (es : List Entry) (s : State) (h : ∀ e ∈ es, e.1.stage ≠ .vis) :
    (played code es s).visOnes = s.visOnes := by
  induction es generalizing s with
  | nil => rfl
  | cons e es ih =>
    have he := h e (List.mem_cons_self ..)
    rw [played, ih _ fun e' h' => h e' (List.mem_cons_of_mem _ h')]
    simp [he]

end Sys2Proof.Machine
end

