-- ==== Sys2Proof/Laws/Programs.lean ====
section
/-! SUPPORT. The tone programs of the sequencers: their lengths and durations, that every tone in them is legal, and that their
positions are the walk of `SEQ` (R190, R204, R219) with the tone `toneAt` gives at each. -/

namespace Sys2Proof.Machine

/-! ### The range of the sampler (R148) -/

theorem byte_range (b : Byte) : (0 : ℚ) ≤ b.toNat ∧ (b.toNat : ℚ) ≤ 255 := by
  have := b.isLt
  constructor
  · positivity
  · exact_mod_cast (by omega : b.toNat ≤ 255)

theorem lumaOf_range (r g b : Byte) : 16 ≤ lumaOf r g b ∧ lumaOf r g b ≤ 23498615977 / 100000000 := by
  have hr := byte_range r; have hg := byte_range g; have hb := byte_range b
  unfold lumaOf
  constructor <;> linarith

theorem redChromaOf_range (r g b : Byte) :
    1600738283 / 100000000 ≤ redChromaOf r g b ∧ redChromaOf r g b ≤ 23999261717 / 100000000 := by
  have hr := byte_range r; have hg := byte_range g; have hb := byte_range b
  unfold redChromaOf
  constructor <;> linarith

theorem blueChromaOf_range (r g b : Byte) :
    1600738283 / 100000000 ≤ blueChromaOf r g b ∧ blueChromaOf r g b ≤ 23999261717 / 100000000 := by
  have hr := byte_range r; have hg := byte_range g; have hb := byte_range b
  unfold blueChromaOf
  constructor <;> linarith

theorem redAt_nonneg (s : State) (x y : Nat) : 0 ≤ redAt s x y := (byte_range _).1
theorem greenAt_nonneg (s : State) (x y : Nat) : 0 ≤ greenAt s x y := (byte_range _).1
theorem blueAt_nonneg (s : State) (x y : Nat) : 0 ≤ blueAt s x y := (byte_range _).1
theorem lumaAt_nonneg (s : State) (x y : Nat) : 0 ≤ lumaAt s x y := le_trans (by norm_num) (lumaOf_range _ _ _).1
theorem redChromaAt_nonneg (s : State) (x y : Nat) : 0 ≤ redChromaAt s x y :=
  le_trans (by norm_num) (redChromaOf_range _ _ _).1
theorem blueChromaAt_nonneg (s : State) (x y : Nat) : 0 ≤ blueChromaAt s x y :=
  le_trans (by norm_num) (blueChromaOf_range _ _ _).1
theorem average_nonneg {a b : ℚ} (ha : 0 ≤ a) (hb : 0 ≤ b) : 0 ≤ average a b := by unfold average; linarith

/-- A pixel tone of a non-negative intensity is legal (R150). -/
theorem pixelTone_legal {i d : ℚ} (hi : 0 ≤ i) (hd : 0 < d) : (pixelTone i d).legal = true :=
  (legal_iff _).2 ⟨by unfold pixelTone frequencyOf; dsimp only; positivity, hd⟩

/-- Every tone of a body position is legal. -/
theorem Mode.tone_legal (m : Mode) (s : State) (p : Seq) : (m.tone s p).legal = true := by
  cases m <;> simp only [Mode.tone, sdxTone, pdTone, r36Tone] <;> split_ifs <;>
    first
    | (refine (legal_iff _).2 ?_; norm_num; done)
    | exact pixelTone_legal (by simp only [redAt_nonneg, greenAt_nonneg, blueAt_nonneg, lumaAt_nonneg,
        redChromaAt_nonneg, blueChromaAt_nonneg, average_nonneg]) (by norm_num)

/-- The tone of a body position depends on the buffer and the latched width alone (R31). -/
theorem Mode.tone_congr (m : Mode) {s t : State} (hp : t.pix = s.pix) (hl : t.latched = s.latched) (p : Seq) :
    m.tone t p = m.tone s p := by
  cases m <;>
    simp only [Mode.tone, sdxTone, pdTone, r36Tone, redAt, greenAt, blueAt, lumaAt, redChromaAt, blueChromaAt, pixelByte,
      hp, hl]

/-! ### The walk of `SEQ` -/

/-- The entries are the positions from the first argument on, up to the last, each inside the body of `m` with its
tone. -/
inductive Mode.Walks (m : Mode) (s : State) : Seq → List Entry → Seq → Prop where
  | nil (p : Seq) : Mode.Walks m s p [] p
  | cons {p q : Seq} {t : Tone} {es : List Entry} (stage : p.stage = .body) (exists_ : m.hasPosition p = true)
      (tone : t = m.tone s p) (rest : Mode.Walks m s (m.nextPosition p) es q) : Mode.Walks m s p ((p, t) :: es) q

theorem Mode.Walks.append {m : Mode} {s : State} {es fs : List Entry} {p q r : Seq} (h : m.Walks s p es q)
    (k : m.Walks s q fs r) : m.Walks s p (es ++ fs) r := by
  induction h with
  | nil => exact k
  | cons h1 h2 h3 _ ih => exact Mode.Walks.cons h1 h2 h3 (ih k)

/-- A single-tone slot. -/
theorem Mode.Walks.single {m : Mode} {s : State} {row slot : Nat} {t : Tone} {q : Seq}
    (hp : m.hasPosition ⟨.body, 0, row, slot, 0⟩ = true) (ht : t = m.tone s ⟨.body, 0, row, slot, 0⟩)
    (hn : m.nextPosition ⟨.body, 0, row, slot, 0⟩ = q) :
    m.Walks s ⟨.body, 0, row, slot, 0⟩ (single row slot t) q :=
  Mode.Walks.cons rfl hp ht (by rw [hn]; exact Mode.Walks.nil q)

/-- A scan slot. -/
theorem Mode.Walks.scanLine {m : Mode} {s : State} {row slot w : Nat} {f : Nat → Tone} {q : Seq} (hw : m.slotTones slot = w)
    (h0 : 0 < w) (hp : ∀ x < w, m.hasPosition ⟨.body, 0, row, slot, x⟩ = true)
    (ht : ∀ x, f x = m.tone s ⟨.body, 0, row, slot, x⟩)
    (hn : m.nextPosition ⟨.body, 0, row, slot, w - 1⟩ = q) :
    m.Walks s ⟨.body, 0, row, slot, 0⟩ (scanLine row slot w f) q := by
  have key : ∀ n x, x + n = w → 0 < n →
      m.Walks s ⟨.body, 0, row, slot, x⟩
        ((List.range' x n).map fun x => (⟨.body, 0, row, slot, x⟩, f x)) q := by
    intro n
    induction n with
    | zero => intro x _ h; omega
    | succ n ih =>
      intro x hx _
      rw [List.range'_succ, List.map_cons]
      refine Mode.Walks.cons rfl (hp x (by omega)) (ht x) ?_
      cases n with
      | zero =>
        have : x = w - 1 := by omega
        subst this; rw [hn]; exact Mode.Walks.nil q
      | succ n =>
        have e : m.nextPosition ⟨.body, 0, row, slot, x⟩ = ⟨.body, 0, row, slot, x + 1⟩ := by
          unfold Mode.nextPosition; rw [if_pos (by dsimp only; omega)]
        rw [e]
        exact ih (x + 1) (by omega) (by omega)
  have := key w 0 (by omega) h0
  rw [Machine.scanLine, List.range_eq_range']
  exact this

/-- Rows one after another. -/
theorem Mode.Walks.rows {m : Mode} {s : State} {row : Nat → List Entry} {start : Nat → Seq} (n : Nat)
    (h : ∀ i < n, m.Walks s (start i) (row i) (start (i + 1))) :
    m.Walks s (start 0) ((List.range n).flatMap row) (start n) := by
  induction n with
  | zero => exact Mode.Walks.nil _
  | succ n ih =>
    rw [List.range_succ, List.flatMap_append]
    refine (ih fun i hi => h i (by omega)).append ?_
    rw [List.flatMap_singleton]
    exact h n (by omega)

/-- Where row `i` of a body begins. -/
def Mode.rowStart (m : Mode) (i : Nat) : Seq :=
  if i = 0 then ⟨.body, 0, 0, 0, 0⟩
  else if i * m.rowStep < m.rows then ⟨.body, 0, i * m.rowStep, m.loopSlot, 0⟩
  else ⟨.eot, 0, 0, 0, 0⟩

theorem sdxRow_walks (s : State) {row : Nat} (h : row < 256) :
    Mode.Walks .scottieDx s (Mode.rowStart .scottieDx row) (sdxRow s row) (Mode.rowStart .scottieDx (row + 1)) := by
  have tail : Mode.Walks .scottieDx s ⟨.body, 0, row, 1, 0⟩
      (single row 1 ⟨1500, 3 / 2⟩
        ++ scanLine row 2 320 (fun x => pixelTone (greenAt s x row) (108 / 100))
        ++ single row 3 ⟨1500, 3 / 2⟩
        ++ scanLine row 4 320 (fun x => pixelTone (blueAt s x row) (108 / 100))
        ++ single row 5 ⟨1200, 9⟩
        ++ single row 6 ⟨1500, 3 / 2⟩
        ++ scanLine row 7 320 (fun x => pixelTone (redAt s x row) (108 / 100)))
      (Mode.rowStart .scottieDx (row + 1)) := by
    have hp : ∀ slot x, slot ≤ 7 → 1 ≤ slot → x < Mode.slotTones .scottieDx slot →
        Mode.hasPosition .scottieDx ⟨.body, 0, row, slot, x⟩ = true := by
      intro slot x h1 h2 h3
      simp [Mode.hasPosition, Mode.rows, Mode.rowStep, Mode.lastSlot, Mode.loopSlot, h, h1, h2, h3, Nat.mod_one]
    refine Mode.Walks.append (q := ⟨.body, 0, row, 7, 0⟩) (Mode.Walks.append (q := ⟨.body, 0, row, 6, 0⟩)
      (Mode.Walks.append (q := ⟨.body, 0, row, 5, 0⟩) (Mode.Walks.append (q := ⟨.body, 0, row, 4, 0⟩)
      (Mode.Walks.append (q := ⟨.body, 0, row, 3, 0⟩) (Mode.Walks.append (q := ⟨.body, 0, row, 2, 0⟩) ?_ ?_) ?_) ?_) ?_) ?_) ?_
    · exact Mode.Walks.single (hp 1 0 (by omega) (by omega) (by decide)) (by simp [Mode.tone, sdxTone]) rfl
    · exact Mode.Walks.scanLine rfl (by omega) (fun x hx => hp 2 x (by omega) (by omega) hx) (fun x => by simp [Mode.tone, sdxTone]) rfl
    · exact Mode.Walks.single (hp 3 0 (by omega) (by omega) (by decide)) (by simp [Mode.tone, sdxTone]) rfl
    · exact Mode.Walks.scanLine rfl (by omega) (fun x hx => hp 4 x (by omega) (by omega) hx) (fun x => by simp [Mode.tone, sdxTone]) rfl
    · exact Mode.Walks.single (hp 5 0 (by omega) (by omega) (by decide)) (by simp [Mode.tone, sdxTone]) rfl
    · exact Mode.Walks.single (hp 6 0 (by omega) (by omega) (by decide)) (by simp [Mode.tone, sdxTone]) rfl
    · refine Mode.Walks.scanLine rfl (by omega) (fun x hx => hp 7 x (by omega) (by omega) hx) (fun x => by simp [Mode.tone, sdxTone]) ?_
      by_cases hl : row + 1 < 256 <;>
        simp [Mode.nextPosition, Mode.slotTones, Mode.lastSlot, Mode.rowStep, Mode.rows, Mode.loopSlot, Mode.rowStart, hl]
  rcases Nat.eq_zero_or_pos row with rfl | hr
  · have e : sdxRow s 0 = single 0 0 ⟨1200, 9⟩ ++ (single 0 1 ⟨1500, 3 / 2⟩
        ++ scanLine 0 2 320 (fun x => pixelTone (greenAt s x 0) (108 / 100))
        ++ single 0 3 ⟨1500, 3 / 2⟩
        ++ scanLine 0 4 320 (fun x => pixelTone (blueAt s x 0) (108 / 100))
        ++ single 0 5 ⟨1200, 9⟩
        ++ single 0 6 ⟨1500, 3 / 2⟩
        ++ scanLine 0 7 320 (fun x => pixelTone (redAt s x 0) (108 / 100))) := by
      simp [sdxRow]
    rw [e]
    exact (Mode.Walks.single (q := ⟨.body, 0, 0, 1, 0⟩) (by decide) (by simp [Mode.tone, sdxTone]) rfl).append tail
  · have e : Mode.rowStart .scottieDx row = ⟨.body, 0, row, 1, 0⟩ := by
      have : row ≠ 0 := by omega
      simp [Mode.rowStart, Mode.rowStep, Mode.rows, Mode.loopSlot, h, this]
    have e2 : sdxRow s row = single row 1 ⟨1500, 3 / 2⟩
        ++ scanLine row 2 320 (fun x => pixelTone (greenAt s x row) (108 / 100))
        ++ single row 3 ⟨1500, 3 / 2⟩
        ++ scanLine row 4 320 (fun x => pixelTone (blueAt s x row) (108 / 100))
        ++ single row 5 ⟨1200, 9⟩
        ++ single row 6 ⟨1500, 3 / 2⟩
        ++ scanLine row 7 320 (fun x => pixelTone (redAt s x row) (108 / 100)) := by
      have : row ≠ 0 := by omega
      simp [sdxRow, this]
    rw [e, e2]
    exact tail

theorem sdxProgram_walks (s : State) :
    Mode.Walks .scottieDx s ⟨.body, 0, 0, 0, 0⟩ (sdxProgram s) ⟨.eot, 0, 0, 0, 0⟩ :=
  Mode.Walks.rows (start := Mode.rowStart .scottieDx) 256 fun _ hi => sdxRow_walks s hi

theorem pdPair_walks (s : State) {i : Nat} (h : i < 248) :
    Mode.Walks .pd120 s (Mode.rowStart .pd120 i) (pdPair s (2 * i)) (Mode.rowStart .pd120 (i + 1)) := by
  have e : Mode.rowStart .pd120 i = ⟨.body, 0, 2 * i, 0, 0⟩ := by
    have : i * 2 < 496 := by omega
    unfold Mode.rowStart
    split
    · rename_i h0; subst h0; rfl
    · simp only [Mode.rowStep, Mode.rows, this, if_true, Mode.loopSlot, Nat.mul_comm]
  have hp : ∀ slot x, slot ≤ 5 → x < Mode.slotTones .pd120 slot →
      Mode.hasPosition .pd120 ⟨.body, 0, 2 * i, slot, x⟩ = true := by
    intro slot x h1 h3
    have : 2 * i < 496 := by omega
    simp [Mode.hasPosition, Mode.rows, Mode.rowStep, Mode.lastSlot, Mode.loopSlot, this, h1, h3]
  have h2 : Mode.slotTones .pd120 2 = 640 := rfl
  have h3 : Mode.slotTones .pd120 3 = 640 := rfl
  have h4 : Mode.slotTones .pd120 4 = 640 := rfl
  have h5 : Mode.slotTones .pd120 5 = 640 := rfl
  rw [e]
  unfold pdPair
  refine Mode.Walks.append (q := ⟨.body, 0, 2 * i, 5, 0⟩) (Mode.Walks.append (q := ⟨.body, 0, 2 * i, 4, 0⟩)
      (Mode.Walks.append (q := ⟨.body, 0, 2 * i, 3, 0⟩) (Mode.Walks.append (q := ⟨.body, 0, 2 * i, 2, 0⟩)
      (Mode.Walks.append (q := ⟨.body, 0, 2 * i, 1, 0⟩) ?_ ?_) ?_) ?_) ?_) ?_
  · exact Mode.Walks.single (hp 0 0 (by omega) (by decide)) (by simp [Mode.tone, pdTone]) rfl
  · exact Mode.Walks.single (hp 1 0 (by omega) (by decide)) (by simp [Mode.tone, pdTone]) rfl
  · exact Mode.Walks.scanLine h2 (by omega) (fun x hx => hp 2 x (by omega) (h2 ▸ hx)) (fun x => by simp [Mode.tone, pdTone]) (by simp [Mode.nextPosition, Mode.slotTones, Mode.lastSlot])
  · exact Mode.Walks.scanLine h3 (by omega) (fun x hx => hp 3 x (by omega) (h3 ▸ hx)) (fun x => by simp [Mode.tone, pdTone]) (by simp [Mode.nextPosition, Mode.slotTones, Mode.lastSlot])
  · exact Mode.Walks.scanLine h4 (by omega) (fun x hx => hp 4 x (by omega) (h4 ▸ hx)) (fun x => by simp [Mode.tone, pdTone]) (by simp [Mode.nextPosition, Mode.slotTones, Mode.lastSlot])
  · refine Mode.Walks.scanLine h5 (by omega) (fun x hx => hp 5 x (by omega) (h5 ▸ hx)) (fun x => by simp [Mode.tone, pdTone]) ?_
    have : (i + 1) * 2 = 2 * i + 2 := by omega
    by_cases hl : 2 * i + 2 < 496 <;>
      simp [Mode.nextPosition, Mode.slotTones, Mode.lastSlot, Mode.rowStep, Mode.rows, Mode.loopSlot, Mode.rowStart, this, hl]

theorem pdProgram_walks (s : State) :
    Mode.Walks .pd120 s ⟨.body, 0, 0, 0, 0⟩ (pdProgram s) ⟨.eot, 0, 0, 0, 0⟩ :=
  Mode.Walks.rows (start := Mode.rowStart .pd120) 248 fun _ hi => pdPair_walks s hi

theorem r36Row_walks (s : State) {row : Nat} (h : row < 240) :
    Mode.Walks .robot36 s (Mode.rowStart .robot36 row) (r36Row s row) (Mode.rowStart .robot36 (row + 1)) := by
  have e : Mode.rowStart .robot36 row = ⟨.body, 0, row, 0, 0⟩ := by
    unfold Mode.rowStart
    split
    · rename_i h0; subst h0; rfl
    · simp only [Mode.rowStep, Mode.rows, Nat.mul_one, h, if_true, Mode.loopSlot]
  have hp : ∀ slot x, slot ≤ 5 → x < Mode.slotTones .robot36 slot →
      Mode.hasPosition .robot36 ⟨.body, 0, row, slot, x⟩ = true := by
    intro slot x h1 h3
    simp [Mode.hasPosition, Mode.rows, Mode.rowStep, Mode.lastSlot, Mode.loopSlot, h, h1, h3, Nat.mod_one]
  have last : Mode.nextPosition .robot36 ⟨.body, 0, row, 5, 320 - 1⟩ = Mode.rowStart .robot36 (row + 1) := by
    by_cases hl : row + 1 < 240 <;>
      simp [Mode.nextPosition, Mode.slotTones, Mode.lastSlot, Mode.rowStep, Mode.rows, Mode.loopSlot, Mode.rowStart, hl]
  rw [e]
  unfold r36Row
  dsimp only
  refine Mode.Walks.append (q := ⟨.body, 0, row, 3, 0⟩) (Mode.Walks.append (q := ⟨.body, 0, row, 2, 0⟩)
      (Mode.Walks.append (q := ⟨.body, 0, row, 1, 0⟩) ?_ ?_) ?_) ?_
  · exact Mode.Walks.single (hp 0 0 (by omega) (by decide)) (by simp [Mode.tone, r36Tone]) rfl
  · exact Mode.Walks.single (hp 1 0 (by omega) (by decide)) (by simp [Mode.tone, r36Tone]) rfl
  · exact Mode.Walks.scanLine rfl (by omega) (fun x hx => hp 2 x (by omega) hx) (fun x => by simp [Mode.tone, r36Tone]) rfl
  · split <;> rename_i hr <;>
      refine Mode.Walks.append (q := ⟨.body, 0, row, 5, 0⟩) (Mode.Walks.append (q := ⟨.body, 0, row, 4, 0⟩) ?_ ?_) ?_
    · exact Mode.Walks.single (hp 3 0 (by omega) (by decide)) (by simp [Mode.tone, r36Tone, hr]) rfl
    · exact Mode.Walks.single (hp 4 0 (by omega) (by decide)) (by simp [Mode.tone, r36Tone]) rfl
    · exact Mode.Walks.scanLine rfl (by omega) (fun x hx => hp 5 x (by omega) hx) (fun x => by simp [Mode.tone, r36Tone, hr]) last
    · exact Mode.Walks.single (hp 3 0 (by omega) (by decide)) (by simp [Mode.tone, r36Tone, hr]) rfl
    · exact Mode.Walks.single (hp 4 0 (by omega) (by decide)) (by simp [Mode.tone, r36Tone]) rfl
    · exact Mode.Walks.scanLine rfl (by omega) (fun x hx => hp 5 x (by omega) hx) (fun x => by simp [Mode.tone, r36Tone, hr]) last

theorem r36Program_walks (s : State) :
    Mode.Walks .robot36 s ⟨.body, 0, 0, 0, 0⟩ (r36Program s) ⟨.eot, 0, 0, 0, 0⟩ :=
  Mode.Walks.rows (start := Mode.rowStart .robot36) 240 fun _ hi => r36Row_walks s hi

/-- The tone program of a mode. -/
def Mode.program : Mode → State → List Entry
  | .scottieDx, s => sdxProgram s
  | .pd120, s => pdProgram s
  | .robot36, s => r36Program s

theorem Mode.program_walks (m : Mode) (s : State) :
    m.Walks s ⟨.body, 0, 0, 0, 0⟩ (m.program s) ⟨.eot, 0, 0, 0, 0⟩ := by
  cases m
  · exact sdxProgram_walks s
  · exact pdProgram_walks s
  · exact r36Program_walks s

theorem Mode.Walks.legal {m : Mode} {s : State} {es : List Entry} {p q : Seq} (h : m.Walks s p es q) :
    (es.map Prod.snd).all Tone.legal = true := by
  induction h with
  | nil => rfl
  | cons _ _ h3 _ ih => rw [List.map_cons, List.all_cons, ih, h3, Mode.tone_legal]; rfl

theorem Mode.program_legal (m : Mode) (s : State) : ((m.program s).map Prod.snd).all Tone.legal = true :=
  (m.program_walks s).legal

/-! ### Lengths and durations (R187, R202, R217, R170, R231) -/

/-- The nominal duration of an entry list. -/
def entriesDuration (es : List Entry) : Rat := nominalDuration (es.map Prod.snd)

theorem entriesDuration_append (es fs : List Entry) :
    entriesDuration (es ++ fs) = entriesDuration es + entriesDuration fs := by
  unfold entriesDuration; rw [List.map_append, nominalDuration_append]

theorem entriesDuration_single (row slot : Nat) (t : Tone) : entriesDuration (single row slot t) = t.d := by
  simp [entriesDuration, single, nominalDuration]

theorem entriesDuration_scanLine (row slot w : Nat) (f : Nat → Tone) {d : ℚ} (h : ∀ x, (f x).d = d) :
    entriesDuration (scanLine row slot w f) = w * d := by
  simp [entriesDuration, scanLine, nominalDuration, Function.comp_def, h]

theorem entriesDuration_pixels (row slot w : Nat) (g : Nat → ℚ) (d : ℚ) :
    entriesDuration (scanLine row slot w fun x => pixelTone (g x) d) = w * d :=
  entriesDuration_scanLine _ _ _ _ fun _ => rfl

theorem length_single (row slot : Nat) (t : Tone) : (single row slot t).length = 1 := rfl

theorem length_scanLine (row slot w : Nat) (f : Nat → Tone) : (scanLine row slot w f).length = w := by
  simp [scanLine]

theorem rows_sum {row : Nat → List Entry} {l : ℕ} {d : ℚ} (n : Nat)
    (h : ∀ i < n, (row i).length = l ∧ entriesDuration (row i) = d) :
    ((List.range n).flatMap row).length = n * l ∧ entriesDuration ((List.range n).flatMap row) = n * d := by
  induction n with
  | zero => simp [entriesDuration, nominalDuration]
  | succ n ih =>
    obtain ⟨h1, h2⟩ := ih fun i hi => h i (by omega)
    obtain ⟨h3, h4⟩ := h n (by omega)
    rw [List.range_succ, List.flatMap_append, List.flatMap_singleton, List.length_append, entriesDuration_append, h1, h2,
      h3, h4]
    constructor
    · ring
    · push_cast; ring

theorem sdxRow_size (s : State) (row : Nat) :
    (sdxRow s row).length = (if row = 0 then 965 else 964) ∧
      entriesDuration (sdxRow s row) = (if row = 0 then 10593 / 10 else 10503 / 10) := by
  unfold sdxRow
  simp only [List.length_append, entriesDuration_append, length_single, length_scanLine, entriesDuration_single,
    entriesDuration_pixels]
  split
  · rw [length_single, entriesDuration_single]; norm_num
  · have : entriesDuration [] = 0 := rfl
    rw [this, List.length_nil]; norm_num

/-- R187. -/
theorem sdxProgram_size (s : State) :
    (sdxProgram s).length = 246785 ∧ entriesDuration (sdxProgram s) = 2688858 / 10 := by
  have e : sdxProgram s = sdxRow s 0 ++ (List.range 255).flatMap fun i => sdxRow s (i + 1) := by
    unfold sdxProgram
    rw [List.range_succ_eq_map, List.flatMap_cons, List.flatMap_map]
  have h := rows_sum (row := fun i => sdxRow s (i + 1)) (l := 964) (d := 10503 / 10) 255 fun i _ => by
    have := sdxRow_size s (i + 1)
    simpa using this
  have h0 := sdxRow_size s 0
  rw [if_pos rfl, if_pos rfl] at h0
  rw [e, List.length_append, entriesDuration_append, h.1, h.2, h0.1, h0.2]
  norm_num

theorem pdPair_size (s : State) (row : Nat) :
    (pdPair s row).length = 2562 ∧ entriesDuration (pdPair s row) = 50848 / 100 := by
  unfold pdPair
  simp only [List.length_append, entriesDuration_append, length_single, length_scanLine, entriesDuration_single,
    entriesDuration_pixels]
  norm_num

/-- R202. -/
theorem pdProgram_size (s : State) :
    (pdProgram s).length = 635376 ∧ entriesDuration (pdProgram s) = 12610304 / 100 := by
  have h := rows_sum (row := fun i => pdPair s (2 * i)) (l := 2562) (d := 50848 / 100) 248 fun i _ => pdPair_size s (2 * i)
  unfold pdProgram
  rw [h.1, h.2]; norm_num

theorem r36Row_size (s : State) (row : Nat) : (r36Row s row).length = 644 ∧ entriesDuration (r36Row s row) = 150 := by
  unfold r36Row
  dsimp only
  split <;>
  · simp only [List.length_append, entriesDuration_append, length_single, length_scanLine, entriesDuration_single, entriesDuration_pixels]
    norm_num

/-- R217. -/
theorem r36Program_size (s : State) : (r36Program s).length = 154560 ∧ entriesDuration (r36Program s) = 36000 := by
  have h := rows_sum (row := r36Row s) (l := 644) (d := 150) 240 fun i _ => r36Row_size s i
  unfold r36Program
  rw [h.1, h.2]; norm_num

theorem numbered_tones (stage : Stage) (ts : List Tone) : (numbered stage ts).map Prod.snd = ts := by
  simp [numbered, Function.comp_def]

theorem bitTone_d (b : Bool) : (bitTone b).d = 30 := by cases b <;> rfl

/-- R170. -/
theorem visTones_size (code : ModeCode) : (visTones code).length = 21 ∧ nominalDuration (visTones code) = 1710 := by
  constructor
  · simp [visTones]
  · simp [visTones, nominalDuration, Function.comp_def, bitTone_d]
    norm_num

theorem bitTone_legal (b : Bool) : (bitTone b).legal = true := by cases b <;> rfl

theorem visTones_legal (code : ModeCode) : (visTones code).all Tone.legal = true := by
  simp [visTones, bitTone_legal]
  decide

/-- R231. -/
theorem eotTones_size : eotTones.length = 5 ∧ nominalDuration eotTones = 900 := by
  constructor
  · rfl
  · simp [eotTones, nominalDuration]; norm_num

theorem eotTones_legal : eotTones.all Tone.legal = true := by decide

/-! ### The tones of a body (R183, R198, R213) -/

theorem scanLine_tones (row slot w : Nat) (g : Nat → ℚ) (d : ℚ) :
    (scanLine row slot w fun x => pixelTone (g x) d).map Prod.snd = pixelTones w g d := by
  simp [scanLine, pixelTones, pixelTone, frequencyOf, Function.comp_def]

theorem single_tones (row slot : Nat) (t : Tone) : (single row slot t).map Prod.snd = [t] := rfl

theorem sdxRow_tones (s : State) (row : Nat) : (sdxRow s row).map Prod.snd =
    (if row = 0 then [⟨1200, 9⟩] else [])
      ++ [⟨1500, 3 / 2⟩] ++ pixelTones 320 (fun x => greenAt s x row) (108 / 100)
      ++ [⟨1500, 3 / 2⟩] ++ pixelTones 320 (fun x => blueAt s x row) (108 / 100)
      ++ [⟨1200, 9⟩]
      ++ [⟨1500, 3 / 2⟩] ++ pixelTones 320 (fun x => redAt s x row) (108 / 100) := by
  unfold sdxRow
  simp only [List.map_append, scanLine_tones, single_tones]
  split <;> rfl

/-- The tones of a scan's program are the list of its pseudocode. -/
theorem Mode.program_tones (m : Mode) (s : State) : (m.program s).map Prod.snd = scanTones m s := by
  cases m
  · simp only [Mode.program, sdxProgram, scanTones, List.map_flatMap, sdxRow_tones]
  · simp only [Mode.program, pdProgram, scanTones, List.map_flatMap, pdPair, List.map_append, scanLine_tones,
      single_tones, average, List.cons_append, List.nil_append]
  · simp only [Mode.program, r36Program, scanTones, List.map_flatMap, r36Row, List.map_append, scanLine_tones,
      single_tones, average, List.cons_append, List.nil_append, apply_ite (List.map Prod.snd), pairRow]

theorem Mode.exec_scan (m : Mode) (s : State) : exec m.scan s = scanImage m (m.program s) s := by cases m <;> rfl

/-- No position of a body is a VIS position. -/
theorem Mode.Walks.not_vis {m : Mode} {s : State} {es : List Entry} {p q : Seq} (h : m.Walks s p es q) :
    ∀ e ∈ es, e.1.stage ≠ .vis := by
  induction h with
  | nil => simp
  | cons h1 _ _ _ ih =>
    intro e he
    rcases List.mem_cons.1 he with rfl | he
    · dsimp only; rw [h1]; decide
    · exact ih e he

/-! ### The VIS program (R160) -/

theorem visProgram_tones (p : Params) (code : ModeCode) :
    (visProgram p code).map Prod.snd = p.preamble ++ visTones code := by
  rw [visProgram, List.map_append, numbered_tones, numbered_tones]

theorem visProgram_legal {p : Params} (code : ModeCode) (h : p.preamble.all Tone.legal = true) :
    ((visProgram p code).map Prod.snd).all Tone.legal = true := by
  rw [visProgram_tones, List.all_append, h, visTones_legal]; rfl

theorem played_append (code : ModeCode) (es fs : List Entry) (s : State) :
    played code (es ++ fs) s = played code fs (played code es s) := by
  induction es generalizing s with
  | nil => rfl
  | cons e es ih => exact ih _

/-- After the header `VIS.ones` counts the '1' bits of the code (R32). -/
theorem played_vis_ones (p : Params) (code : ModeCode) (s : State) :
    (played code (visProgram p code) s).visOnes = onesBelow code 7 := by
  rw [visProgram, played_append]
  generalize played code (numbered .pre p.preamble) s = u
  simp only [visTones, numbered, List.range, List.range.loop, List.map_cons, List.map_nil, List.cons_append,
    List.nil_append, List.zipIdx_cons, List.zipIdx_nil, played, leavePosition_visOnes, emitted_visOnes,
    enterPosition_visOnes]
  simp only [onesBelow, Nat.reduceAdd, Nat.reduceLeDiff, Nat.reduceEqDiff, Nat.reduceSub, true_and, false_and, if_true,
    if_false]
  split_ifs <;> rfl

theorem eotProgram_tones : eotProgram.map Prod.snd = eotTones := numbered_tones _ _

end Sys2Proof.Machine
end

