-- ==== Sys2Proof/Laws/Run.lean ====
section
/-! SUPPORT. Steps composed: an undisturbed block runs its tone programs by single steps (R7) exactly as the operations of R160,
R183, R198, R213 and R231 run them. -/

namespace Sys2Proof.Machine

/-! ### Runs -/

/-- Nothing is driven on the ports and no operation is issued by itself. -/
structure Undisturbed (s : State) : Prop where
  quiet : s.quiet
  issue : s.issue = none

theorem Undisturbed.of_eq {s t : State} (h : Undisturbed s) (hp : t.pins = s.pins) (hi : t.inputs = s.inputs)
    (hu : t.issue = s.issue) : Undisturbed t :=
  ⟨⟨hi.trans h.quiet.1, by rw [hp]; exact h.quiet.2⟩, hu.trans h.issue⟩

theorem step_undisturbed {s : State} (h : Undisturbed s) : step s = sequencerStep s := by
  obtain ⟨⟨hi, hq⟩, hu⟩ := h
  have h1 : s.pins.rst = false := by rw [← hq]; rfl
  have h2 : s.pins.cmdValid = false := by rw [← hq]; rfl
  have h3 : s.pins.stores = [] := by rw [← hq]; rfl
  have e : s.takePins = s := by
    cases s
    simp only at hi hq
    subst hi
    simp only [State.takePins, State.nextPins, List.headD_nil, hq, List.tail_nil]
  have e2 : s.placeStores = s := by
    cases s
    simp only at h3
    simp only [State.placeStores, h3, placeBytes_nil]
  simp [step, e, e2, h1, h3, act, hu, h2]

theorem run_one (s : State) : Host.Core.run core 1 s = step s := by
  change Host.Core.run core 1 s = core.step s
  simp only [Host.Core.run]
  cases core.step s <;> rfl

theorem run_add {a b : Nat} {s t : State} (h : Host.Core.run core a s = .next t) :
    Host.Core.run core (a + b) s = Host.Core.run core b t := by
  induction a generalizing s with
  | zero =>
    rw [Nat.zero_add]
    cases h
    rfl
  | succ a ih =>
    rw [Nat.add_right_comm]
    simp only [Host.Core.run] at h ⊢
    cases hs : core.step s with
    | next s' => rw [hs] at h; exact ih h
    | fault r => rw [hs] at h; cases h
    | refused r => rw [hs] at h; cases h

theorem run_trans {s t : State} {o : Host.Outcome State Fault Refusal} (h : ∃ a, Host.Core.run core a s = .next t)
    (k : ∃ b, Host.Core.run core b t = o) : ∃ c, Host.Core.run core c s = o := by
  obtain ⟨a, ha⟩ := h
  obtain ⟨b, hb⟩ := k
  exact ⟨a + b, by rw [run_add ha, hb]⟩

theorem run_step {s t : State} (h : step s = .next t) : ∃ a, Host.Core.run core a s = .next t :=
  ⟨1, (run_one s).trans h⟩

/-! ### One tone, sample by sample -/

theorem phase_list (sr : BitVec 32) (f θ : ℚ) (i n : Nat) (h : i < n) :
    (toneSamples sr f θ n).drop i = sampleWord (phaseAt sr f θ i) :: (toneSamples sr f θ n).drop (i + 1) := by
  rw [List.drop_eq_getElem_cons (by rw [toneSamples_length]; exact h), toneSamples_getElem]

/-- The rest of an emission the sink accepts. -/
theorem run_emission_on {s : State} (m : Nat) {e : Emission} (hu : Undisturbed s) (he : s.emitting = some e)
    (hm : e.i + (m + 1) = e.n) (hk : s.sink.accepts (m + 1)) :
    ∃ k, Host.Core.run core k s = .next (finishTone e.tone e.n e.theta0
      { s with
        total := s.total + (m + 1)
        sink := s.sink.acceptList ((toneSamples s.latched.sr e.tone.f e.theta0 e.n).drop e.i)
        emitting := some { e with i := e.i + m } }) := by
  induction m generalizing s e with
  | zero =>
    refine run_step ?_
    rw [step_undisturbed hu, sequencerStep]
    simp only [he, emitSample]
    rw [pushSample_on _ (Sink.answer_of_accepts hk), phase_list _ _ _ _ _ (by omega),
      List.drop_of_length_le (by rw [toneSamples_length]; omega), Sink.acceptList_cons, Sink.acceptList_nil]
    simp only [if_neg (by omega : ¬ e.i + 1 < e.n), Nat.zero_add, Nat.add_zero]
    cases s; cases e
    simp only at he
    subst he
    rfl
  | succ m ih =>
    have hs : step s = .next
        { s with
          total := s.total + 1
          sink := s.sink.accept (sampleWord (phaseAt s.latched.sr e.tone.f e.theta0 e.i))
          emitting := some { e with i := e.i + 1 } } := by
      rw [step_undisturbed hu, sequencerStep]
      simp only [he, emitSample]
      rw [pushSample_on _ (Sink.answer_of_accepts hk)]
      simp only [if_pos (by omega : e.i + 1 < e.n)]
    refine run_trans (run_step hs) ?_
    obtain ⟨k, hk'⟩ := ih (s := { s with
          total := s.total + 1
          sink := s.sink.accept (sampleWord (phaseAt s.latched.sr e.tone.f e.theta0 e.i))
          emitting := some { e with i := e.i + 1 } }) (e := { e with i := e.i + 1 }) (hu.of_eq rfl rfl rfl) rfl (by dsimp only; omega)
      (Sink.accepts_accept _ hk)
    refine ⟨k, ?_⟩
    rw [hk']
    simp only
    rw [phase_list _ _ _ _ _ (by omega : e.i < e.n), Sink.acceptList_cons]
    have e1 : s.total + 1 + (m + 1) = s.total + (m + 1 + 1) := by omega
    have e2 : e.i + 1 + m = e.i + (m + 1) := by omega
    rw [e1, e2]

/-- The rest of an emission in which the sink fails after `j` samples. -/
theorem run_emission_raised {s : State} (j : Nat) {e : Emission} (hu : Undisturbed s) (he : s.emitting = some e)
    (hj : e.i + j < e.n) (hk : s.sink.accepts j) (hf : s.sink.answerTo j = false) :
    ∃ k, Host.Core.run core k s = .next (faultEntry .sinkWriteFailure
      { s with
        total := s.total + j
        sink := (s.sink.acceptList (((toneSamples s.latched.sr e.tone.f e.theta0 e.n).drop e.i).take j)).refuse }) := by
  induction j generalizing s e with
  | zero =>
    refine run_step ?_
    rw [step_undisturbed hu, sequencerStep]
    simp only [he, emitSample]
    rw [pushSample_raised _ (by rw [← Sink.answerTo_zero]; exact hf)]
    rfl
  | succ j ih =>
    have hs : step s = .next
        { s with
          total := s.total + 1
          sink := s.sink.accept (sampleWord (phaseAt s.latched.sr e.tone.f e.theta0 e.i))
          emitting := some { e with i := e.i + 1 } } := by
      rw [step_undisturbed hu, sequencerStep]
      simp only [he, emitSample]
      rw [pushSample_on _ (Sink.answer_of_accepts hk)]
      simp only [if_pos (by omega : e.i + 1 < e.n)]
    refine run_trans (run_step hs) ?_
    obtain ⟨k, hk'⟩ := ih (s := { s with
          total := s.total + 1
          sink := s.sink.accept (sampleWord (phaseAt s.latched.sr e.tone.f e.theta0 e.i))
          emitting := some { e with i := e.i + 1 } }) (e := { e with i := e.i + 1 }) (hu.of_eq rfl rfl rfl) rfl (by dsimp only; omega)
      (Sink.accepts_accept _ hk) (by rw [Sink.answerTo_accept]; exact hf)
    refine ⟨k, ?_⟩
    rw [hk', phase_list _ _ _ _ _ (by omega : e.i < e.n), List.take_succ_cons, Sink.acceptList_cons]
    have e1 : s.total + 1 + j = s.total + (j + 1) := by omega
    simp only [e1]
    rfl

/-- A state in which the sequencer is about to issue the tone `t`. -/
structure Issues (s : State) (t : Tone) : Prop where
  undisturbed : Undisturbed s
  emitting : s.emitting = none
  running : s.seq.stage.running = true
  tone : toneAt s = some t
  inside : readsInside s = true
  legal : t.legal = true
  rate : s.latched.sr ≠ 0

/-- The state after the tone `t` of position `SEQ`, before the advance. -/
def toneDone (t : Tone) (s : State) : State := leavePosition s.latched.mode s.seq (emitted t (enterPosition s.seq s))

theorem step_issue {s : State} {t : Tone} (h : Issues s t) : step s = .next (issueTone t s) := by
  rw [step_undisturbed h.undisturbed, sequencerStep]
  simp only [h.emitting, h.running, h.tone, h.inside, h.legal, if_neg h.rate, if_true]

/-- One tone, issued and emitted sample by sample, is the EMIT of R112 at its position, and then `SEQ` advances. -/
theorem run_tone {s : State} {t : Tone} (h : Issues s t) :
    ∃ k, Host.Core.run core k s = .next ((emitTone t (enterPosition s.seq s)).andThen
      fun s' => .on (advance (leavePosition s.latched.mode s.seq s'))).state := by
  have hs := step_issue h
  have finish : ∀ s' : State, s'.emitting = none → s'.latched = s.latched → s'.seq = s.seq → ∀ n θ m,
      finishTone t n θ { s' with emitting := m } = advance (leavePosition s.latched.mode s.seq (endTone t n θ s')) := by
    intro s' h1 h2 h3 n θ m
    cases s'
    simp only at h1 h2 h3
    subst h1 h2 h3
    rfl
  rcases emitTone_cases t (enterPosition s.seq s) with ⟨ha, he⟩ | ⟨j, hj, ha, hf, he⟩
  · rw [he, Flow.andThen_on, Flow.state_on]
    by_cases hn : segmentCount s.latched.sr t.d s.osc.carry = 0
    · refine run_step (hs.trans (congrArg _ ?_))
      have : issueTone t s = finishTone t 0 s.osc.ph (writeCarry t (enterPosition s.seq s)) := by
        unfold issueTone; simp only [hn, if_true]
      rw [this]
      have := finish (writeCarry t (enterPosition s.seq s)) h.emitting rfl rfl 0 s.osc.ph none
      have e : writeCarry t (enterPosition s.seq s)
          = { writeCarry t (enterPosition s.seq s) with emitting := none } := by
        have := h.emitting
        cases s
        simp only at this
        subst this
        rfl
      rw [e, this]
      congr 2
      simp only [emitted, enterPosition, hn, toneSamples, List.range_zero, List.map_nil, Sink.acceptList_nil, Nat.add_zero,
        endTone, writeCarry]
    · refine run_trans (run_step hs) ?_
      obtain ⟨m, hm⟩ := Nat.exists_eq_succ_of_ne_zero hn
      have hi : issueTone t s = { writeCarry t (enterPosition s.seq s) with
          emitting := some ⟨t, segmentCount s.latched.sr t.d s.osc.carry, 0, s.osc.ph⟩ } := by
        unfold issueTone; simp only [hn, if_false]
      rw [hi]
      obtain ⟨k, hk⟩ := run_emission_on m (s := { writeCarry t (enterPosition s.seq s) with
          emitting := some ⟨t, segmentCount s.latched.sr t.d s.osc.carry, 0, s.osc.ph⟩ })
        (h.undisturbed.of_eq rfl rfl rfl) rfl (by dsimp only; omega)
        (Sink.accepts_mono ha (by change m + 1 ≤ segmentCount s.latched.sr t.d s.osc.carry; omega))
      refine ⟨k, hk.trans (congrArg _ ?_)⟩
      have := finish { writeCarry t (enterPosition s.seq s) with
          total := s.total + (m + 1)
          sink := s.sink.acceptList (toneSamples s.latched.sr t.f s.osc.ph (segmentCount s.latched.sr t.d s.osc.carry)) }
        h.emitting rfl rfl (segmentCount s.latched.sr t.d s.osc.carry) s.osc.ph
        (some ⟨t, segmentCount s.latched.sr t.d s.osc.carry, 0 + m, s.osc.ph⟩)
      refine Eq.trans this ?_
      congr 2
      rw [← Nat.succ_eq_add_one m, ← hm]
      simp only [emitted, enterPosition, endTone, writeCarry]
  · rw [he, Flow.andThen_raised, Flow.state_raised]
    have hj' : j < segmentCount s.latched.sr t.d s.osc.carry := hj
    have hn : segmentCount s.latched.sr t.d s.osc.carry ≠ 0 := by omega
    refine run_trans (run_step hs) ?_
    have hi : issueTone t s = { writeCarry t (enterPosition s.seq s) with
        emitting := some ⟨t, segmentCount s.latched.sr t.d s.osc.carry, 0, s.osc.ph⟩ } := by
      unfold issueTone; simp only [hn, if_false]
    rw [hi]
    obtain ⟨k, hk⟩ := run_emission_raised j (s := { writeCarry t (enterPosition s.seq s) with
        emitting := some ⟨t, segmentCount s.latched.sr t.d s.osc.carry, 0, s.osc.ph⟩ })
      (h.undisturbed.of_eq rfl rfl rfl) rfl (by dsimp only; omega) ha hf
    exact ⟨k, hk⟩

/-! ### A tone program, tone by tone -/

theorem runProgram_seq (code : ModeCode) (e : Entry) (es : List Entry) (s : State) (q : Seq) :
    runProgram code (e :: es) { s with seq := q } = runProgram code (e :: es) s := rfl

/-- `J es s` says that the sequencer stands before the entries `es` in `s`. Where it follows them to the end, single
steps run the program as `runProgram` does. -/
theorem run_program (code : ModeCode) (J : List Entry → State → Prop) (fin : State → State)
    (issues : ∀ p t rest s, J ((p, t) :: rest) s → s.seq = p ∧ s.latched.mode = code ∧ Issues s t)
    (last : ∀ p t s, J [(p, t)] s → advance (toneDone t s) = fin (toneDone t s))
    (more : ∀ p t q u rest s, J ((p, t) :: (q, u) :: rest) s →
      advance (toneDone t s) = { toneDone t s with seq := q } ∧ J ((q, u) :: rest) (advance (toneDone t s))) :
    ∀ es s, es ≠ [] → J es s →
      ∃ k, Host.Core.run core k s = .next ((runProgram code es s).andThen fun s' => .on (fin s')).state := by
  intro es
  induction es with
  | nil => intro s h; exact absurd rfl h
  | cons e rest ih =>
    intro s _ hJ
    obtain ⟨p, t⟩ := e
    obtain ⟨hp, hc, hi⟩ := issues p t rest s hJ
    subst hp hc
    have h1 := run_tone hi
    rcases emitTone_cases t (enterPosition s.seq s) with ⟨_, he⟩ | ⟨j, _, _, _, he⟩
    · rw [he, Flow.andThen_on, Flow.state_on] at h1
      rw [runProgram, he, Flow.andThen_on]
      cases rest with
      | nil =>
        have := last _ t s hJ
        unfold toneDone at this
        rw [this] at h1
        exact h1
      | cons e2 rest =>
        obtain ⟨q, u⟩ := e2
        obtain ⟨ha, hJ'⟩ := more _ t q u rest s hJ
        have := ih _ (by simp) hJ'
        rw [ha, runProgram_seq] at this
        unfold toneDone at ha this
        rw [ha] at h1
        exact run_trans h1 this
    · rw [he, Flow.andThen_raised, Flow.state_raised] at h1
      rw [runProgram, he, Flow.andThen_raised, Flow.andThen_raised, Flow.state_raised]
      exact h1

end Sys2Proof.Machine
end

