-- ==== Sys2Proof/Laws/Stages.lean ====
section
/-! SUPPORT. The stages of an encode by single steps: the VIS header with its preamble (R229), the body (R230) and the end of
transmission (R231), each equal to its operation. -/

namespace Sys2Proof.Machine

/-- What a stage needs of the state it starts in. -/
structure Ready (code : ModeCode) (s : State) : Prop where
  undisturbed : Undisturbed s
  emitting : s.emitting = none
  mode : s.latched.mode = code
  rate : s.latched.sr ≠ 0

theorem Ready.toneDone {code : ModeCode} {s : State} (h : Ready code s) (t : Tone) : Ready code (toneDone t s) :=
  ⟨h.undisturbed.of_eq rfl rfl rfl, h.emitting, h.mode, h.rate⟩

theorem Ready.of_eq {code : ModeCode} {s t : State} (h : Ready code s) (hp : t.pins = s.pins) (hi : t.inputs = s.inputs)
    (hu : t.issue = s.issue) (he : t.emitting = s.emitting) (hl : t.latched = s.latched) : Ready code t :=
  ⟨h.undisturbed.of_eq hp hi hu, he.trans h.emitting, by rw [hl]; exact h.mode, by rw [hl]; exact h.rate⟩

/-! ### The end of transmission -/

/-- By single steps from its first position, the end of transmission is EOT (R231). -/
theorem run_eot {code : ModeCode} {s : State} (h : Ready code s) (hs : s.seq = ⟨.eot, 0, 0, 0, 0⟩) :
    ∃ k, Host.Core.run core k s = .next ((runProgram code eotProgram s).andThen fun s' => .on (complete s')).state := by
  refine run_program code
    (fun es s => Ready code s ∧ ∃ i, i < 5 ∧ es = eotProgram.drop i ∧ s.seq = ⟨.eot, i, 0, 0, 0⟩) complete
    ?_ ?_ ?_ eotProgram s (by decide) ⟨h, 0, by omega, rfl, hs⟩
  · rintro p t rest s ⟨hr, i, hi, he, hp⟩
    have : p = ⟨.eot, i, 0, 0, 0⟩ ∧ eotTone i = some t ∧ t.legal = true := by
      rcases (by omega : i = 0 ∨ i = 1 ∨ i = 2 ∨ i = 3 ∨ i = 4) with rfl | rfl | rfl | rfl | rfl <;>
        · simp only [eotProgram, numbered, eotTones, List.zipIdx_cons, List.zipIdx_nil, List.map_cons, List.map_nil,
            List.drop_succ_cons, List.drop_zero, List.cons.injEq, Prod.mk.injEq] at he
          obtain ⟨⟨rfl, rfl⟩, _⟩ := he
          exact ⟨rfl, rfl, by decide⟩
    refine ⟨hp.trans this.1.symm, hr.mode, hr.undisturbed, hr.emitting, ?_, ?_, ?_, this.2.2, hr.rate⟩
    · rw [hp]; rfl
    · simp only [toneAt, hp]; exact this.2.1
    · simp only [readsInside, hp]
  · rintro p t s ⟨hr, i, hi, he, hp⟩
    have hi4 : i = 4 := by
      have := congrArg List.length he
      rw [List.length_drop] at this
      have h5 : eotProgram.length = 5 := rfl
      simp only [List.length_cons, List.length_nil, h5] at this
      omega
    subst hi4
    have e : (toneDone t s).seq = ⟨.eot, 4, 0, 0, 0⟩ := hp
    simp only [advance, e]
    rfl
  · rintro p t q u rest s ⟨hr, i, hi, he, hp⟩
    have h5 : eotProgram.length = 5 := rfl
    have hi4 : i + 1 < 5 := by
      have := congrArg List.length he
      rw [List.length_drop, h5] at this
      simp only [List.length_cons] at this
      omega
    have e : (toneDone t s).seq = ⟨.eot, i, 0, 0, 0⟩ := hp
    have hd : eotProgram.drop (i + 1) = (q, u) :: rest := by
      have := congrArg (List.drop 1) he
      rw [List.drop_drop, List.drop_succ_cons, List.drop_zero] at this
      rw [← this]
    have hq : q = ⟨.eot, i + 1, 0, 0, 0⟩ := by
      rcases (by omega : i = 0 ∨ i = 1 ∨ i = 2 ∨ i = 3) with rfl | rfl | rfl | rfl <;>
        · simp only [eotProgram, numbered, eotTones, List.zipIdx_cons, List.zipIdx_nil, List.map_cons, List.map_nil,
            List.drop_succ_cons, List.drop_zero, List.cons.injEq, Prod.mk.injEq] at hd
          exact hd.1.1.symm
    have ha : advance (toneDone t s) = { toneDone t s with seq := q } := by
      simp only [advance, e, if_pos (by omega : i < 4), hq]
    refine ⟨ha, ?_⟩
    rw [ha]
    exact ⟨(hr.toneDone t).of_eq rfl rfl rfl rfl rfl, i + 1, hi4, hd.symm, hq⟩

/-! ### The body -/

theorem modeOfCode_code (m : Mode) : modeOfCode m.code = some m := by cases m <;> decide

theorem modeOfCode_some {c : ModeCode} {m : Mode} (h : modeOfCode c = some m) : c = m.code := by
  unfold modeOfCode at h
  split_ifs at h with h1 h2 h3 <;> cases h <;> assumption

theorem hasPosition_iff (m : Mode) (p : Seq) : m.hasPosition p = true ↔
    p.k = 0 ∧ p.row < m.rows ∧ p.row % m.rowStep = 0 ∧ p.slot ≤ m.lastSlot ∧ p.x < m.slotTones p.slot ∧
      (m.loopSlot ≤ p.slot ∨ p.row = 0) := by
  simp [Mode.hasPosition, and_assoc]

theorem slotTones_le_width (m : Mode) (slot : Nat) : m.slotTones slot ≤ m.width := by
  unfold Mode.slotTones
  split <;> first | decide | (cases m <;> decide)

theorem lastRowRead_lt {m : Mode} {p : Seq} (h : m.hasPosition p = true) : m.lastRowRead p < m.rows := by
  rw [hasPosition_iff] at h
  obtain ⟨_, h1, h2, _⟩ := h
  cases m <;> simp only [Mode.lastRowRead, Mode.rows, Mode.rowStep, pairRow] at * <;> (try split) <;> omega

/-- Every pixel a body position reads is inside a buffer of at least the mode's size (R186, R201, R216). -/
theorem readsInside_of {m : Mode} {s : State} (hm : s.latched.mode = m.code) (hw : m.width ≤ s.latched.w.toNat)
    (hh : m.rows ≤ s.latched.h.toNat) (hp : s.seq.stage = .body) (h : m.hasPosition s.seq = true) :
    readsInside s = true := by
  have h1 := lastRowRead_lt h
  have h2 := slotTones_le_width m s.seq.slot
  rw [hasPosition_iff] at h
  have hx : s.seq.x < s.latched.w.toNat := by omega
  have hy : m.lastRowRead s.seq < s.latched.h.toNat := by omega
  simp [readsInside, hp, hm, modeOfCode_code, insideBuffer, hx, hy]

/-- The advance of a body position: to a body position that exists, or to the end of transmission (R190, R204, R219). -/
theorem nextPosition_has {m : Mode} {p : Seq} (hs : p.stage = .body) (h : m.hasPosition p = true) :
    ((m.nextPosition p).stage = .body ∧ m.hasPosition (m.nextPosition p) = true) ∨
      m.nextPosition p = ⟨.eot, 0, 0, 0, 0⟩ := by
  rw [hasPosition_iff] at h
  obtain ⟨h1, h2, h3, h4, h5, h6⟩ := h
  have slots : ∀ slot, 0 < m.slotTones slot := fun slot => by unfold Mode.slotTones; split <;> decide
  unfold Mode.nextPosition
  split
  · exact .inl ⟨hs, (hasPosition_iff _ _).2 ⟨h1, h2, h3, h4, by assumption, h6⟩⟩
  · split
    · exact .inl ⟨hs, (hasPosition_iff _ _).2 ⟨h1, h2, h3, by dsimp only; omega, slots _, by dsimp only; omega⟩⟩
    · split
      · rename_i h7
        refine .inl ⟨hs, (hasPosition_iff _ _).2 ⟨h1, h7, ?_, ?_, slots _, .inl le_rfl⟩⟩
        · show (p.row + m.rowStep) % m.rowStep = 0
          rw [Nat.add_mod_right]; exact h3
        · show m.loopSlot ≤ m.lastSlot
          cases m <;> decide
      · exact .inr rfl

theorem running_iff (g : Stage) : g.running = true ↔ g = .pre ∨ g = .vis ∨ g = .body ∨ g = .eot := by cases g <;> decide

/-- The tone at `SEQ` depends on the position, the parameters, the latched operands and the buffer, and at the parity slot on
the count of ones (R30). -/
theorem toneAt_congr {s t : State} (h1 : t.seq = s.seq) (h2 : t.params = s.params) (h3 : t.latched = s.latched)
    (h4 : s.seq.stage = .vis → s.seq.k = 19 → t.visOnes = s.visOnes) (h5 : t.pix = s.pix) : toneAt t = toneAt s := by
  unfold toneAt
  rw [h1, h2, h3]
  cases hs : s.seq.stage <;> dsimp only
  · have : ∀ k a b, (k = 19 → a = b) → visTone s.latched.mode a k = visTone s.latched.mode b k := by
      intro k a b h
      by_cases hk : k = 19
      · rw [h hk]
      · unfold visTone; split <;> first | rfl | exact absurd rfl hk
    exact this _ _ _ (fun hk => h4 hs hk)
  · cases modeOfCode s.latched.mode with
    | none => rfl
    | some m => dsimp only; rw [m.tone_congr h5 h3]

/-- By single steps from its first position, the body of a mode is its scan (R230). -/
theorem run_body {m : Mode} {s : State} (h : Ready m.code s) (hs : s.seq = ⟨.body, 0, 0, 0, 0⟩)
    (hw : m.width ≤ s.latched.w.toNat) (hh : m.rows ≤ s.latched.h.toNat) :
    ∃ k, Host.Core.run core k s = .next
      ((runProgram m.code (m.program s) s).andThen fun s' => .on (handOver .eot s')).state := by
  have nonempty : m.program s ≠ [] := by
    intro e
    have := m.program_walks s
    rw [e] at this
    cases this
  have key : ∀ (t : State), t.seq.stage = .body → t.latched.mode = m.code → advance t
      = { t with seq := m.nextPosition t.seq } := by
    intro t h1 h2
    simp only [advance, h1, h2, modeOfCode_code]
  refine run_program m.code
    (fun es t => Ready m.code t ∧ t.pix = s.pix ∧ t.latched = s.latched ∧ m.Walks s t.seq es ⟨.eot, 0, 0, 0, 0⟩)
    (handOver .eot) ?_ ?_ ?_ (m.program s) s nonempty ⟨h, rfl, rfl, by rw [hs]; exact m.program_walks s⟩
  · rintro p t rest u ⟨hr, hp, hl, hk⟩
    generalize hq : u.seq = r at hk
    cases hk with
    | cons h1 h2 h3 h4 =>
      subst hq
      refine ⟨rfl, hr.mode, hr.undisturbed, hr.emitting, ?_, ?_, ?_, ?_, hr.rate⟩
      · rw [h1]; rfl
      · simp only [toneAt, h1, hr.mode, modeOfCode_code, h2, if_true]
        rw [h3, m.tone_congr hp hl]
      · exact readsInside_of hr.mode (by rw [hl]; exact hw) (by rw [hl]; exact hh) h1 h2
      · rw [h3]; exact m.tone_legal s _
  · rintro p t u ⟨hr, hp, hl, hk⟩
    generalize hq : u.seq = r at hk
    cases hk with
    | cons h1 h2 h3 h4 =>
      subst hq
      rw [key (toneDone t u) h1 hr.mode]
      generalize hn : m.nextPosition u.seq = n at h4
      cases h4
      have : m.nextPosition (toneDone t u).seq = ⟨.eot, 0, 0, 0, 0⟩ := hn
      rw [this]
      rfl
  · rintro p t q v rest u ⟨hr, hp, hl, hk⟩
    generalize hq : u.seq = r at hk
    cases hk with
    | cons h1 h2 h3 h4 =>
      subst hq
      have hn : m.nextPosition (toneDone t u).seq = q := by
        generalize hn : m.nextPosition u.seq = n at h4
        cases h4
        exact hn
      have ha := key (toneDone t u) h1 hr.mode
      rw [hn] at ha
      refine ⟨ha, ?_⟩
      rw [ha]
      refine ⟨(hr.toneDone t).of_eq rfl rfl rfl rfl rfl, hp, hl, ?_⟩
      have e : m.nextPosition u.seq = q := hn
      rw [e] at h4
      exact h4

/-! ### The VIS header -/

theorem numbered_length (stage : Stage) (ts : List Tone) : (numbered stage ts).length = ts.length := by simp [numbered]

theorem numbered_getElem (stage : Stage) (ts : List Tone) (i : Nat) (h : i < (numbered stage ts).length) :
    (numbered stage ts)[i] = (⟨stage, i, 0, 0, 0⟩, ts[i]'(by rwa [numbered_length] at h)) := by
  simp [numbered]

/-- The tone of every VIS slot, with the count of ones at slot 19 (R162 to R166). -/
theorem visTone_eq (code : ModeCode) (ones k : Nat) (h : k < (visTones code).length)
    (ho : k = 19 → ones = onesBelow code 7) : visTone code ones k = some (visTones code)[k] := by
  rw [(visTones_size code).1] at h
  rcases Nat.lt_or_ge k 19 with hk | hk
  · interval_cases k <;> rfl
  · obtain rfl | rfl : k = 19 ∨ k = 20 := by omega
    · rw [ho rfl]; rfl
    · rfl

theorem onesBelow_succ (code : ModeCode) (n : Nat) :
    onesBelow code (n + 1) = onesBelow code n + if code.getLsbD n then 1 else 0 := rfl

/-- Position `i` of the VIS program. -/
def visPosition (p : Params) (i : Nat) : Seq :=
  if i < p.preamble.length then ⟨.pre, i, 0, 0, 0⟩ else ⟨.vis, i - p.preamble.length, 0, 0, 0⟩

theorem visProgram_length (p : Params) (code : ModeCode) :
    (visProgram p code).length = p.preamble.length + 21 := by
  rw [visProgram, List.length_append, numbered_length, numbered_length, (visTones_size code).1]

theorem visProgram_pre (p : Params) (code : ModeCode) (i : Nat) (h : i < p.preamble.length) (e : Entry)
    (he : (visProgram p code)[i]? = some e) : e = (⟨.pre, i, 0, 0, 0⟩, p.preamble[i]) := by
  rw [visProgram, List.getElem?_append_left (by rw [numbered_length]; exact h),
    List.getElem?_eq_getElem (by rw [numbered_length]; exact h), numbered_getElem] at he
  exact (Option.some.inj he).symm

theorem visProgram_vis (p : Params) (code : ModeCode) (k : Nat) (h : k < (visTones code).length) (e : Entry)
    (he : (visProgram p code)[p.preamble.length + k]? = some e) : e = (⟨.vis, k, 0, 0, 0⟩, (visTones code)[k]) := by
  rw [visProgram, List.getElem?_append_right (by rw [numbered_length]; omega), numbered_length,
    Nat.add_sub_cancel_left, List.getElem?_eq_getElem (by rw [numbered_length]; exact h), numbered_getElem] at he
  exact (Option.some.inj he).symm

/-- By single steps from its first position, the VIS header is ENCODE_VIS (R229). -/
theorem run_vis {code : ModeCode} {s : State} (h : Ready code s) (hs : s.seq = Seq.first s.params)
    (hl : s.params.preamble.all Tone.legal = true) :
    ∃ k, Host.Core.run core k s = .next
      ((runProgram code (visProgram s.params code) s).andThen fun s' => .on (handOver .body s')).state := by
  have h21 := (visTones_size code).1
  have nonempty : visProgram s.params code ≠ [] := by
    intro e
    have := visProgram_length s.params code
    rw [e] at this
    simp at this
  refine run_program code
    (fun es t => Ready code t ∧ t.params = s.params ∧ ∃ i, i < s.params.preamble.length + 21 ∧
      es = (visProgram s.params code).drop i ∧ t.seq = visPosition s.params i ∧
      (s.params.preamble.length + 12 < i → t.visOnes = onesBelow code (min (i - s.params.preamble.length - 12) 7)))
    (handOver .body) ?_ ?_ ?_ (visProgram s.params code) s nonempty
    ⟨h, rfl, 0, by omega, rfl, ?_, fun h => by omega⟩
  · rintro p t rest u ⟨hr, hpar, i, hi, he, hp, ho⟩
    have hg : (visProgram s.params code)[i]? = some (p, t) := by
      rw [← List.head?_drop, ← he]; rfl
    rcases Nat.lt_or_ge i s.params.preamble.length with hlt | hge
    · have hpt := visProgram_pre s.params code i hlt (p, t) hg
      simp only [Prod.mk.injEq] at hpt
      rw [visPosition, if_pos hlt] at hp
      refine ⟨hp.trans hpt.1.symm, hr.mode, hr.undisturbed, hr.emitting, ?_, ?_, ?_, ?_, hr.rate⟩
      · rw [hp]; rfl
      · simp only [toneAt, hp, hpar]
        rw [List.getElem?_eq_getElem hlt, hpt.2]
      · simp only [readsInside, hp]
      · rw [hpt.2]
        exact List.all_eq_true.1 hl _ (List.getElem_mem hlt)
    · obtain ⟨k, rfl⟩ := Nat.exists_eq_add_of_le hge
      have hk : k < (visTones code).length := by omega
      have hpt := visProgram_vis s.params code k hk (p, t) hg
      simp only [Prod.mk.injEq] at hpt
      rw [visPosition, if_neg (by omega), Nat.add_sub_cancel_left] at hp
      refine ⟨hp.trans hpt.1.symm, hr.mode, hr.undisturbed, hr.emitting, ?_, ?_, ?_, ?_, hr.rate⟩
      · rw [hp]; rfl
      · simp only [toneAt, hp, hr.mode]
        rw [visTone_eq code _ k hk ?_, hpt.2]
        rintro rfl
        have := ho (by omega)
        rw [Nat.add_sub_cancel_left] at this
        exact this
      · simp only [readsInside, hp]
      · rw [hpt.2]
        exact List.all_eq_true.1 (visTones_legal code) _ (List.getElem_mem hk)
  · rintro p t u ⟨hr, hpar, i, hi, he, hp, ho⟩
    have hi' : i = s.params.preamble.length + 20 := by
      have := congrArg List.length he
      rw [List.length_drop, visProgram_length] at this
      simp only [List.length_cons, List.length_nil] at this
      omega
    subst hi'
    rw [visPosition, if_neg (by omega), Nat.add_sub_cancel_left] at hp
    have e : (toneDone t u).seq = ⟨.vis, 20, 0, 0, 0⟩ := hp
    simp only [advance, e]
    rfl
  · rintro p t q v rest u ⟨hr, hpar, i, hi, he, hp, ho⟩
    have hi' : i + 1 < s.params.preamble.length + 21 := by
      have := congrArg List.length he
      rw [List.length_drop, visProgram_length] at this
      simp only [List.length_cons] at this
      omega
    have hd : (visProgram s.params code).drop (i + 1) = (q, v) :: rest := by
      have := congrArg (List.drop 1) he
      rw [List.drop_drop, List.drop_succ_cons, List.drop_zero] at this
      rw [← this]
    have hg : (visProgram s.params code)[i + 1]? = some (q, v) := by
      rw [← List.head?_drop, hd]; rfl
    have hq : q = visPosition s.params (i + 1) := by
      rcases Nat.lt_or_ge (i + 1) s.params.preamble.length with hlt | hge
      · have := visProgram_pre s.params code (i + 1) hlt _ hg
        simp only [Prod.mk.injEq] at this
        rw [visPosition, if_pos hlt, this.1]
      · obtain ⟨k, hk⟩ := Nat.exists_eq_add_of_le hge
        rw [hk] at hg
        have := visProgram_vis s.params code k (by omega) _ hg
        simp only [Prod.mk.injEq] at this
        rw [visPosition, if_neg (by omega), this.1, hk, Nat.add_sub_cancel_left]
    have ha : advance (toneDone t u) = { toneDone t u with seq := q } := by
      have e : (toneDone t u).seq = visPosition s.params i := hp
      have e2 : (toneDone t u).params = s.params := hpar
      rw [hq]
      unfold visPosition at e ⊢
      split at e
      · rename_i hlt
        simp only [advance, e, e2]
        split
        · rfl
        · rename_i hge
          have : i + 1 - s.params.preamble.length = 0 := by omega
          rw [this, ← hpar]; rfl
      · rename_i hge
        simp only [advance, e]
        rw [if_pos (by omega), if_neg (by omega)]
        have : i - s.params.preamble.length + 1 = i + 1 - s.params.preamble.length := by omega
        rw [this]
    refine ⟨ha, ?_⟩
    rw [ha]
    refine ⟨(hr.toneDone t).of_eq rfl rfl rfl rfl rfl, hpar, i + 1, hi', hd.symm, hq, fun h12 => ?_⟩
    obtain ⟨k, rfl⟩ := Nat.exists_eq_add_of_le (by omega : s.params.preamble.length ≤ i)
    rw [visPosition, if_neg (by omega), Nat.add_sub_cancel_left] at hp
    have hone : s.params.preamble.length + 12 < s.params.preamble.length + k →
        u.visOnes = onesBelow code (min (k - 12) 7) := by
      intro h; have := ho h; rwa [Nat.add_sub_cancel_left] at this
    change (toneDone t u).visOnes = _
    have e3 : s.params.preamble.length + k + 1 - s.params.preamble.length - 12 = k - 12 + 1 := by omega
    rw [e3]
    simp only [toneDone, leavePosition_visOnes, emitted_visOnes, enterPosition_visOnes, hp, hr.mode, true_and]
    rcases Nat.lt_or_ge 18 k with hk | hk
    · rw [if_neg (by omega), if_neg (by omega), hone (by omega)]
      congr 1; omega
    · obtain ⟨j, rfl⟩ := Nat.exists_eq_add_of_le (by omega : 12 ≤ k)
      rw [Nat.add_sub_cancel_left, Nat.min_eq_left (by omega), onesBelow_succ]
      have hbase : (if 12 + j = 12 then 0 else u.visOnes) = onesBelow code j := by
        split
        · have : j = 0 := by omega
          subst this; rfl
        · rw [hone (by omega), Nat.add_sub_cancel_left, Nat.min_eq_left (by omega)]
      rw [hbase]
      by_cases hb : code.getLsbD j = true
      · rw [if_pos ⟨by omega, by omega, hb⟩, if_pos hb]
      · rw [if_neg (fun h => hb h.2.2), if_neg hb, Nat.add_zero]
  · rw [hs]
    unfold Seq.first visPosition
    by_cases hp : s.params.preamble = []
    · simp [hp]
    · have : 0 < s.params.preamble.length := List.length_pos_of_ne_nil hp
      simp [hp, this]

end Sys2Proof.Machine
end

