-- ==== Sys2Proof/Laws/Command.lean ====
section
/-! SUPPORT. Command acceptance, said once: what the port's command does in each of its cases (R225, R226, R256). -/

namespace Sys2Proof.Machine

theorem Mode.exec_command (m : Mode) (s : State) : exec m.command s = acceptCommand m.code s := by cases m <;> rfl

theorem decodeCommand_code (m : Mode) : decodeCommand m.code = m.command := by cases m <;> decide

/-- The operation a command decodes to is its acceptance, whatever its code. -/
theorem exec_decodeCommand (c : ModeCode) (s : State) : exec (decodeCommand c) s = acceptCommand c s := by
  unfold decodeCommand
  split
  · rename_i h; subst h; rfl
  · split
    · rename_i h; subst h; rfl
    · split
      · rename_i h; subst h; rfl
      · rfl

theorem acceptCommand_busy {c : ModeCode} {s : State} (h : s.status.busy = true) : acceptCommand c s = .next s := by
  simp only [acceptCommand, h, if_true]

theorem acceptCommand_unsupported {c : ModeCode} {s : State} (h : s.status.busy = false) (hc : modeOfCode c = none) :
    acceptCommand c s = .next (faultEntry .unsupportedMode (latchCommand c s)) := by
  simp [acceptCommand, h, hc]

theorem acceptCommand_geometry {m : Mode} {s : State} (h : s.status.busy = false)
    (hg : ¬ (s.pins.imgWidth.toNat = m.width ∧ s.pins.imgHeight.toNat = m.rows)) :
    acceptCommand m.code s = .next (faultEntry .invalidGeometry (latchCommand m.code s)) := by
  simp [acceptCommand, h, modeOfCode_code, hg]

theorem acceptCommand_zero {m : Mode} {s : State} (h : s.status.busy = false)
    (hw : s.pins.imgWidth.toNat = m.width) (hh : s.pins.imgHeight.toNat = m.rows) (hr : s.pins.cfgSampleRate = 0) :
    acceptCommand m.code s = .refused .sampleRateZero := by
  simp [acceptCommand, h, modeOfCode_code, hw, hh, hr]

theorem acceptCommand_starts {m : Mode} {s : State} (h : s.status.busy = false)
    (hw : s.pins.imgWidth.toNat = m.width) (hh : s.pins.imgHeight.toNat = m.rows) (hr : s.pins.cfgSampleRate ≠ 0) :
    acceptCommand m.code s = .next (startSynthesis (latchCommand m.code s)) := by
  have : ¬ s.pins.cfgSampleRate = 0#32 := hr
  simp [acceptCommand, h, modeOfCode_code, hw, hh, this]

/-- The five cases of a command at the port. -/
theorem acceptCommand_cases (c : ModeCode) (s : State) :
    (s.status.busy = true ∧ acceptCommand c s = .next s) ∨
    (s.status.busy = false ∧ modeOfCode c = none ∧
      acceptCommand c s = .next (faultEntry .unsupportedMode (latchCommand c s))) ∨
    ∃ m : Mode, c = m.code ∧ s.status.busy = false ∧
      ((¬ (s.pins.imgWidth.toNat = m.width ∧ s.pins.imgHeight.toNat = m.rows) ∧
          acceptCommand c s = .next (faultEntry .invalidGeometry (latchCommand c s))) ∨
        (s.pins.imgWidth.toNat = m.width ∧ s.pins.imgHeight.toNat = m.rows ∧
          ((s.pins.cfgSampleRate = 0 ∧ acceptCommand c s = .refused .sampleRateZero) ∨
            (s.pins.cfgSampleRate ≠ 0 ∧ acceptCommand c s = .next (startSynthesis (latchCommand c s)))))) := by
  cases hb : s.status.busy
  · right
    cases hm : modeOfCode c with
    | none => exact .inl ⟨rfl, rfl, acceptCommand_unsupported hb hm⟩
    | some m =>
      right
      refine ⟨m, modeOfCode_some hm, rfl, ?_⟩
      rw [modeOfCode_some hm]
      by_cases hg : s.pins.imgWidth.toNat = m.width ∧ s.pins.imgHeight.toNat = m.rows
      · right
        refine ⟨hg.1, hg.2, ?_⟩
        by_cases hr : s.pins.cfgSampleRate = 0
        · exact .inl ⟨hr, acceptCommand_zero hb hg.1 hg.2 hr⟩
        · exact .inr ⟨hr, acceptCommand_starts hb hg.1 hg.2 hr⟩
      · exact .inl ⟨hg, acceptCommand_geometry hb hg⟩
  · exact .inl ⟨rfl, acceptCommand_busy hb⟩

/-- The three codes are the modes (R77, R88). -/
theorem modeOfCode_none {c : ModeCode} (h1 : c ≠ 0b1001100#7) (h2 : c ≠ 0b1011111#7) (h3 : c ≠ 0b0001000#7) :
    modeOfCode c = none := by
  unfold modeOfCode Mode.code
  simp only [if_neg h1, if_neg h2, if_neg h3]

end Sys2Proof.Machine
end

