-- ==== Sys2Proof/Laws/Decode.lean ====
section
/-! SUPPORT. The decoder, said once: what each group of operands gives, and what a word of format `UOP` can decode to. -/

namespace Sys2Proof

theorem decodeOperands_ok {code : Uop} {o : Option Instr} {i : Instr} (h : decodeOperands code o = .ok i) : o = some i := by
  cases o with
  | none => cases h
  | some j => injection h with h; rw [h]

theorem noOperands_some {i j : Instr} {args : List Operand} (h : noOperands j args = some i) : i = j ∧ args = [] := by
  unfold noOperands at h; split at h <;> cases h; exact ⟨rfl, rfl⟩

theorem oneRational_some {i : Instr} {f : Rat → Instr} {args : List Operand} (h : oneRational f args = some i) :
    ∃ a, i = f a ∧ args = [.rat a] := by
  unfold oneRational at h; split at h <;> cases h; exact ⟨_, rfl, rfl⟩

theorem twoRationals_some {i : Instr} {f : Rat → Rat → Instr} {args : List Operand} (h : twoRationals f args = some i) :
    ∃ a b, i = f a b ∧ args = [.rat a, .rat b] := by
  unfold twoRationals at h; split at h <;> cases h; exact ⟨_, _, rfl, rfl⟩

theorem oneSample_some {i : Instr} {f : Sample → Instr} {args : List Operand} (h : oneSample f args = some i) :
    ∃ v, i = f v ∧ args = [.sample v] := by
  unfold oneSample at h; split at h <;> cases h; exact ⟨_, rfl, rfl⟩

theorem oneCode_some {i : Instr} {f : ModeCode → Instr} {args : List Operand} (h : oneCode f args = some i) :
    ∃ c, i = f c ∧ args = [.code c] := by
  unfold oneCode at h; split at h <;> cases h; exact ⟨_, rfl, rfl⟩

theorem channelAt_some {i : Instr} {f : Channel → Nat → Nat → Instr} {args : List Operand}
    (h : channelAt f args = some i) : ∃ sel x y, i = f sel x y ∧ args = [.channel sel, .coord x, .coord y] := by
  unfold channelAt at h; split at h <;> cases h; exact ⟨_, _, _, rfl, rfl⟩

/-- What a `UOP` word can decode to (R80). -/
theorem decodeUop_cases {code : Uop} {args : List Operand} {i : Instr} (h : decodeUop code args = .ok i) :
    (code = 0b0000#4 ∧ i = .oscReset ∧ args = []) ∨
    (code = 0b0001#4 ∧ ∃ f d, i = decodeTone f d ∧ args = [.rat f, .rat d]) ∨
    (code = 0b0010#4 ∧ ∃ v, i = .push v ∧ args = [.sample v]) ∨
    (code = 0b0011#4 ∧ ∃ a b, i = .avg2 a b ∧ args = [.rat a, .rat b]) ∨
    (code = 0b0100#4 ∧ ∃ a, i = .fmap a ∧ args = [.rat a]) ∨
    (code = 0b0101#4 ∧ ∃ c, i = .encodeVis c ∧ args = [.code c]) ∨
    (code = 0b0110#4 ∧ i = .scanSdx ∧ args = []) ∨
    (code = 0b0111#4 ∧ i = .scanPd120 ∧ args = []) ∨
    (code = 0b1000#4 ∧ i = .scanR36 ∧ args = []) ∨
    (code = 0b1001#4 ∧ i = .eot ∧ args = []) ∨
    (code = 0b1010#4 ∧ ∃ sel x y, i = decodeChannel sel x y ∧ args = [.channel sel, .coord x, .coord y]) := by
  unfold decodeUop at h
  by_cases h0 : code = 0b0000#4
  · rw [if_pos h0] at h; exact .inl ⟨h0, noOperands_some (decodeOperands_ok h)⟩
  rw [if_neg h0] at h; right
  by_cases h1 : code = 0b0001#4
  · rw [if_pos h1] at h; exact .inl ⟨h1, twoRationals_some (decodeOperands_ok h)⟩
  rw [if_neg h1] at h; right
  by_cases h2 : code = 0b0010#4
  · rw [if_pos h2] at h; exact .inl ⟨h2, oneSample_some (decodeOperands_ok h)⟩
  rw [if_neg h2] at h; right
  by_cases h3 : code = 0b0011#4
  · rw [if_pos h3] at h; exact .inl ⟨h3, twoRationals_some (decodeOperands_ok h)⟩
  rw [if_neg h3] at h; right
  by_cases h4 : code = 0b0100#4
  · rw [if_pos h4] at h; exact .inl ⟨h4, oneRational_some (decodeOperands_ok h)⟩
  rw [if_neg h4] at h; right
  by_cases h5 : code = 0b0101#4
  · rw [if_pos h5] at h; exact .inl ⟨h5, oneCode_some (decodeOperands_ok h)⟩
  rw [if_neg h5] at h; right
  by_cases h6 : code = 0b0110#4
  · rw [if_pos h6] at h; exact .inl ⟨h6, noOperands_some (decodeOperands_ok h)⟩
  rw [if_neg h6] at h; right
  by_cases h7 : code = 0b0111#4
  · rw [if_pos h7] at h; exact .inl ⟨h7, noOperands_some (decodeOperands_ok h)⟩
  rw [if_neg h7] at h; right
  by_cases h8 : code = 0b1000#4
  · rw [if_pos h8] at h; exact .inl ⟨h8, noOperands_some (decodeOperands_ok h)⟩
  rw [if_neg h8] at h; right
  by_cases h9 : code = 0b1001#4
  · rw [if_pos h9] at h; exact .inl ⟨h9, noOperands_some (decodeOperands_ok h)⟩
  rw [if_neg h9] at h; right
  by_cases h10 : code = 0b1010#4
  · rw [if_pos h10] at h; exact ⟨h10, channelAt_some (decodeOperands_ok h)⟩
  rw [if_neg h10] at h; cases h

/-- A selector decodes to its channel's operation, whose word it is (R78, R89). -/
theorem decodeChannel_word (sel : Channel) (x y : Nat) :
    (decodeChannel sel x y).wf = true ∧ encode (decodeChannel sel x y) = .ch sel x y := by
  unfold decodeChannel
  split_ifs <;> (try subst_vars) <;> first | exact ⟨rfl, rfl⟩ | skip
  refine ⟨rfl, ?_⟩
  show IssueWord.ch _ _ _ = _
  congr 1
  have : sel = 6#3 ∨ sel = 7#3 := by bv_omega
  rcases this with rfl | rfl <;> rfl

end Sys2Proof
end

