-- ==== Sys2Proof/Laws/Encode.lean ====
section
/-! SUPPORT. The run of an accepted command by single steps: its stages composed, with its counts (R127, R227, R236). -/

namespace Sys2Proof.Machine

theorem preamble_legal {ts : List Tone} (h : ∀ t ∈ ts, 0 ≤ t.f ∧ 0 < t.d) : ts.all Tone.legal = true :=
  List.all_eq_true.2 fun t ht => (legal_iff t).2 (h t ht)

/-- The tones of a whole encode. -/
def encodeTones (m : Mode) (s : State) : List Tone := s.params.preamble ++ visTones m.code ++ scanTones m s ++ eotTones

/-- The duration of a body (R187, R202, R217). -/
theorem scan_duration (m : Mode) (s : State) : nominalDuration (scanTones m s) = m.duration - 1710 - 900 := by
  rw [← m.program_tones]
  cases m
  · exact (sdxProgram_size s).2.trans (by norm_num [Mode.duration])
  · exact (pdProgram_size s).2.trans (by norm_num [Mode.duration])
  · exact (r36Program_size s).2.trans (by norm_num [Mode.duration])

theorem scanTones_congr (m : Mode) {s t : State} (hp : t.pix = s.pix) (hl : t.latched = s.latched) :
    scanTones m t = scanTones m s := by
  cases m <;> simp only [scanTones, redAt, greenAt, blueAt, lumaAt, redChromaAt, blueChromaAt, pixelByte, hp, hl]

/-- How the run of an accepted command ends. -/
inductive Ends (m : Mode) (u v : State) : Prop where
  | done (env : KeptByProgram u v) (stage : v.seq.stage = .done) (status : v.status = ⟨false, true, 0⟩)
      (total : v.total = emittedCount u.latched.sr 0 (encodeTones m u))
      (carry : v.osc.carry = frac (samplesDue u.latched.sr 0 (encodeTones m u)))
      (result : v.result = v.total)
      (sink : ∃ vs : List Sample, vs.length = v.total ∧ v.sink = u.sink.acceptList vs)
  | fault (env : KeptByProgram u v) (stage : v.seq.stage = .fault) (status : v.status = Status.faulted .sinkWriteFailure)
      (sink : ∃ vs : List Sample, vs.length = v.total ∧ v.sink = (u.sink.acceptList vs).refuse)
      (notAll : ¬ u.sink.acceptsAll)

theorem samplesDue_append (sr : BitVec 32) (c : ℚ) (ts us : List Tone) :
    samplesDue sr c (ts ++ us) = samplesDue sr c ts + targetCount sr (nominalDuration us) := by
  unfold samplesDue; rw [nominalDuration_append, targetCount_add]; ring

/-- Counts and carry of one list of tones after another (R127). -/
theorem emitted_append {sr : BitVec 32} {c : ℚ} {ts us : List Tone} (ht : ts.all Tone.legal = true) (hu : us.all Tone.legal = true)
    (h0 : 0 ≤ c) : emittedCount sr c (ts ++ us) = emittedCount sr c ts + emittedCount sr (frac (samplesDue sr c ts)) us ∧
    frac (samplesDue sr c (ts ++ us)) = frac (samplesDue sr (frac (samplesDue sr c ts)) us) := by
  have hn := samplesDue_nonneg (sr := sr) ht h0
  have hd := targetCount_nonneg sr (nominalDuration_nonneg hu)
  have e : samplesDue sr c (ts ++ us) = ((emittedCount sr c ts : ℕ) : ℚ) + samplesDue sr (frac (samplesDue sr c ts)) us := by
    rw [samplesDue_append]
    unfold emittedCount
    have : ((samplesDue sr c ts).floor.toNat : ℚ) = ((samplesDue sr c ts).floor : ℚ) := by
      have h0 : 0 ≤ (samplesDue sr c ts).floor := Int.floor_nonneg.2 hn
      exact_mod_cast congrArg (Int.cast (R := ℚ)) (Int.toNat_of_nonneg h0)
    rw [this]
    unfold samplesDue frac
    ring
  constructor
  · conv_lhs => rw [emittedCount, e]
    rw [floor_toNat_add _ (samplesDue_nonneg hu (frac_nonneg _))]
    rfl
  · rw [e, frac_natCast_add]

/-- The three stages of an encode, one after another: single steps take it to its end (R227, R237). -/
theorem run_encode (m : Mode) {u : State} (hU : Undisturbed u) (he : u.emitting = none) (hm : u.latched.mode = m.code)
    (hr : u.latched.sr ≠ 0) (hw : m.width ≤ u.latched.w.toNat) (hh : m.rows ≤ u.latched.h.toNat)
    (hs : u.seq = Seq.first u.params) (hp : u.params.preamble.all Tone.legal = true) (hc : u.osc.carry = 0) (ht : u.total = 0)
    (hst : u.status = ⟨true, false, 0⟩) : ∃ v, Reaches u v ∧ Ends m u v := by
  have hv := run_vis ⟨hU, he, hm, hr⟩ hs hp
  have hl1 := visProgram_legal m.code hp
  have hc0 : 0 ≤ u.osc.carry := hc.ge
  have hc1 : u.osc.carry < 1 := by rw [hc]; norm_num
  rcases runProgram_cases m.code (visProgram u.params m.code) u hl1 hc0 hc1 with ⟨ha, e⟩ | ⟨v, e, hf⟩
  rotate_left
  · rw [e] at hv
    refine ⟨v, hv, .fault hf.toKeptByProgram hf.stage hf.status ?_ ?_⟩
    · obtain ⟨vs, _, h2, h3, _⟩ := hf.samples
      exact ⟨vs, by rw [h2, ht, Nat.zero_add], h3⟩
    · obtain ⟨vs, _, _, _, _, h5⟩ := hf.samples
      exact fun hall => by rw [hall] at h5; cases h5
  rw [e, Flow.andThen_on, Flow.state_on] at hv
  obtain ⟨t1, c1, vs1, l1, s1⟩ := played_counts m.code (visProgram u.params m.code) u hl1 hc0 hc1
  have k1 := played_kept m.code (visProgram u.params m.code) u
  have g1 := played_status m.code (visProgram u.params m.code) u
  have e1 := played_emitting m.code (visProgram u.params m.code) u
  generalize hw1 : played m.code (visProgram u.params m.code) u = w1 at *
  have hw1l := k1.latched
  have hb := run_body (m := m) (s := handOver .body w1)
    ⟨hU.of_eq k1.pins k1.inputs k1.issue, e1.trans he, by show w1.latched.mode = _; rw [hw1l]; exact hm, by show w1.latched.sr ≠ _; rw [hw1l]; exact hr⟩ rfl
    (by show _ ≤ w1.latched.w.toNat; rw [hw1l]; exact hw) (by show _ ≤ w1.latched.h.toNat; rw [hw1l]; exact hh)
  have hl2 := m.program_legal (handOver .body w1)
  have hd0 : 0 ≤ w1.osc.carry := by rw [c1]; exact frac_nonneg _
  have hd1 : w1.osc.carry < 1 := by rw [c1]; exact frac_lt_one _
  have tones2 : (m.program (handOver .body w1)).map Prod.snd = scanTones m u := by
    rw [m.program_tones]; exact scanTones_congr m k1.pix hw1l
  rw [tones2] at hl2
  rw [visProgram_tones, hc] at t1 c1 l1
  rw [visProgram_tones] at hl1
  have kk1 : KeptByProgram u (handOver .body w1) := ⟨⟨k1.pix, k1.params, k1.pins, k1.inputs⟩, k1.latched, k1.issue⟩
  rcases runProgram_cases m.code (m.program (handOver .body w1)) (handOver .body w1) (by rw [tones2]; exact hl2) hd0 hd1 with ⟨ha2, e2⟩ | ⟨v, e2, hf⟩
  rotate_left
  · rw [e2] at hb
    refine ⟨v, run_trans hv hb, .fault (kk1.trans hf.toKeptByProgram) hf.stage hf.status ?_ ?_⟩
    · obtain ⟨vs, _, h2, h3, _⟩ := hf.samples
      refine ⟨vs1 ++ vs, ?_, ?_⟩
      · rw [h2]; show _ = w1.total + _; rw [t1, ht, List.length_append, l1]; omega
      · rw [h3, Sink.acceptList_append, ← s1]; rfl
    · obtain ⟨vs, _, _, _, _, h5⟩ := hf.samples
      intro hall
      have : w1.sink.answerTo vs.length = true := by rw [s1]; exact Sink.acceptsAll_acceptList hall _ _
      exact absurd h5 (by show ¬ w1.sink.answerTo vs.length = false; rw [this]; simp)
  rw [e2, Flow.andThen_on, Flow.state_on] at hb
  obtain ⟨t2, c2, vs2, l2, s2⟩ := played_counts m.code (m.program (handOver .body w1)) (handOver .body w1) (by rw [tones2]; exact hl2) hd0 hd1
  have k2 := kk1.trans (played_kept m.code (m.program (handOver .body w1)) (handOver .body w1))
  have g2 := (played_status m.code (m.program (handOver .body w1)) (handOver .body w1)).trans g1
  have e2 := (played_emitting m.code (m.program (handOver .body w1)) (handOver .body w1)).trans e1
  rw [tones2] at t2 c2 l2
  have hsr1 : (handOver .body w1).latched.sr = u.latched.sr := by show w1.latched.sr = _; rw [hw1l]
  rw [hsr1] at t2 c2 l2
  have hoc : (handOver .body w1).osc.carry = w1.osc.carry := rfl
  rw [hoc, c1] at t2 c2 l2
  have htt : (handOver .body w1).total = w1.total := rfl
  rw [htt, t1, ht] at t2
  have hss : (handOver .body w1).sink = w1.sink := rfl
  rw [hss, s1, ← Sink.acceptList_append] at s2
  generalize hw2 : played m.code (m.program (handOver .body w1)) (handOver .body w1) = w2 at *
  obtain ⟨a1, a2⟩ := emitted_append (sr := u.latched.sr) (c := 0) hl1 hl2 le_rfl
  rw [← a2] at c2
  have hl12 : ((u.params.preamble ++ visTones m.code) ++ scanTones m u).all Tone.legal = true := by rw [List.all_append, hl1, hl2]; rfl
  obtain ⟨b1, b2⟩ := emitted_append (sr := u.latched.sr) (c := 0) hl12 eotTones_legal le_rfl
  have t2' : w2.total = emittedCount u.latched.sr 0 (u.params.preamble ++ visTones m.code ++ scanTones m u) := by rw [t2, a1]; omega
  have hl2' : vs1.length + vs2.length = w2.total := by rw [l1, l2, t2', a1]
  have hx := run_eot (code := m.code) (s := handOver .eot w2) ⟨hU.of_eq k2.pins k2.inputs k2.issue, e2.trans he, by show w2.latched.mode = _; rw [k2.latched]; exact hm, by show w2.latched.sr ≠ _; rw [k2.latched]; exact hr⟩ rfl
  have hf0 : 0 ≤ w2.osc.carry := by rw [c2]; exact frac_nonneg _
  have hf1 : w2.osc.carry < 1 := by rw [c2]; exact frac_lt_one _
  have kk2 : KeptByProgram u (handOver .eot w2) := ⟨⟨k2.pix, k2.params, k2.pins, k2.inputs⟩, k2.latched, k2.issue⟩
  rcases runProgram_cases m.code eotProgram (handOver .eot w2) (by rw [eotProgram_tones]; exact eotTones_legal) hf0 hf1 with ⟨ha3, e3⟩ | ⟨v, e3, hf⟩
  rotate_left
  · rw [e3] at hx
    refine ⟨v, run_trans (run_trans hv hb) hx, .fault (kk2.trans hf.toKeptByProgram) hf.stage hf.status ?_ ?_⟩
    · obtain ⟨vs, _, h2, h3, _⟩ := hf.samples
      refine ⟨vs1 ++ vs2 ++ vs, ?_, ?_⟩
      · rw [h2, List.length_append, List.length_append, hl2']; rfl
      · rw [h3, Sink.acceptList_append, ← s2]; rfl
    · obtain ⟨vs, _, _, _, _, h5⟩ := hf.samples
      intro hall
      have : w2.sink.answerTo vs.length = true := by rw [s2]; exact Sink.acceptsAll_acceptList hall _ _
      exact absurd h5 (by show ¬ w2.sink.answerTo vs.length = false; rw [this]; simp)
  rw [e3, Flow.andThen_on, Flow.state_on] at hx
  obtain ⟨t3, c3, vs3, l3, s3⟩ := played_counts m.code eotProgram (handOver .eot w2) (by rw [eotProgram_tones]; exact eotTones_legal) hf0 hf1
  have k3 := kk2.trans (played_kept m.code eotProgram (handOver .eot w2))
  have g3 := (played_status m.code eotProgram (handOver .eot w2)).trans g2
  rw [eotProgram_tones] at t3 c3 l3
  have hsr2 : (handOver .eot w2).latched.sr = u.latched.sr := by show w2.latched.sr = _; rw [k2.latched]
  have hoc2 : (handOver .eot w2).osc.carry = w2.osc.carry := rfl
  have htt2 : (handOver .eot w2).total = w2.total := rfl
  have hss2 : (handOver .eot w2).sink = w2.sink := rfl
  rw [hsr2, hoc2, c2] at t3 c3 l3
  rw [htt2, t2', ← b1] at t3
  rw [hss2, s2, ← Sink.acceptList_append] at s3
  rw [← b2] at c3
  generalize played m.code eotProgram (handOver .eot w2) = w3 at *
  refine ⟨complete w3, run_trans (run_trans hv hb) hx, .done ⟨⟨k3.pix, k3.params, k3.pins, k3.inputs⟩, k3.latched, k3.issue⟩ rfl ?_ t3 c3 rfl ?_⟩
  · show Status.completed w3.status = _
    rw [g3, hst]; rfl
  · refine ⟨vs1 ++ vs2 ++ vs3, ?_, s3⟩
    show _ = w3.total
    rw [t3, List.length_append, List.length_append, hl2', l3, t2', b1]

/-- The duration of an encode (R233 to R236). -/
theorem encode_duration (m : Mode) (u : State) : nominalDuration (encodeTones m u) = (u.params.preamble.map Tone.d).sum + m.duration := by
  unfold encodeTones
  rw [nominalDuration_append, nominalDuration_append, nominalDuration_append, (visTones_size _).2, scan_duration, eotTones_size.2]
  unfold nominalDuration; ring

theorem acceptList_stream (k : Sink) (vs : List Sample) (h : k.base = k.acceptedRev.length) : (k.acceptList vs).stream = vs := by
  unfold Sink.stream Sink.accepted Sink.acceptList
  simp [h]

/-- The run of a command accepted in state `s`. -/
theorem started (m : Mode) {s : State} (hq : s.quiet) (hi : s.issue = none) (he : s.emitting = none)
    (hw : s.pins.imgWidth.toNat = m.width) (hh : s.pins.imgHeight.toNat = m.rows) (hr : s.pins.cfgSampleRate ≠ 0)
    (hp : s.params.preamble.all Tone.legal = true) :
    ∃ v, Reaches (startSynthesis (latchCommand m.code s)) v ∧ Ends m (startSynthesis (latchCommand m.code s)) v :=
  run_encode m (u := startSynthesis (latchCommand m.code s)) ⟨hq, hi⟩ he rfl hr hw.ge hh.ge rfl hp rfl rfl rfl

end Sys2Proof.Machine
end

