-- ==== Sys2Proof/Laws/Step.lean ====
section
/-! SUPPORT. What a step can do, said once: hardware reset, the acceptance of a command, the next sample, the next tone, or rest. -/

namespace Sys2Proof.Machine

/-- What the sequencers can do in one step. -/
theorem sequencerStep_cases {s t : State} (h : sequencerStep s = .next t) :
    (∃ e, s.emitting = some e ∧ t = emitSample e s) ∨
    (∃ tone, s.emitting = none ∧ s.seq.stage.running = true ∧ toneAt s = some tone ∧ readsInside s = true ∧
      tone.legal = true ∧ s.latched.sr ≠ 0 ∧ t = issueTone tone s) ∨
    (s.emitting = none ∧ s.seq.stage.running = false ∧ t = s) := by
  unfold sequencerStep at h
  split at h
  · rename_i e he
    injection h with h
    exact .inl ⟨e, he, h.symm⟩
  · rename_i he
    split at h
    · rename_i hr
      split at h
      · cases h
      · rename_i tone ht
        split at h
        · rename_i hin
          split at h
          · rename_i hl
            split at h
            · cases h
            · rename_i hsr
              injection h with h
              exact .inr (.inl ⟨tone, he, hr, ht, hin, hl, hsr, h.symm⟩)
          · cases h
        · cases h
    · rename_i hr
      injection h with h
      exact .inr (.inr ⟨he, by simpa using hr, h.symm⟩)

/-- The three ways a step is taken. -/
theorem step_eq (s : State) : step s =
    if s.nextPins.rst = true then .next (hardwareReset s.takePins.placeStores)
    else if s.status.busy = true ∧ s.nextPins.stores ≠ [] then .refused .pixelBufferChanged
    else act s.takePins.placeStores := by
  unfold step
  simp only [takePins_pins, takePins_status, Bool.and_eq_true, Bool.not_eq_true', List.isEmpty_eq_false_iff]

/-- What runs when no operation is issued by itself. -/
theorem act_noIssue {s : State} (h : s.issue = none) : act s =
    if s.pins.cmdValid = true ∧ s.status.busy = false then acceptCommand s.pins.cmdMode s else sequencerStep s := by
  simp only [act, h, exec_decodeCommand, Bool.and_eq_true, Bool.not_eq_true']

/-- What a step can do, once the ports are taken and the host's stores placed. -/
theorem step_cases {s t : State} (hi : s.issue = none) (h : step s = .next t) :
    (s.nextPins.rst = true ∧ t = hardwareReset s.takePins.placeStores) ∨
    (s.nextPins.rst = false ∧ (s.status.busy = true → s.nextPins.stores = []) ∧
      ((s.nextPins.cmdValid = true ∧ s.status.busy = false ∧
          acceptCommand s.nextPins.cmdMode s.takePins.placeStores = .next t) ∨
        (¬ (s.nextPins.cmdValid = true ∧ s.status.busy = false) ∧ sequencerStep s.takePins.placeStores = .next t))) := by
  rw [step_eq] at h
  by_cases hr : s.nextPins.rst = true
  · rw [if_pos hr] at h
    injection h with h
    exact .inl ⟨hr, h.symm⟩
  · rw [if_neg hr] at h
    refine .inr ⟨by simpa using hr, ?_⟩
    by_cases hb : s.status.busy = true ∧ s.nextPins.stores ≠ []
    · rw [if_pos hb] at h; cases h
    · rw [if_neg hb] at h
      have e := act_noIssue (s := s.takePins.placeStores) hi
      refine ⟨fun hbusy => by_contra fun hs => hb ⟨hbusy, hs⟩, ?_⟩
      by_cases hc : s.takePins.placeStores.pins.cmdValid = true ∧ s.takePins.placeStores.status.busy = false
      · rw [e, if_pos hc] at h; exact .inl ⟨hc.1, hc.2, h⟩
      · rw [e, if_neg hc] at h; exact .inr ⟨hc, h⟩

/-- One sample of an emission: the two ways it can end. -/
theorem emitSample_cases (e : Emission) (s : State) :
    (s.sink.answer = true ∧ e.i + 1 < e.n ∧ emitSample e s =
        { s with
          total := s.total + 1
          sink := s.sink.accept (sampleWord (phaseAt s.latched.sr e.tone.f e.theta0 e.i))
          emitting := some { e with i := e.i + 1 } }) ∨
    (s.sink.answer = true ∧ ¬ e.i + 1 < e.n ∧ emitSample e s = finishTone e.tone e.n e.theta0
        { s with
          total := s.total + 1
          sink := s.sink.accept (sampleWord (phaseAt s.latched.sr e.tone.f e.theta0 e.i)) }) ∨
    (s.sink.answer = false ∧
      emitSample e s = faultEntry .sinkWriteFailure { s with sink := s.sink.refuse }) := by
  unfold emitSample
  cases ha : s.sink.answer
  · rw [pushSample_raised _ ha]
    exact .inr (.inr ⟨rfl, rfl⟩)
  · rw [pushSample_on _ ha]
    by_cases h : e.i + 1 < e.n
    · exact .inl ⟨rfl, h, by simp only [if_pos h]⟩
    · exact .inr (.inl ⟨rfl, h, by simp only [if_neg h]⟩)

/-- The issue of a tone: the two ways it can end. -/
theorem issueTone_cases (t : Tone) (s : State) :
    (segmentCount s.latched.sr t.d s.osc.carry = 0 ∧
      issueTone t s = finishTone t 0 s.osc.ph (writeCarry t (enterPosition s.seq s))) ∨
    (segmentCount s.latched.sr t.d s.osc.carry ≠ 0 ∧
      issueTone t s = { writeCarry t (enterPosition s.seq s) with
        emitting := some ⟨t, segmentCount s.latched.sr t.d s.osc.carry, 0, s.osc.ph⟩ }) := by
  unfold issueTone
  by_cases h : segmentCount s.latched.sr t.d s.osc.carry = 0
  · exact .inl ⟨h, by simp only [h, if_true]⟩
  · exact .inr ⟨h, by simp only [h, if_false]⟩

end Sys2Proof.Machine
end

