-- ==== Sys2Proof/Laws/History.lean ====
section
/-! SUPPORT. What a block does never depends on the samples of earlier encodes: steps of two states that differ in them
alone stay so (R288). -/

namespace Sys2Proof.Machine

/-- The state with another history of samples and another last result. -/
def withHistory (s : State) (A : List Sample) (b : ℕ) (r : ℚ) : State := {s with sink := ⟨A, b, s.sink.answers, s.sink.rest⟩, result := r}

/-- Two states that differ in what came before the current encode alone. -/
structure Sim (s t : State) : Prop where
  eq : t = withHistory s t.sink.acceptedRev t.sink.base t.result
  stream : s.sink.stream = t.sink.stream
  b1 : s.sink.base ≤ s.sink.acceptedRev.length
  b2 : t.sink.base ≤ t.sink.acceptedRev.length
  issue : s.issue = none

theorem advance_withHistory (s : State) (A b r) : ∃ r', advance (withHistory s A b r) = withHistory (advance s) A b r' := by
  unfold advance
  cases hs : s.seq.stage
  all_goals simp only [withHistory, hs]
  case pre => split <;> exact ⟨r, rfl⟩
  case vis => split <;> exact ⟨r, rfl⟩
  case body => split <;> exact ⟨r, rfl⟩
  case eot =>
    split
    · exact ⟨r, rfl⟩
    · exact ⟨s.total, rfl⟩
  all_goals exact ⟨r, rfl⟩

theorem finish_withHistory (t n θ s A b r) : ∃ r', finishTone t n θ (withHistory s A b r) = withHistory (finishTone t n θ s) A b r' := 
  advance_withHistory (leavePosition s.latched.mode s.seq { endTone t n θ s with emitting := none }) A b n

theorem sink_finish (t n θ s) : (finishTone t n θ s).sink = s.sink := by simp
theorem issue_finish (t n θ s) : (finishTone t n θ s).issue = s.issue := by simp

theorem Sim.mk' {s : State} {A b r} (hs : s.sink.stream = A.reverse.drop b) (h1 : s.sink.base ≤ s.sink.acceptedRev.length) (h2 : b ≤ A.length) (hi : s.issue = none) :
   Sim s (withHistory s A b r) := ⟨rfl, hs, h1, h2, hi⟩

theorem seq_sim {s s' : State} {A b r} (h : Sim s (withHistory s A b r)) (hs : sequencerStep s = .next s') :
   ∃ t', sequencerStep (withHistory s A b r) = .next t' ∧ Sim s' t' := by
  rcases sequencerStep_cases hs with ⟨e, he, rfl⟩ | ⟨tone, he, hr, ht, hin, hl, hsr, rfl⟩ | ⟨he, hr, rfl⟩
  · refine ⟨emitSample e (withHistory s A b r), ?_, ?_⟩
    · unfold sequencerStep
      have : (withHistory s A b r).emitting = some e := he
      rw [this]
    · have hstr := h.stream
      have hb1 := h.b1
      have hb2 : b ≤ A.length := h.b2
      have happ : ∀ v, (s.sink.accept v).stream = (v :: A).reverse.drop b := by
        intro v
        have : (s.sink.accept v).stream = s.sink.stream ++ [v] := by
          unfold Sink.stream Sink.accepted Sink.accept
          simp [List.drop_append, List.length_reverse, Nat.sub_eq_zero_of_le hb1]
        rw [this, hstr]
        unfold Sink.stream Sink.accepted withHistory
        simp [List.drop_append, List.length_reverse, Nat.sub_eq_zero_of_le hb2]
      rcases emitSample_cases e s with ⟨ha, hn, eq⟩ | ⟨ha, hn, eq⟩ | ⟨ha, eq⟩ <;>
      rcases emitSample_cases e (withHistory s A b r) with ⟨ha', hn', eq'⟩ | ⟨ha', hn', eq'⟩ | ⟨ha', eq'⟩ <;>
      first | (exact absurd hn' hn) | (exact absurd hn hn') | (exfalso; change s.sink.answer = _ at ha'; rw [ha] at ha'; cases ha'; done) | rw [eq, eq']
      · exact Sim.mk' (A := _ :: A) (b := b) (r := r) (happ _) (Nat.le_succ_of_le h.b1) (Nat.le_succ_of_le h.b2) h.issue
      · obtain ⟨r', e'⟩ := finish_withHistory e.tone e.n e.theta0
          { s with
            total := s.total + 1
            sink := s.sink.accept (sampleWord (phaseAt s.latched.sr e.tone.f e.theta0 e.i)) }
          (sampleWord (phaseAt s.latched.sr e.tone.f e.theta0 e.i) :: A) b r
        change Sim _ (finishTone e.tone e.n e.theta0 (withHistory { s with
            total := s.total + 1
            sink := s.sink.accept (sampleWord (phaseAt s.latched.sr e.tone.f e.theta0 e.i)) }
          (sampleWord (phaseAt s.latched.sr e.tone.f e.theta0 e.i) :: A) b r))
        rw [e']
        refine Sim.mk' ?_ ?_ (Nat.le_succ_of_le h.b2) ?_
        · rw [sink_finish]; exact happ _
        · rw [sink_finish]; exact Nat.le_succ_of_le h.b1
        · rw [issue_finish]; exact h.issue
      · exact Sim.mk' (A := A) (b := b) (r := r) hstr h.b1 h.b2 h.issue
  · refine ⟨issueTone tone (withHistory s A b r), ?_, ?_⟩
    · unfold sequencerStep
      have e1 : (withHistory s A b r).emitting = none := he
      have e2 : (withHistory s A b r).seq.stage.running = true := hr
      have e3 : toneAt (withHistory s A b r) = some tone := (toneAt_congr (s := s) (t := withHistory s A b r) rfl rfl rfl (fun _ _ => rfl) rfl).trans ht
      have e4 : readsInside (withHistory s A b r) = true := hin
      have e5 : (withHistory s A b r).latched.sr ≠ 0 := hsr
      simp only [e1, e2, e3, e4, hl, if_neg e5, if_true]
    · rcases issueTone_cases tone s with ⟨hn, eq⟩ | ⟨hn, eq⟩ <;>
      rcases issueTone_cases tone (withHistory s A b r) with ⟨hn', eq'⟩ | ⟨hn', eq'⟩ <;>
      first | (exact absurd hn hn') | (exact absurd hn' hn) | rw [eq, eq']
      · obtain ⟨r', e'⟩ := finish_withHistory tone 0 s.osc.ph (writeCarry tone (enterPosition s.seq s)) A b r
        change Sim _ (finishTone tone 0 s.osc.ph (withHistory (writeCarry tone (enterPosition s.seq s)) A b r))
        rw [e']
        refine Sim.mk' ?_ ?_ h.b2 ?_
        · rw [sink_finish]; exact h.stream
        · rw [sink_finish]; exact h.b1
        · rw [issue_finish]; exact h.issue
      · exact Sim.mk' (A := A) (b := b) (r := r) h.stream h.b1 h.b2 h.issue
  · refine ⟨_, ?_, h⟩
    unfold sequencerStep
    have e1 : (withHistory s' A b r).emitting = none := he
    have e2 : (withHistory s' A b r).seq.stage.running = false := hr
    simp [e1, e2]

theorem stream_nil (k : Sink) : ({k with base := k.acceptedRev.length} : Sink).stream = [] := by simp [Sink.stream, Sink.accepted]

theorem cmd_sim {s s' : State} {A b r c} (h : Sim s (withHistory s A b r)) (hs : acceptCommand c s = .next s') :
   ∃ t', acceptCommand c (withHistory s A b r) = .next t' ∧ Sim s' t' := by
  have hst : s.sink.acceptedRev.reverse.drop s.sink.acceptedRev.length = A.reverse.drop A.length := by
    rw [List.drop_of_length_le (by rw [List.length_reverse]), List.drop_of_length_le (by rw [List.length_reverse])]
  rcases acceptCommand_cases c s with ⟨hb, e⟩ | ⟨hb, hm, e⟩ | ⟨m, rfl, hb, ⟨hg, e⟩ | ⟨hw, hh, ⟨hr, e⟩ | ⟨hr, e⟩⟩⟩ <;> rw [e] at hs
  · cases hs; exact ⟨_, acceptCommand_busy hb, h⟩
  · cases hs; exact ⟨_, acceptCommand_unsupported hb hm, Sim.mk' (A := A) (b := A.length) (r := r) hst le_rfl le_rfl h.issue⟩
  · cases hs; exact ⟨_, acceptCommand_geometry hb hg, Sim.mk' (A := A) (b := A.length) (r := r) hst le_rfl le_rfl h.issue⟩
  · cases hs
  · cases hs; exact ⟨_, acceptCommand_starts hb hw hh hr, Sim.mk' (A := A) (b := A.length) (r := r) hst le_rfl le_rfl h.issue⟩

/-- A step keeps them so. -/
theorem step_sim {s t s' : State} (h : Sim s t) (hs : step s = .next s') : ∃ t', step t = .next t' ∧ Sim s' t' := by
  have heq := h.eq
  generalize t.sink.acceptedRev = A at heq
  generalize t.sink.base = b at heq
  generalize t.result = r at heq
  subst heq
  have e1 : (withHistory s A b r).takePins.placeStores = withHistory s.takePins.placeStores A b r := rfl
  rw [step_eq, e1]
  have e2 : (withHistory s A b r).nextPins = s.nextPins := rfl
  have e3 : (withHistory s A b r).status = s.status := rfl
  rw [e2, e3]
  have hp : Sim s.takePins.placeStores (withHistory s.takePins.placeStores A b r) := Sim.mk' h.stream h.b1 h.b2 h.issue
  have hst : s.sink.acceptedRev.reverse.drop s.sink.acceptedRev.length = A.reverse.drop A.length := by
    rw [List.drop_of_length_le (by rw [List.length_reverse]), List.drop_of_length_le (by rw [List.length_reverse])]
  rcases step_cases h.issue hs with ⟨hr, rfl⟩ | ⟨hr, hst', ⟨hv, hb, hx⟩ | ⟨hnv, hx⟩⟩
  · rw [if_pos hr]; exact ⟨_, rfl, Sim.mk' (A := A) (b := A.length) (r := 0) hst le_rfl le_rfl rfl⟩
  · rw [if_neg (by rw [hr]; simp), if_neg (fun h => h.2 (hst' h.1)), act_noIssue (s := withHistory s.takePins.placeStores A b r) h.issue]
    have : (withHistory s.takePins.placeStores A b r).pins.cmdValid = true ∧ (withHistory s.takePins.placeStores A b r).status.busy = false := ⟨hv, hb⟩
    rw [if_pos this]
    exact cmd_sim hp hx
  · rw [if_neg (by rw [hr]; simp), if_neg (fun h => h.2 (hst' h.1)), act_noIssue (s := withHistory s.takePins.placeStores A b r) h.issue]
    have : ¬ ((withHistory s.takePins.placeStores A b r).pins.cmdValid = true ∧ (withHistory s.takePins.placeStores A b r).status.busy = false) := hnv
    rw [if_neg this]
    exact seq_sim hp hx

theorem run_sim (k : ℕ) {s t s' : State} (h : Sim s t) (hs : Host.Core.run core k s = .next s') : ∃ t', Host.Core.run core k t = .next t' ∧ Sim s' t' := by
  induction k generalizing s t with
  | zero => cases hs; exact ⟨t, rfl, h⟩
  | succ k ih =>
    simp only [Host.Core.run] at hs ⊢
    cases e : core.step s with
    | next u =>
      rw [e] at hs
      obtain ⟨v, e', hv⟩ := step_sim h e
      have : core.step t = .next v := e'
      rw [this]
      exact ih hv hs
    | fault r => rw [e] at hs; cases hs
    | refused r => rw [e] at hs; cases hs

end Sys2Proof.Machine
end

