-- ==== Sys2Proof/Laws/Invariant.lean ====
section
/-! SUPPORT. The invariant across the parts of a step: the end of a tone, fault entry, and the taking of the ports. -/

namespace Sys2Proof.Machine

/-- The end of a tone keeps the invariant: what it needs of the state before. -/
theorem inv_finish {s : State} {t : Tone} {n : ℕ} {θ : ℚ}
    (pix : s.pix.wf) (carry : 0 ≤ s.osc.carry ∧ s.osc.carry < 1)
    (counted : s.sink.acceptedRev.length = s.sink.base + s.total) (noIssue : s.issue = none)
    (preamble : s.params.preamble.all Tone.legal = true) (status : s.statusAgrees) (operands : s.operandsChecked)
    (position : s.positioned) (ones : s.onesCounted) (run : s.seq.stage.running = true) : (finishTone t n θ s).Inv := by
  have st : (finishTone t n θ s) = advance (leavePosition s.latched.mode s.seq { endTone t n θ s with emitting := none }) := rfl
  obtain ⟨hsr, m, hm, hw, hh⟩ := operands run
  have hbusy : s.status.busy = true := by rw [status.1, run]
  have hne : s.seq.stage ≠ .fault := by intro e; rw [e] at run; cases run
  have hdone : s.status.done = false := by
    rw [status.2.1]; rcases (running_iff _).1 run with h | h | h | h <;> rw [h] <;> rfl
  have herr : s.status.err = 0 := by
    have := status.2.2; rwa [if_neg hne] at this
  have hstat : s.status = ⟨true, false, 0⟩ := by cases hs : s.status; simp_all
  have hops : ∀ (u : State), u.latched = s.latched → u.operandsChecked := fun u hu _ => by rw [hu]; exact ⟨hsr, m, hm, hw, hh⟩
  refine ⟨by simpa using pix, ?_, by simpa using carry, by simpa using counted, by simpa using noIssue, by simpa using preamble, ?_, hops _ (by simp), ?_, ?_, fun e he => by simp at he⟩
  · simp only [finishTone_osc]; exact ⟨frac_nonneg _, frac_lt_one _⟩
  · rw [st]
    rcases (running_iff _).1 run with h | h | h | h
    all_goals
      simp only [advance, leavePosition_seq, endTone_seq, h, leavePosition_params, endTone_params, leavePosition_latched, endTone_latched, hm]
    · split <;> simp [State.statusAgrees, hstat, Stage.running]
    · split <;> simp [State.statusAgrees, hstat, Stage.running]
    · have hp : m.hasPosition s.seq = true := by
        have := position
        unfold State.positioned at this
        simp only [h] at this
        obtain ⟨m', hm', hp⟩ := this
        rw [hm] at hm'; cases hm'; exact hp
      rcases nextPosition_has h hp with ⟨h1, _⟩ | h1 <;> simp [State.statusAgrees, h1, hstat, Stage.running]
    · split <;> simp [State.statusAgrees, h, hstat, Stage.running, Status.completed, complete]
  · rw [st]
    rcases (running_iff _).1 run with h | h | h | h
    all_goals
      have hpos := position
      unfold State.positioned at hpos
      simp only [h] at hpos
      simp only [advance, leavePosition_seq, endTone_seq, h, leavePosition_params, endTone_params, leavePosition_latched, endTone_latched, hm]
    · split
      · rename_i hk
        rw [hpos.1]
        simp only [State.positioned]
        exact ⟨trivial, by rw [hpos.1] at hk; exact hk⟩
      · simp [State.positioned]
    · split
      · rename_i hk
        rw [hpos.1]
        simp only [State.positioned]
        exact ⟨trivial, by omega⟩
      · refine ⟨m, by simpa using hm, ?_⟩
        simp only [handOver_seq]; show m.hasPosition ⟨.body, 0, 0, 0, 0⟩ = true; cases m <;> decide
    · obtain ⟨m', hm', hp⟩ := hpos
      rw [hm] at hm'; cases hm'
      rcases nextPosition_has h hp with ⟨h1, h2⟩ | h1
      · simp only [State.positioned, h1]
        exact ⟨m, by simpa using hm, h2⟩
      · simp [State.positioned, h1]
    · split
      · rename_i hk
        rw [hpos.1]
        simp only [State.positioned]
        exact ⟨trivial, by omega⟩
      · rename_i hk
        have hk4 : s.seq.k = 4 := by omega
        simp only [State.positioned, complete_seq, leavePosition_seq]
        rw [hpos.1, hk4]
  · rw [st]
    rcases (running_iff _).1 run with h | h | h | h
    all_goals
      have hones := ones
      unfold State.onesCounted at hones
      simp only [h] at hones
      have hpos := position
      unfold State.positioned at hpos
      simp only [h] at hpos
      simp only [advance, leavePosition_seq, endTone_seq, h, leavePosition_params, endTone_params, leavePosition_latched, endTone_latched, hm]
    · split
      · simp [State.onesCounted, h, hones]
      · simp [State.onesCounted, h, hones, onesBelow]
    · have hone : (leavePosition s.latched.mode s.seq { endTone t n θ s with emitting := none }).visOnes = onesBelow s.latched.mode (min (s.seq.k + 1 - 12) 7) := by
        simp only [leavePosition_visOnes, endTone_visOnes, h, true_and, hones]
        rcases Nat.lt_or_ge s.seq.k 12 with hk | hk
        · rw [if_neg (by omega)]
          congr 1; omega
        · obtain ⟨j, hj⟩ := Nat.exists_eq_add_of_le hk
          rw [hj]
          rcases Nat.lt_or_ge j 7 with hj7 | hj7
          · have e1 : min (12 + j - 12) 7 = j := by omega
            have e2 : min (12 + j + 1 - 12) 7 = j + 1 := by omega
            have e3 : 12 + j - 12 = j := by omega
            rw [e1, e2, e3, onesBelow_succ]
            by_cases hb : s.latched.mode.getLsbD j = true
            · rw [if_pos ⟨by omega, by omega, hb⟩, if_pos hb]
            · rw [if_neg (fun h => hb h.2.2), if_neg hb, Nat.add_zero]
          · rw [if_neg (by omega)]
            congr 1; omega
      split
      · simp only [State.onesCounted]
        exact hone
      · rename_i hk
        simp only [State.onesCounted, handOver_seq, handOver_visOnes, handOver_latched]
        refine hone.trans ?_
        have : s.seq.k = 20 := by omega
        rw [this]; rfl
    · obtain ⟨m', hm', hp⟩ := hpos
      rw [hm] at hm'; cases hm'
      have hv : (leavePosition s.latched.mode s.seq { endTone t n θ s with emitting := none }).visOnes = s.visOnes := by
        simp [h]
      rcases nextPosition_has h hp with ⟨h1, h2⟩ | h1
      · simp only [State.onesCounted, h1]
        exact hv.trans hones
      · simp only [State.onesCounted, h1]
        exact hv.trans hones
    · have hv : (leavePosition s.latched.mode s.seq { endTone t n θ s with emitting := none }).visOnes = s.visOnes := by
        simp [h]
      split
      · simp only [State.onesCounted]
        exact hv.trans hones
      · simp only [State.onesCounted, complete_seq]
        exact hv.trans hones

theorem start_bounds : ((0:ℚ) ≤ Osc.start.ph ∧ Osc.start.ph < 1) ∧ ((0:ℚ) ≤ Osc.start.carry ∧ Osc.start.carry < 1) := by
  refine ⟨⟨?_, ?_⟩, ?_, ?_⟩ <;> simp [Osc.start]

/-- Fault entry keeps the invariant (R258). -/
theorem inv_fault {s : State} (e : ErrorKind) (he : e = .unsupportedMode ∨ e = .sinkWriteFailure ∨ e = .invalidGeometry)
    (pix : s.pix.wf) (phase : 0 ≤ s.osc.ph ∧ s.osc.ph < 1) (carry : 0 ≤ s.osc.carry ∧ s.osc.carry < 1)
    (counted : s.sink.acceptedRev.length = s.sink.base + s.total) (noIssue : s.issue = none)
    (preamble : s.params.preamble.all Tone.legal = true) : (faultEntry e s).Inv := by
  refine ⟨pix, phase, carry, counted, noIssue, preamble, ⟨rfl, rfl, ?_⟩, fun h => (by cases h), trivial, trivial, fun e he => by cases he⟩
  simp only [faultEntry_seq, faultEntry_status, Status.faulted, if_true]
  rcases he with rfl | rfl | rfl <;> simp

/-- Taking the ports and placing the host's stores keeps the invariant. -/
theorem inv_takePlace {s : State} (h : s.Inv) (hb : s.status.busy = true → s.nextPins.stores = []) : s.takePins.placeStores.Inv := by
  have hp : s.status.busy = true → s.takePins.placeStores.pix = s.pix := by
    intro hb'; simp [hb hb', placeBytes_nil]
  refine ⟨placeBytes_wf _ _ h.pix, h.phase, h.carry, h.counted, h.noIssue, h.preamble, h.status, h.operands, h.position, h.ones, ?_⟩
  intro e he
  obtain ⟨h1, h2, h3⟩ := h.emission e he
  refine ⟨h1, ?_, h3⟩
  rw [toneAt_congr (s := s) (t := s.takePins.placeStores) rfl rfl rfl (fun _ _ => rfl) (hp (by rw [h.status.1]; exact h1))]
  exact h2

/-- At rest no EMIT is in progress. -/
theorem emitting_none {s : State} (h : s.Inv) (hb : s.status.busy = false) : s.emitting = none := by
  cases he : s.emitting with
  | none => rfl
  | some e =>
    obtain ⟨h1, _⟩ := h.emission e he
    rw [← h.status.1, hb] at h1; cases h1

end Sys2Proof.Machine
end

