-- ==== Sys2Proof/Laws/PerInstr.lean ====
section
/-! SUPPORT. Per operation: the code of its word is the one of its row in the opcode table (R77, R78, R80). -/

namespace Sys2Proof.Laws.Codes

open Sys2Proof

/-- The code of a word on its carrier: its width in bits and its value (R75). -/
def carried : IssueWord → Nat × Nat
  | .cmd mode => (7, mode.toNat)
  | .ch sel _ _ => (3, sel.toNat)
  | .uop code _ => (4, code.toNat)

/-- The row of an operation in the opcode table: width of its format, mask, match. `CMD.ILLEGAL` has no single match and
`TONE.ILLEGAL` no binary form; the first is given a mask of 0, the second the row of EMIT, whose word it has (R90). -/
def row : Instr → Nat × Nat × Nat
  | .encodeSdx => (7, 0x7F, 0x4C)
  | .encodePd120 => (7, 0x7F, 0x5F)
  | .encodeR36 => (7, 0x7F, 0x08)
  | .oscReset => (4, 0xF, 0x0)
  | .emit _ _ => (4, 0xF, 0x1)
  | .push _ => (4, 0xF, 0x2)
  | .sampleR _ _ => (3, 0x7, 0x0)
  | .sampleG _ _ => (3, 0x7, 0x1)
  | .sampleB _ _ => (3, 0x7, 0x2)
  | .sampleY _ _ => (3, 0x7, 0x3)
  | .sampleRY _ _ => (3, 0x7, 0x4)
  | .sampleBY _ _ => (3, 0x7, 0x5)
  | .avg2 _ _ => (4, 0xF, 0x3)
  | .fmap _ => (4, 0xF, 0x4)
  | .encodeVis _ => (4, 0xF, 0x5)
  | .scanSdx => (4, 0xF, 0x6)
  | .scanPd120 => (4, 0xF, 0x7)
  | .scanR36 => (4, 0xF, 0x8)
  | .eot => (4, 0xF, 0x9)
  | .cmdIllegal _ => (7, 0, 0)
  | .chIllegal _ _ _ => (3, 0x6, 0x6)
  | .toneIllegal _ _ => (4, 0xF, 0x1)

/-- The word of an operation is on the carrier of its row and matches the row; that of an illegal command is the word of
no mode. -/
def Statement (i : Instr) : Prop :=
  i.wf = true →
    (carried (encode i)).1 = (row i).1 ∧ (carried (encode i)).2 &&& (row i).2.1 = (row i).2.2 ∧
      ((row i).2.1 = 0 → ∀ j ∈ [Instr.encodeSdx, .encodePd120, .encodeR36], carried (encode i) ≠ carried (encode j))

theorem encodeSdx : Statement .encodeSdx := fun _ => by simp [carried, encode, row]
theorem encodePd120 : Statement .encodePd120 := fun _ => by simp [carried, encode, row]
theorem encodeR36 : Statement .encodeR36 := fun _ => by simp [carried, encode, row]
theorem oscReset : Statement .oscReset := fun _ => by simp [carried, encode, row]
theorem emit (f d : Rat) : Statement (.emit f d) := fun _ => by simp [carried, encode, row]
theorem push (v : Sample) : Statement (.push v) := fun _ => by simp [carried, encode, row]
theorem sampleR (x y : Nat) : Statement (.sampleR x y) := fun _ => by simp [carried, encode, row]
theorem sampleG (x y : Nat) : Statement (.sampleG x y) := fun _ => by simp [carried, encode, row]
theorem sampleB (x y : Nat) : Statement (.sampleB x y) := fun _ => by simp [carried, encode, row]
theorem sampleY (x y : Nat) : Statement (.sampleY x y) := fun _ => by simp [carried, encode, row]
theorem sampleRY (x y : Nat) : Statement (.sampleRY x y) := fun _ => by simp [carried, encode, row]
theorem sampleBY (x y : Nat) : Statement (.sampleBY x y) := fun _ => by simp [carried, encode, row]
theorem avg2 (a b : Rat) : Statement (.avg2 a b) := fun _ => by simp [carried, encode, row]
theorem fmap (a : Rat) : Statement (.fmap a) := fun _ => by simp [carried, encode, row]
theorem encodeVis (c : ModeCode) : Statement (.encodeVis c) := fun _ => by simp [carried, encode, row]
theorem scanSdx : Statement .scanSdx := fun _ => by simp [carried, encode, row]
theorem scanPd120 : Statement .scanPd120 := fun _ => by simp [carried, encode, row]
theorem scanR36 : Statement .scanR36 := fun _ => by simp [carried, encode, row]
theorem eot : Statement .eot := fun _ => by simp [carried, encode, row]

theorem cmdIllegal (mode : ModeCode) : Statement (.cmdIllegal mode) := by
  intro h
  refine ⟨rfl, Nat.and_zero _, fun _ j hj e => ?_⟩
  have h : mode ≠ 0b1001100#7 ∧ mode ≠ 0b1011111#7 ∧ mode ≠ 0b0001000#7 := by
    simpa [Instr.wf, ModeCode.isMode, and_assoc] using h
  have e2 : mode.toNat = (carried (encode j)).2 := congrArg Prod.snd e
  fin_cases hj
  · exact h.1 (BitVec.eq_of_toNat_eq e2)
  · exact h.2.1 (BitVec.eq_of_toNat_eq e2)
  · exact h.2.2 (BitVec.eq_of_toNat_eq e2)

theorem chIllegal (c : BitVec 1) (x y : Nat) : Statement (.chIllegal c x y) := by
  intro _
  refine ⟨rfl, ?_, fun h => by cases h⟩
  have : c = 0 ∨ c = 1 := by bv_omega
  rcases this with rfl | rfl <;> simp [carried, encode, row]

theorem toneIllegal (f d : Rat) : Statement (.toneIllegal f d) := fun _ => by simp [carried, encode, row]

end Sys2Proof.Laws.Codes
end

