-- ==== Sys2Proof/Tests/Slice0.lean ====
section
/-! SUPPORT. Tests of single operations and steps, with expected values from spec/95_test_vectors.md (V and P numbers)
and the encoding tables of spec/30_encoding.md, and one witness for the hypotheses of each obligation. -/

namespace Sys2Proof.Tests

open Sys2Proof Sys2Proof.Machine

set_option Elab.async false

/-! ### Helpers -/

/-- The reset state at another sample rate. -/
def rig (sr : BitVec 32) : State := { State.reset with latched := { Latched.atReset with sr := sr } }

/-- A sink that gives these answers and then fails. -/
def failing (answers : List Bool) : Sink := ⟨[], 0, answers, false⟩

/-- The host's ports with a command of this mode and this image size at 44100 Hz. -/
def commandPins (mode : ModeCode) (w h : BitVec 16) : Pins := ⟨false, true, mode, 44100, w, h, []⟩

/-- The reset state with these ports. -/
def withPins (p : Pins) : State := { State.reset with pins := p }

/-- The outcome is a next state with this property. -/
def after (o : Host.Outcome State Fault Refusal) (p : State → Bool) : Bool :=
  match o with
  | .next t => p t
  | _ => false

/-- A buffer whose pixel `(0, 0)` is `(r, g, b)`, the rest unplaced, and another for `(5, 2)` of a 320-wide image. -/
def pixel (r g b : Byte) : State := { State.reset with pix := placeBytes [] [(0, r), (1, g), (2, b)] }

def pixel52 : State :=
  { State.reset with
    latched := ⟨0b0001000#7, 8000, 320, 240⟩
    pix := placeBytes [] [(1937, 77), (1935, 12), (1936, 200)] }

/-- The image of P3: pixel `(0, 0)` red, pixel `(0, 1)` blue, in a Robot-36 encode at 8000 Hz, at a body position. -/
def p3 (row slot : Nat) : State :=
  { State.reset with
    latched := ⟨0b0001000#7, 8000, 320, 240⟩
    status := ⟨true, false, 0⟩
    seq := ⟨.body, 0, row, slot, 0⟩
    pix := placeBytes [] [(0, 255), (962, 255)] }

/-! ### Well-formedness -/

theorem test_wf_emit_negative_frequency : (Instr.emit (-1) 1).wf = false := by decide +kernel
theorem test_wf_emit_zero_duration : (Instr.emit 1200 0).wf = false := by decide +kernel
theorem test_wf_emit_silence : (Instr.emit 0 (1 / 2)).wf = true := by decide +kernel
theorem test_wf_toneIllegal_of_a_tone : (Instr.toneIllegal 1200 9).wf = false := by decide +kernel
theorem test_wf_cmdIllegal_of_a_mode : (Instr.cmdIllegal 0b1001100#7).wf = false := by decide
theorem test_wf_cmdIllegal : (Instr.cmdIllegal 0b0101100#7).wf = true := by decide

/-! ### Decoding: words written out from R77, R78 and R80 -/

theorem test_decode_encodeSdx : decode (.cmd 0b1001100#7) = .ok .encodeSdx := rfl
theorem test_decode_encodePd120 : decode (.cmd 0b1011111#7) = .ok .encodePd120 := rfl
theorem test_decode_encodeR36 : decode (.cmd 0b0001000#7) = .ok .encodeR36 := rfl
theorem test_decode_cmdIllegal : decode (.cmd 0b0101100#7) = .ok (.cmdIllegal 0b0101100#7) := rfl
theorem test_decode_sampleR : decode (.ch 0b000#3 5 2) = .ok (.sampleR 5 2) := rfl
theorem test_decode_sampleG : decode (.ch 0b001#3 5 2) = .ok (.sampleG 5 2) := rfl
theorem test_decode_sampleB : decode (.ch 0b010#3 5 2) = .ok (.sampleB 5 2) := rfl
theorem test_decode_sampleY : decode (.ch 0b011#3 5 2) = .ok (.sampleY 5 2) := rfl
theorem test_decode_sampleRY : decode (.ch 0b100#3 5 2) = .ok (.sampleRY 5 2) := rfl
theorem test_decode_sampleBY : decode (.uop 0b1010#4 [.channel 0b101#3, .coord 5, .coord 2]) = .ok (.sampleBY 5 2) := rfl
theorem test_decode_chIllegal : decode (.ch 0b110#3 5 2) = .ok (.chIllegal 0 5 2) := rfl
theorem test_decode_oscReset : decode (.uop 0b0000#4 []) = .ok .oscReset := rfl
theorem test_decode_emit : decode (.uop 0b0001#4 [.rat 1200, .rat 9]) = .ok (.emit 1200 9) := by decide +kernel
theorem test_decode_toneIllegal : decode (.uop 0b0001#4 [.rat (-1), .rat 9]) = .ok (.toneIllegal (-1) 9) := by decide +kernel
theorem test_decode_push : decode (.uop 0b0010#4 [.sample 0xDDC6#16]) = .ok (.push 0xDDC6#16) := rfl
theorem test_decode_avg2 : decode (.uop 0b0011#4 [.rat 1, .rat 2]) = .ok (.avg2 1 2) := rfl
theorem test_decode_fmap : decode (.uop 0b0100#4 [.rat 255]) = .ok (.fmap 255) := rfl
theorem test_decode_encodeVis : decode (.uop 0b0101#4 [.code 0b1001100#7]) = .ok (.encodeVis 0b1001100#7) := rfl
theorem test_decode_scanSdx : decode (.uop 0b0110#4 []) = .ok .scanSdx := rfl
theorem test_decode_scanPd120 : decode (.uop 0b0111#4 []) = .ok .scanPd120 := rfl
theorem test_decode_scanR36 : decode (.uop 0b1000#4 []) = .ok .scanR36 := rfl
theorem test_decode_eot : decode (.uop 0b1001#4 []) = .ok .eot := rfl
theorem test_decode_unassigned : decode (.uop 0b1011#4 []) = .error (.unassignedUop 0b1011#4) := rfl
theorem test_decode_wrong_operands : decode (.uop 0b0000#4 [.coord 1]) = .error (.wrongOperands 0b0000#4) := rfl

/-- The rows of the table by their widths: `CMD` 7 bits, `CH` 3 bits, `UOP` 4 bits. -/
theorem test_table_words : decodeTableWord 7 0x4C = some .encodeSdx ∧ decodeTableWord 7 0x08 = some .encodeR36 ∧
    decodeTableWord 3 0x4 = some (.sampleRY 0 0) ∧ decodeTableWord 3 0x6 = some (.chIllegal 0 0 0) ∧
    decodeTableWord 4 0x8 = some .scanR36 ∧ decodeTableWord 4 0x1 = some (.emit 0 1) ∧ decodeTableWord 4 0xB = none := by
  decide +kernel

/-- The same where a width is given in whole bytes. -/
theorem test_table_bytes : decodeTableWord 8 0x5F = some .encodePd120 ∧ decodeTableWord 8 0x9 = some .eot ∧
    decodeTableWord 8 0x0 = some .oscReset ∧ decodeTableWord 8 0x80 = none := by
  decide +kernel

/-- A table word runs as the first operation after reset: a command on the port, an internal operation issued. -/
theorem test_fetch_word_command :
    after (step (State.reset.withFetchWord 7 0x5F)) (fun t => t.seq == ⟨.vis, 0, 0, 0, 0⟩ && t.status.busy) = true := by
  decide +kernel

theorem test_fetch_word_operation :
    after (step (State.reset.withFetchWord 4 0x1)) (fun t => t.total == 44 && t.result == 44) = true := by
  decide +kernel

/-! ### Numbers -/

/-- V8, V7: the sample function at ties and at other phases. -/
theorem test_dac : [(0 : Rat), 1 / 12, 1 / 6, 1 / 4, 5 / 12, 1 / 2, 7 / 12, 3 / 4, 3 / 20, 3 / 10].map dac
    = [0, 16384, 28377, 32767, 16384, 0, -16384, -32767, 26509, 31163] := by
  decide +kernel

/-- V2: the first three counts of `1.08` ms at 44100 Hz, with their carries. -/
theorem test_counts : segmentCount 44100 (27 / 25) 0 = 47 ∧ segmentCarry 44100 (27 / 25) 0 = 157 / 250 ∧
    segmentCount 44100 (27 / 25) (157 / 250) = 48 ∧ segmentCarry 44100 (27 / 25) (157 / 250) = 32 / 125 := by
  decide +kernel

/-- V5: a carry that reaches exactly 1. -/
theorem test_count_at_one : segmentCount 8000 (1 / 16) (1 / 2) = 1 ∧ segmentCarry 8000 (1 / 16) (1 / 2) = 0 := by
  decide +kernel

/-! ### The oscillator -/

/-- V1. -/
theorem test_oscReset : after (exec .oscReset { State.reset with osc := ⟨1 / 3, 1 / 2⟩ }) (fun t => t.osc == ⟨0, 0⟩) = true := by
  decide +kernel

/-- V7, `OSC_END = LAST`. -/
theorem test_emit : after (exec (.emit 1200 2) (rig 8000)) (fun t =>
    t.sink.accepted.map BitVec.toInt == [0, 26509, 31163, 10126, -19260, -32767, -19260, 10126, 31163, 26509, 0, -26509,
      -31163, -10126, 19260, 32767] && t.osc == ⟨1 / 4, 0⟩ && t.result == 16) = true := by
  decide +kernel

/-- P1, last row, `OSC_END = NEXT`. -/
theorem test_emit_next : after (exec (.emit 1200 1)
    { rig 6000 with osc := ⟨1 / 4, 0⟩, total := 12, params := ⟨[], .next⟩ }) (fun t =>
    t.sink.accepted.map BitVec.toInt == [32767, 10126, -26509, -26509, 10126, 32767] && t.osc == ⟨9 / 20, 0⟩
      && t.total == 18) = true := by
  decide +kernel

/-- V11. -/
theorem test_push : after (exec (.push (BitVec.ofInt 16 (-8762))) { State.reset with total := 4409 }) (fun t =>
    t.total == 4410 && t.sink.accepted.map BitVec.toInt == [-8762] && t.sink.bytes == [0xC6, 0xDD]) = true := by
  decide +kernel

theorem test_push_refused : after (exec (.push (BitVec.ofInt 16 (-8762)))
    { State.reset with total := 4409, sink := failing [] }) (fun t =>
    t.total == 4409 && t.sink.accepted == [] && t.status == ⟨false, true, 4⟩ && t.seq.stage == .fault) = true := by
  decide +kernel

theorem test_toneIllegal : exec (.toneIllegal 1200 0) State.reset = .refused .toneOutOfDomain := rfl

/-! ### The sampler -/

/-- V15. -/
theorem test_sampleR : after (exec (.sampleR 5 2) pixel52) (fun t => t.result == 12) = true := by decide +kernel
theorem test_sampleG : after (exec (.sampleG 5 2) pixel52) (fun t => t.result == 200) = true := by decide +kernel
theorem test_sampleB : after (exec (.sampleB 5 2) pixel52) (fun t => t.result == 77) = true := by decide +kernel
theorem test_sampleR_outside : exec (.sampleR 640 0) State.reset = .fault .pixelOutsideBuffer := by rfl

/-- V16. -/
theorem test_sampleY : after (exec (.sampleY 5 2) pixel52) (fun t => t.result == 127.438898704) = true := by decide +kernel
theorem test_sampleY_blue : after (exec (.sampleY 0 0) (pixel 0 0 255)) (fun t => t.result == 40.96449592) = true := by
  decide +kernel
theorem test_sampleRY : after (exec (.sampleRY 5 2) pixel52) (fun t => t.result == 54.217702838) = true := by decide +kernel
theorem test_sampleRY_cyan : after (exec (.sampleRY 0 0) (pixel 0 255 255)) (fun t => t.result == 16.00738283) = true := by
  decide +kernel
theorem test_sampleBY : after (exec (.sampleBY 5 2) pixel52) (fun t => t.result == 101.844107678) = true := by decide +kernel
theorem test_sampleBY_red : after (exec (.sampleBY 0 0) (pixel 255 0 0)) (fun t => t.result == 90.20564165) = true := by
  decide +kernel

/-- V17. -/
theorem test_chIllegal : after (exec (.chIllegal 0 0 0) State.reset) (fun t =>
    t.status == ⟨false, true, 3⟩ && t.seq.stage == .fault && t.result == 0) = true := by
  decide +kernel

/-- V18. -/
theorem test_avg2 : after (exec (.avg2 239.99261717 109.78759145) State.reset) (fun t => t.result == 174.89010431) = true := by
  decide +kernel

/-- V20. -/
theorem test_fmap : after (exec (.fmap 255) State.reset) (fun t => t.result == 2299.9999995) = true := by decide +kernel
theorem test_fmap_twelve : after (exec (.fmap 12) State.reset) (fun t => t.result == 1537.6470588) = true := by decide +kernel

/-! ### The VIS header -/

/-- V21, V22: the tones of slots 12 to 20 of the two codes of the source's checks. -/
theorem test_vis_tones : ((visTones 0b1001100#7).drop 12).map Tone.f = [1300, 1300, 1100, 1100, 1300, 1300, 1100, 1100, 1200]
    ∧ ((visTones 0b1011111#7).drop 12).map Tone.f = [1100, 1100, 1100, 1100, 1100, 1300, 1100, 1300, 1200] := by
  decide +kernel

/-- P2 at 100 Hz: 1710 ms are 171 samples; `VIS.ones = 3`, and `SEQ` hands over to the body. -/
theorem test_encodeVis : after (exec (.encodeVis 0b1001100#7) (rig 100)) (fun t =>
    t.total == 171 && t.osc.carry == 0 && t.visOnes == 3 && t.seq == ⟨.body, 0, 0, 0, 0⟩) = true := by
  decide +kernel

/-- V34: the sink fails at the second sample of the leader. -/
theorem test_encodeVis_sink : after (exec (.encodeVis 0b1001100#7) { rig 8000 with sink := failing [true] }) (fun t =>
    t.total == 1 && t.status.err == 4 && t.sink.accepted == [0] && t.seq.stage == .fault) = true := by
  decide +kernel

/-! ### The scan encoders -/

/-- P4 and V26: the first body sample of Scottie-DX from phase 127/441 is 31838. -/
theorem test_scanSdx : after (exec .scanSdx { State.reset with osc := ⟨127 / 441, 0⟩, sink := failing [true] }) (fun t =>
    t.sink.accepted.map BitVec.toInt == [31838] && t.osc.carry == 9 / 10 && t.status.err == 4) = true := by
  decide +kernel

/-- The first sync tone of a PD-120 pair is 20 ms at 1200 Hz: its second sample from phase 0 at 8000 Hz is 26509 (V7). -/
theorem test_scanPd120 : after (exec .scanPd120 { rig 8000 with sink := failing [true, true] }) (fun t =>
    t.sink.accepted.map BitVec.toInt == [0, 26509] && t.osc.carry == 0 && t.seq.row == 0) = true := by
  decide +kernel

/-- P3: row 0 slot 0 of Robot-36 starts 5126, 29196, 29196 from phase 1/40. -/
theorem test_scanR36 : after (exec .scanR36 { p3 0 0 with osc := ⟨1 / 40, 0⟩, sink := failing [true, true, true] }) (fun t =>
    t.sink.accepted.map BitVec.toInt == [5126, 29196, 29196] && t.total == 3) = true := by
  decide +kernel

/-- P3, V30: the tones of Robot-36 at its slots, on an even and on an odd row. -/
theorem test_r36_tones : toneAt (p3 0 2) = some ⟨1755.614180671613686, 0.275⟩ ∧ toneAt (p3 0 3) = some ⟨1500, 4.5⟩ ∧
    toneAt (p3 0 5) = some ⟨2048.674836708058619, 0.1375⟩ ∧ toneAt (p3 1 3) = some ⟨2300, 4.5⟩ ∧
    toneAt (p3 1 5) = some ⟨2017.958052727256609, 0.1375⟩ ∧ toneAt (p3 240 0) = none := by
  decide +kernel

/-- V28: the tones of a PD-120 pair red over blue. -/
theorem test_pd_tones :
    let s : State := { State.reset with pix := placeBytes [] [(0, 255), (1922, 255)] }
    [2, 3, 4, 5].map (fun slot => (pdTone s ⟨.body, 0, 0, slot, 0⟩).f)
      = [1755.614180671613686, 2048.674836708058619, 2017.958052727256609, 1628.516065551050008] := by
  decide +kernel

/-- R190: after the last pixel of row 0, Scottie-DX goes on at slot 1 of row 1; after its last pixel, at the end of
transmission. -/
theorem test_sdx_advance : Mode.nextPosition .scottieDx ⟨.body, 0, 0, 7, 319⟩ = ⟨.body, 0, 1, 1, 0⟩ ∧
    Mode.nextPosition .scottieDx ⟨.body, 0, 255, 7, 319⟩ = ⟨.eot, 0, 0, 0, 0⟩ := by
  decide

/-! ### The frame level -/

/-- V35 at 10 Hz: 900 ms are 9 samples, and the encode is complete. -/
theorem test_eot : after (exec .eot (rig 10)) (fun t =>
    t.total == 9 && t.status == ⟨false, true, 0⟩ && t.seq.stage == .done && t.result == 9) = true := by
  decide +kernel

/-- P4: the command is accepted. -/
theorem test_encodeSdx : after (exec .encodeSdx (withPins (commandPins 0b1001100#7 320 256))) (fun t =>
    t.seq == ⟨.vis, 0, 0, 0, 0⟩ && t.status == ⟨true, false, 0⟩ && t.latched == ⟨0b1001100#7, 44100, 320, 256⟩) = true := by
  decide +kernel

/-- V33. -/
theorem test_encodeSdx_height : after (exec .encodeSdx (withPins (commandPins 0b1001100#7 320 240))) (fun t =>
    t.status == ⟨false, true, 5⟩ && t.seq.stage == .fault && t.total == 0) = true := by
  decide +kernel

theorem test_encodePd120 : after (exec .encodePd120 (withPins (commandPins 0b1011111#7 640 496))) (fun t =>
    t.status == ⟨true, false, 0⟩ && t.seq.stage == .vis) = true := by
  decide +kernel

theorem test_encodePd120_odd : after (exec .encodePd120 (withPins (commandPins 0b1011111#7 640 495))) (fun t =>
    t.status.err == 5 && t.osc == Osc.start) = true := by
  decide +kernel

theorem test_encodeR36 : after (exec .encodeR36 (withPins (commandPins 0b0001000#7 320 240))) (fun t =>
    t.status == ⟨true, false, 0⟩ && t.seq.stage == .vis) = true := by
  decide +kernel

theorem test_encodeR36_rows : after (exec .encodeR36 (withPins (commandPins 0b0001000#7 320 242))) (fun t =>
    t.status.err == 5) = true := by
  decide +kernel

theorem test_cmdIllegal : after (exec (.cmdIllegal 0b0101100#7) (withPins (commandPins 0b0101100#7 320 256))) (fun t =>
    t.status == ⟨false, true, 2⟩ && t.latched.mode == 0b0101100#7 && t.seq.stage == .fault) = true := by
  decide +kernel

/-- The mode is checked before the geometry. -/
theorem test_cmdIllegal_first : after (exec (.cmdIllegal 0b1111111#7) (withPins (commandPins 0b1111111#7 1 1))) (fun t =>
    t.status.err == 2) = true := by
  decide +kernel

/-! ### Steps -/

/-- P3, row 0 slot 5: a chroma tone of Robot-36 at 8000 Hz has one sample; it is issued and then pushed. -/
theorem test_step_issues : after (step (p3 0 5)) (fun t =>
    t.emitting == some ⟨⟨2048.674836708058619, 0.1375⟩, 1, 0, 0⟩ && t.osc.carry == 1 / 10 && t.total == 0) = true := by
  decide +kernel

theorem test_step_emits : after (step { p3 0 5 with emitting := some ⟨⟨2048, 0.1375⟩, 1, 0, 1 / 4⟩ }) (fun t =>
    t.sink.accepted.map BitVec.toInt == [32767] && t.seq == ⟨.body, 0, 0, 5, 1⟩ && t.emitting == none
      && t.osc.ph == 1 / 4) = true := by
  decide +kernel

/-- V37. -/
theorem test_step_reset : after (step { p3 0 5 with total := 7, inputs := [{ Pins.atReset with rst := true }] }) (fun t =>
    t.seq.stage == .idle && t.status == ⟨false, false, 0⟩ && t.total == 0 && t.osc == ⟨0, 0⟩) = true := by
  decide +kernel

/-- U3: a host store while an encode runs has no meaning; at rest it is placed. -/
theorem test_step_store :
    step { p3 0 5 with inputs := [{ Pins.atReset with stores := [(0, 1)] }] } = .refused .pixelBufferChanged ∧
      after (step { State.reset with inputs := [{ Pins.atReset with stores := [(9, 1)] }] })
        (fun t => t.pix == [(9, 1)]) = true := by
  constructor
  · rfl
  · decide +kernel

/-! ### Witnesses: concrete states and operands that meet the hypotheses of each obligation -/

theorem reset_sink (n : ℕ) : State.reset.sink.accepts n := fun _ _ => rfl

theorem reset_sink_all : State.reset.sink.acceptsAll := fun _ => rfl

/-- A block at rest after an encode of Robot-36, with two samples in the sink. -/
def rested : State :=
  { State.reset with
    latched := ⟨0b0001000#7, 44100, 320, 240⟩
    status := ⟨false, true, 0⟩
    seq := ⟨.done, 4, 0, 0, 0⟩
    visOnes := 1
    total := 2
    sink := ⟨[7, 5], 0, [], true⟩
    pins := commandPins 0b0001000#7 320 240 |>.quiet }

/-- A block in the middle of an encode of Robot-36, with one sample of its tone still to push. -/
def running : State :=
  { p3 0 5 with visOnes := 1, emitting := some ⟨⟨2048.674836708058619, 0.1375⟩, 1, 0, 0⟩ }

theorem witness_HardwareResetFromAnyState :
    (State.nextPins { running with inputs := [{ Pins.atReset with rst := true }] }).rst = true := rfl

/-- The count without and with a carried sample (V2), and where the carry reaches 1 (V5). -/
theorem witness_EmitCountsAndCarriesExactly :
    (∃ s : State, s.latched.sr = 44100 ∧ s.osc.carry = 0 ∧ s.sink.accepts (47 + 0) ∧
      (47 : ℕ) = ⌊((44100 : ℕ) * (27 / 25) / 1000 : ℚ)⌋₊ ∧ ¬ (1 : ℚ) ≤ 0 + (44100 * (27 / 25) / 1000 - 47)) ∧
    (∃ s : State, s.latched.sr = 44100 ∧ s.osc.carry = 157 / 250 ∧ s.sink.accepts (47 + 1) ∧
      ⌊((157 / 250 : ℚ) + (44100 * (27 / 25) / 1000 - 47))⌋₊ = 1) ∧
    ∃ s : State, s.latched.sr = 8000 ∧ s.osc.carry = 1 / 2 ∧ s.sink.accepts (0 + 1) ∧
      ⌊((1 / 2 : ℚ) + (8000 * (1 / 16) / 1000 - 0))⌋₊ = 1 := by
  refine ⟨⟨rig 44100, rfl, rfl, reset_sink _, ?_, ?_⟩, ⟨{ rig 44100 with osc := ⟨0, 157 / 250⟩ }, rfl, rfl, reset_sink _, ?_⟩,
    ⟨{ rig 8000 with osc := ⟨0, 1 / 2⟩ }, rfl, rfl, reset_sink _, ?_⟩⟩
  · exact ((Nat.floor_eq_iff (by norm_num)).2 (by norm_num)).symm
  · norm_num
  · exact (Nat.floor_eq_iff (by norm_num)).2 (by norm_num)
  · exact (Nat.floor_eq_iff (by norm_num)).2 (by norm_num)

/-- Also for EmitReseedsThePhasePair (each value of `OSC_END`) and EmitFrame. -/
theorem witness_EmitSamplesFollowTheSineFormula :
    (0 : ℚ) ≤ 1200 ∧ (0 : ℚ) < 2 ∧ (rig 8000).latched.sr ≠ 0 ∧
      (rig 8000).sink.accepts (segmentCount (rig 8000).latched.sr 2 (rig 8000).osc.carry) ∧
      (rig 8000).params.oscEnd = .last ∧ State.sink { rig 8000 with params := ⟨[], .next⟩ } = (rig 8000).sink :=
  ⟨by norm_num, by norm_num, by decide, reset_sink _, rfl, rfl⟩

theorem witness_EmptyToneOnlyCarries :
    (0 : ℚ) ≤ 2048 ∧ (0 : ℚ) < 0.1375 ∧ (rig 6000).latched.sr ≠ 0 ∧ 0 ≤ (rig 6000).osc.carry ∧
      (rig 6000).osc.carry + (rig 6000).latched.sr.toNat * 0.1375 / 1000 < 1 :=
  ⟨by norm_num, by norm_num, by decide, by decide +kernel, by decide +kernel⟩

theorem witness_SilenceHoldsTheLevel : (0 : ℚ) < 0.5 ∧ (rig 6000).latched.sr ≠ 0 ∧
    (rig 6000).sink.accepts (segmentCount (rig 6000).latched.sr 0.5 (rig 6000).osc.carry) :=
  ⟨by norm_num, by decide, reset_sink _⟩

/-- At the first sample and at the last. -/
theorem witness_EmitStopsAtTheFailingSample :
    (0 < segmentCount 8000 2 0 ∧ (failing []).accepts 0 ∧ (failing []).answerTo 0 = false) ∧
      15 < segmentCount 8000 2 0 ∧ (failing (List.replicate 15 true)).accepts 15 ∧
      (failing (List.replicate 15 true)).answerTo 15 = false := by
  refine ⟨⟨by decide +kernel, fun i h => absurd h (Nat.not_lt_zero i), rfl⟩, by decide +kernel, ?_, rfl⟩
  unfold Sink.accepts
  decide

/-- The clauses by their operands: a negative frequency, a duration of 0, a legal tone at rate 0 and at rate 44100, and a
preamble with an illegal tone. -/
theorem witness_ToneMeaningExactlyOnItsDomain :
    ((-1 : ℚ) < 0 ∧ (0 : ℚ) ≤ 0) ∧ ((0 : ℚ) ≤ 0 ∧ (0 : ℚ) < 1 ∧ (rig 0).latched.sr = 0 ∧ (rig 44100).latched.sr ≠ 0) ∧
      ∃ t ∈ (State.params { rig 44100 with params := ⟨[⟨1200, 0⟩], .last⟩ }).preamble, t.f < 0 ∨ t.d ≤ 0 :=
  ⟨⟨by norm_num, le_refl _⟩, ⟨le_refl _, by norm_num, rfl, by decide⟩, ⟨1200, 0⟩, by decide +kernel, .inr (le_refl _)⟩

/-- Two tones of 1 ms at 6000 Hz, six samples each (P1). -/
theorem witness_TonesJoinWithoutAJump : ∃ t, exec (.emit 1500 1) (rig 6000) = .next t ∧
    (rig 6000).params.oscEnd = .last ∧ (rig 6000).sink.acceptsAll ∧
    0 < segmentCount (rig 6000).latched.sr 1 (rig 6000).osc.carry ∧ 0 < segmentCount t.latched.sr 1 t.osc.carry :=
  ⟨_, rfl, rfl, reset_sink_all, by decide +kernel, by decide +kernel⟩

theorem witness_CountsHaveAClosedForm : (∀ t ∈ [(⟨1500, 1⟩ : Tone), ⟨0, 1 / 2⟩], 0 ≤ t.f ∧ 0 < t.d) ∧
    (rig 6000).latched.sr ≠ 0 ∧ (rig 6000).osc.carry = 0 ∧ (rig 6000).sink.acceptsAll :=
  ⟨by simp, by decide, rfl, reset_sink_all⟩

/-- The sink's two answers; and a state that meets the premise of the last clause of the first. -/
theorem witness_PushFollowsTheSinksAnswer : rested.sink.answer = true ∧
    rested.sink.acceptedRev.length = rested.sink.base + rested.total ∧ (failing []).answer = false := ⟨rfl, rfl, rfl⟩

/-- The last pixel of the buffer; also for SampleLumaFormula and SampleChromaFormulas. -/
theorem witness_SampleReturnsTheRawChannel : 639 < State.reset.latched.w.toNat ∧ 495 < State.reset.latched.h.toNat := by
  decide

theorem witness_SampleResultsStayInRange : (∃ t, exec (.sampleB 639 495) State.reset = .next t) ∧
    (∃ t, exec (.sampleY 639 495) State.reset = .next t) ∧
    (∃ t, exec (.sampleRY 639 495) State.reset = .next t) ∧ ∃ t, exec (.sampleBY 639 495) State.reset = .next t :=
  ⟨⟨_, rfl⟩, ⟨_, rfl⟩, ⟨_, rfl⟩, ⟨_, rfl⟩⟩

/-- The first column and the first row outside, and an image one column or one row short. -/
theorem witness_SampleOutsideTheBufferStops : State.reset.latched.w.toNat ≤ 640 ∧ State.reset.latched.h.toNat ≤ 496 ∧
    State.reset.latched.sr ≠ 0 ∧ (319 : BitVec 16).toNat < Mode.width .robot36 ∧ (239 : BitVec 16).toNat < Mode.rows .robot36 := by
  decide

theorem witness_HostStoreReachesItsByteOnly :
    let s : State := { rested with inputs := [{ rested.pins with stores := [(9, 1)] }] }
    s.pix.wf ∧ s.nextPins.stores = [(9, 1)] ∧ s.nextPins.rst = false ∧ s.nextPins.cmdValid = false ∧ s.issue = none ∧
      s.emitting = none ∧ s.seq.stage.running = false ∧ s.status.busy = false := by
  decide

theorem witness_NoOperationTouchesTheEnvironment : ∃ t, exec .oscReset running = .next t := ⟨_, rfl⟩

/-- Every clause of the VIS table has its slot. -/
theorem witness_VisSlotTones (k : ℕ) : ∃ s : State, s.seq = ⟨.vis, k, 0, 0, 0⟩ :=
  ⟨{ State.reset with seq := ⟨.vis, k, 0, 0, 0⟩ }, rfl⟩

/-- With an empty preamble and with one tone in it. -/
theorem witness_EncodeVisEmitsItsTones : State.reset.latched.sr ≠ 0 ∧
    (∀ t ∈ State.reset.params.preamble, 0 ≤ t.f ∧ 0 < t.d) ∧
    (∀ t ∈ (Params.mk [⟨800, 60⟩] .last).preamble, 0 ≤ t.f ∧ 0 < t.d) ∧ State.reset.sink.acceptsAll :=
  ⟨by decide, by simp [State.reset, Config.referenceParams], by simp, reset_sink_all⟩

/-- The reset state is large enough for all three scans. -/
theorem witness_ScansEmitTheirTones : State.reset.latched.sr ≠ 0 ∧ 640 ≤ State.reset.latched.w.toNat ∧
    496 ≤ State.reset.latched.h.toNat ∧ 320 ≤ pixel52.latched.w.toNat ∧ 240 ≤ pixel52.latched.h.toNat ∧
    State.reset.sink.acceptsAll :=
  ⟨by decide, by decide, by decide, by decide, by decide, reset_sink_all⟩

theorem witness_BlackScottieImage : ∀ a, State.reset.pix.read a = 0 := fun _ => rfl

/-- The end of transmission at 10 Hz, nine samples, with a sink that fails at the last; the other two clauses have the same
form. -/
theorem witness_StageStopsAtTheFailingSample :
    (rig 10).latched.sr ≠ 0 ∧ (0 : ℚ) ≤ (rig 10).osc.carry ∧ (rig 10).osc.carry < 1 ∧
      Instr.eot = .eot ∧ 9 = ⌊samplesDue (rig 10).latched.sr (rig 10).osc.carry eotTones⌋₊ ∧ 8 < 9 ∧
      (failing (List.replicate 8 true)).accepts 8 ∧ (failing (List.replicate 8 true)).answerTo 8 = false ∧
      Instr.scanSdx = Mode.scan .scottieDx ∧ Mode.width .scottieDx ≤ (rig 10).latched.w.toNat ∧
      Mode.rows .scottieDx ≤ (rig 10).latched.h.toNat ∧
      8 < ⌊samplesDue (rig 10).latched.sr (rig 10).osc.carry (scanTones .scottieDx (rig 10))⌋₊ ∧
      (∀ t ∈ (rig 10).params.preamble, 0 ≤ t.f ∧ 0 < t.d) ∧
      8 < ⌊samplesDue (rig 10).latched.sr (rig 10).osc.carry ((rig 10).params.preamble ++ visTones 0)⌋₊ := by
  have hs : nominalDuration (scanTones .scottieDx (rig 10)) = 2688858 / 10 := by
    rw [← Mode.program_tones]; exact (sdxProgram_size _).2
  have hv : nominalDuration ((rig 10).params.preamble ++ visTones 0) = 1710 := (visTones_size 0).2
  have h0 : (rig 10).osc.carry = 0 := rfl
  have hr : ((rig 10).latched.sr.toNat : ℚ) = 10 := rfl
  refine ⟨by decide, h0.ge, by rw [h0]; norm_num, rfl, ?_, by norm_num, ?_, rfl, rfl, by decide, by decide, ?_,
    by simp [rig, State.reset, Config.referenceParams], ?_⟩
  · refine ((Nat.floor_eq_iff ?_).2 ?_).symm <;>
      simp only [samplesDue, targetCount, eotTones_size.2, h0, hr] <;> norm_num
  · unfold Sink.accepts; decide
  · refine Nat.lt_of_succ_le (Nat.le_floor ?_)
    simp only [samplesDue, targetCount, hs, h0, hr]; norm_num
  · refine Nat.lt_of_succ_le (Nat.le_floor ?_)
    simp only [samplesDue, targetCount, hv, h0, hr]; norm_num

theorem witness_EotEmitsItsTonesAndCompletes : (rig 10).latched.sr ≠ 0 ∧ (rig 10).sink.acceptsAll :=
  ⟨by decide, reset_sink_all⟩

/-- For each mode; also for ZeroRateHasNoMeaning, with the rate 0. -/
theorem witness_EncodeAcceptsAndStarts (m : Mode) : ∃ s : State, s.status.busy = false ∧
    s.pins.imgWidth.toNat = m.width ∧ s.pins.imgHeight.toNat = m.rows ∧ s.pins.cfgSampleRate ≠ 0 := by
  cases m
  · exact ⟨withPins (commandPins 0b1001100#7 320 256), by decide⟩
  · exact ⟨withPins (commandPins 0b1011111#7 640 496), by decide⟩
  · exact ⟨withPins (commandPins 0b0001000#7 320 240), by decide⟩

theorem witness_UnsupportedModeIsRejected : (0b1001101#7 : ModeCode) ≠ 0b1001100#7 ∧
    (0b1001101#7 : ModeCode) ≠ 0b1011111#7 ∧ (0b1001101#7 : ModeCode) ≠ 0b0001000#7 ∧ State.reset.status.busy = false := by
  decide

/-- One row too few and one column too many. -/
theorem witness_InvalidGeometryIsRejected :
    (commandPins 0b0001000#7 320 239).imgHeight.toNat ≠ Mode.rows .robot36 ∧
      (commandPins 0b0001000#7 321 240).imgWidth.toNat ≠ Mode.width .robot36 := by
  decide

theorem witness_BusyCommandIsIgnored :
    let s : State := { running with inputs := [commandPins 0b0001000#7 320 240] }
    s.status.busy = true ∧ s.issue = none ∧ s.nextPins.rst = false ∧ s.nextPins.stores = [] := by
  decide

theorem witness_ZeroRateHasNoMeaning : (rig 0).latched.sr = 0 ∧
    let p := { commandPins 0b0001000#7 320 240 with cfgSampleRate := 0 }
    (withPins p).status.busy = false ∧ (withPins p).pins.imgWidth.toNat = Mode.width .robot36 ∧
      (withPins p).pins.imgHeight.toNat = Mode.rows .robot36 ∧ (withPins p).pins.cfgSampleRate = 0 := by
  decide

theorem witness_StepRunsTheIssuedOperation :
    let s : State := { running with issue := some (.uop 0b0000#4 []) }
    s.issue = some (.uop 0b0000#4 []) ∧ decode (.uop 0b0000#4 []) = .ok .oscReset ∧ s.nextPins.rst = false ∧
      s.nextPins.stores = [] ∧ rested.status.busy = false :=
  ⟨rfl, rfl, rfl, rfl, rfl⟩

theorem witness_StepAcceptsThePresentedCommand :
    let s : State := { rested with inputs := [commandPins 0b1001100#7 320 256] }
    s.issue = none ∧ s.nextPins.rst = false ∧ s.nextPins.cmdValid = true ∧ s.status.busy = false := by
  decide

theorem witness_FetchWordRunsNext : decodeTableWord 7 0x4C = some .encodeSdx ∧ decodeTableWord 4 0x9 = some .eot ∧
    rested.status.busy = false := ⟨rfl, rfl, rfl⟩

/-- The last sample of a tone, and one before the last. -/
theorem witness_StepEmitsTheNextSample : running.quiet ∧ running.issue = none ∧
    running.emitting = some ⟨⟨2048.674836708058619, 0.1375⟩, 1, 0, 0⟩ ∧ ¬ 0 + 1 < 1 ∧ 0 + 1 < 2 ∧
    running.sink.answer = true :=
  ⟨⟨rfl, rfl⟩, rfl, rfl, by omega, by omega, rfl⟩

/-- A tone of one sample at 8000 Hz, and of none at 6000 Hz (V10). -/
theorem witness_StepIssuesTheToneOfSeq : (p3 0 5).quiet ∧ (p3 0 5).issue = none ∧ (p3 0 5).emitting = none ∧
    (p3 0 5).seq.stage.running = true ∧ toneAt (p3 0 5) = some ⟨2048.674836708058619, 0.1375⟩ ∧
    readsInside (p3 0 5) = true ∧ (p3 0 5).latched.sr ≠ 0 ∧ segmentCount (p3 0 5).latched.sr 0.1375 (p3 0 5).osc.carry ≠ 0 ∧
    segmentCount 6000 0.1375 (p3 0 5).osc.carry = 0 :=
  ⟨⟨rfl, rfl⟩, rfl, rfl, rfl, by decide +kernel, by decide, by decide, by decide +kernel, by decide +kernel⟩

theorem witness_RestingPositionsRest : rested.quiet ∧ rested.issue = none ∧ rested.emitting = none ∧
    rested.seq.stage ∈ [Stage.idle, .done, .fault] := ⟨⟨rfl, rfl⟩, rfl, rfl, by decide⟩

theorem running_inv : running.Inv where
  pix := by decide
  phase := by constructor <;> decide +kernel
  carry := by constructor <;> decide +kernel
  counted := rfl
  noIssue := rfl
  preamble := rfl
  status := ⟨rfl, rfl, rfl⟩
  operands := fun _ => ⟨by decide, .robot36, by decide⟩
  position := ⟨.robot36, by decide, by decide⟩
  ones := rfl
  emission := fun e h => by cases h; exact ⟨rfl, by decide +kernel, by decide, rfl⟩

theorem rested_inv : rested.Inv where
  pix := by decide
  phase := by constructor <;> decide +kernel
  carry := by constructor <;> decide +kernel
  counted := rfl
  noIssue := rfl
  preamble := rfl
  status := ⟨rfl, rfl, rfl⟩
  operands := fun h => by cases h
  position := rfl
  ones := rfl
  emission := fun e h => by cases h

/-- For StepKeepsTheInvariant and StreamIsAppendOnly: a step that pushes a sample, and one at rest. -/
theorem witness_StepKeepsTheInvariant : running.Inv ∧ (∃ t, step running = .next t) ∧ rested.Inv ∧
    (∃ t, step rested = .next t) ∧ running.issue = none :=
  ⟨running_inv, ⟨_, rfl⟩, rested_inv, ⟨_, rfl⟩, rfl⟩

/-- Each of the three ends of StepStopsOnlyOnAHostBreach is reached from a state that meets the invariant. -/
theorem witness_StepStopsOnlyOnAHostBreach : (∃ t, step running = .next t) ∧
    step { rested with inputs := [{ commandPins 0b0001000#7 320 240 with cfgSampleRate := 0 }] } = .refused .sampleRateZero ∧
    step { running with inputs := [{ Pins.atReset with stores := [(0, 1)] }] } = .refused .pixelBufferChanged :=
  ⟨⟨_, rfl⟩, rfl, rfl⟩

/-- The first positions of the header, of the body and of the end of transmission. -/
theorem witness_SingleStepsRunTheStages : State.reset.quiet ∧ State.reset.issue = none ∧ State.reset.emitting = none ∧
    State.reset.latched.sr ≠ 0 ∧ Seq.first State.reset.params = ⟨.vis, 0, 0, 0, 0⟩ ∧
    State.reset.params.preamble.all Tone.legal = true ∧ State.reset.latched.mode = Mode.code .pd120 ∧
    Mode.width .pd120 ≤ State.reset.latched.w.toNat ∧ Mode.rows .pd120 ≤ State.reset.latched.h.toNat ∧
    ∃ s : State, s.seq = ⟨.body, 0, 0, 0, 0⟩ ∧ s.latched = State.reset.latched :=
  ⟨⟨rfl, rfl⟩, rfl, rfl, by decide, rfl, rfl, rfl, by decide, by decide, { State.reset with seq := ⟨.body, 0, 0, 0, 0⟩ },
    rfl, rfl⟩

/-- For EncodeRunsToCompletion and EveryRunEnds, each of which asks for less than this state has. -/
theorem witness_EncodeRunsToCompletion : rested.Inv ∧ rested.quiet ∧ rested.issue = none ∧ rested.emitting = none ∧
    rested.status.busy = false ∧ rested.pins.imgWidth.toNat = Mode.width .robot36 ∧
    rested.pins.imgHeight.toNat = Mode.rows .robot36 ∧ rested.pins.cfgSampleRate ≠ 0 ∧
    (∀ t ∈ rested.params.preamble, 0 ≤ t.f ∧ 0 < t.d) ∧ rested.sink.acceptsAll :=
  ⟨rested_inv, ⟨rfl, rfl⟩, rfl, rfl, rfl, by decide, by decide, by decide,
    by simp [rested, State.reset, Config.referenceParams], fun _ => rfl⟩

/-- The largest rate, with an empty preamble. -/
theorem witness_TotalFitsItsPort :
    ((15819645#32).toNat : ℚ) * (271495.8 + nominalDuration []) / 1000 < 2 ^ 32 ∧
    ∃ s : State, s.total = ⌊((15819645#32).toNat * (nominalDuration [] + Mode.duration .scottieDx) / 1000 : ℚ)⌋₊ := by
  refine ⟨?_, { State.reset with
    total := ⌊((15819645#32).toNat * (nominalDuration [] + Mode.duration .scottieDx) / 1000 : ℚ)⌋₊ }, rfl⟩
  have : ((15819645#32).toNat : ℚ) = 15819645 := rfl
  rw [this]
  simp only [nominalDuration, List.map_nil, List.sum_nil]
  norm_num

/-- Two blocks with different histories of samples and the same command on the port. -/
theorem witness_EncodesRememberNothing :
    let p := commandPins 0b0001000#7 320 240
    let s₁ : State := { rested with inputs := [p] }
    let s₂ : State := { rested with inputs := [p], sink := ⟨[1, 2, 3], 1, [], true⟩, result := 4 }
    s₁.Inv ∧ s₂.Inv ∧ s₁.pix = s₂.pix ∧ s₁.params = s₂.params ∧ s₁.sink.answers = s₂.sink.answers ∧
      s₁.sink.rest = s₂.sink.rest ∧ s₁.nextPins = s₂.nextPins ∧ s₁.inputs.tail = s₂.inputs.tail ∧
      s₁.status.busy = false ∧ s₁.nextPins.rst = false ∧ s₁.nextPins.cmdValid = true ∧
      s₁.nextPins.cmdMode = Mode.code .robot36 ∧ s₁.nextPins.imgWidth.toNat = Mode.width .robot36 ∧
      s₁.nextPins.imgHeight.toNat = Mode.rows .robot36 ∧ s₁.nextPins.cfgSampleRate ≠ 0 ∧
      ∃ t, Host.Core.run core 1 s₁ = .next t :=
  ⟨{ rested_inv with }, { rested_inv with counted := rfl }, rfl, rfl, rfl, rfl, rfl, rfl, rfl, rfl, rfl, rfl, by decide,
    by decide, by decide, _, rfl⟩

/-- An operation with operands, and the four kinds of word: for DecodeEncodeRoundTrip and
DecodedWordsAreTheOperationsWords. -/
theorem witness_DecodeEncodeRoundTrip : (Instr.emit 1200 9).wf = true ∧ (Instr.chIllegal 1 5 2).wf = true ∧
    decode (.ch 0b111#3 5 2) = .ok (.chIllegal 1 5 2) ∧
    decode (.uop 0b1010#4 [.channel 0b011#3, .coord 5, .coord 2]) = .ok (.sampleY 5 2) :=
  ⟨by decide +kernel, rfl, rfl, rfl⟩

end Sys2Proof.Tests
end

section
/-! PROOFS. The command encodings (R77, R88): a code that is no mode is rejected. -/

namespace Sys2Proof.Machine

theorem exec_cmdIllegal (c : ModeCode) (s : State) : exec (.cmdIllegal c) s = acceptCommand c s := rfl

/-- A command that is rejected, for either reason of R226, leaves the environment's side alone. -/
theorem sameEnvironment_rejected (e : ErrorKind) (c : ModeCode) (s : State) :
    SameEnvironment s (faultEntry e (latchCommand c s)) where
  pix := by simp
  params := by simp
  pins := by simp
  inputs := by simp

/-- R88: the 7-bit codes that are no mode. -/
theorem length_codes_of_no_mode :
    ((List.range 128).filter fun n => !ModeCode.isMode (BitVec.ofNat 7 n)).length = 125 := by
  decide +kernel

/-- Settles O37: a code that is no mode takes the first check of R226, so the next state is the fault entry on the
latches of R225; neither writes the oscillator, the samples or the environment. -/
theorem unsupportedModeIsRejected : Obligations.UnsupportedModeIsRejected := by
  refine ⟨length_codes_of_no_mode, fun c s hSdx hPd hR36 hidle => ?_⟩
  have hnone : modeOfCode c = none := modeOfCode_none hSdx hPd hR36
  have hexec : exec (.cmdIllegal c) s = .next (faultEntry .unsupportedMode (latchCommand c s)) :=
    (exec_cmdIllegal c s).trans (acceptCommand_unsupported hidle hnone)
  refine ⟨_, hexec, ?_⟩
  simp [Status.faulted, ErrorKind.code, Sink.accepted, sameEnvironment_rejected]

end Sys2Proof.Machine
end

section
/-! PROOFS. The oscillator family (R111 to R127): OSC_RESET, what EMIT counts, carries and leaves as its phase, EMITs one
after another, and PUSH. -/

namespace Sys2Proof.Machine

/-! ### The two operations of one case each -/

theorem exec_oscReset (s : State) : exec .oscReset s = .next (resetOscillator s) := rfl

theorem exec_push (v : Sample) (s : State) : exec (.push v) s = .next (pushSample v s).state := rfl

/-! ### The counts of R113 and R114 in Mathlib's floor -/

theorem nominalCount_eq_floor (sr : BitVec 32) (d : ℚ) : nominalCount sr d = ⌊targetCount sr d⌋₊ := rfl

theorem carriedSamples_eq_floor (sr : BitVec 32) (d c : ℚ) :
    carriedSamples sr d c = if 1 ≤ carrySum sr d c then ⌊carrySum sr d c⌋₊ else 0 := rfl

theorem emittedCount_eq_floor (sr : BitVec 32) (c : ℚ) (ts : List Tone) :
    emittedCount sr c ts = ⌊samplesDue sr c ts⌋₊ := rfl

/-- R115: a segment is empty exactly when its target has no whole sample and the carry does not reach one. -/
theorem count_eq_zero_iff (sr : BitVec 32) {d c : ℚ} (hd : 0 ≤ d) (h0 : 0 ≤ c) (h1 : c < 1) :
    nominalCount sr d + carriedSamples sr d c = 0 ↔ nominalCount sr d = 0 ∧ carrySum sr d c < 1 := by
  rcases carriedSamples_cases sr hd h0 h1 with ⟨hlt, hk⟩ | ⟨hge, _, hk⟩
  · simp [hk, hlt]
  · simp [hk, not_lt.2 hge]

/-! ### The phase an EMIT leaves (R120 to R122) -/

theorem phaseAt_zero_index (sr : BitVec 32) (f p : ℚ) : phaseAt sr f p 0 = p := by simp [phaseAt]

theorem phaseAt_zero_frequency (sr : BitVec 32) (p : ℚ) (i : ℕ) : phaseAt sr 0 p i = p := by simp [phaseAt]

theorem reseedIndex_zero (m : OscEnd) : reseedIndex m 0 = 0 := by cases m <;> rfl

/-- R120: the pair an EMIT stores is the sine and the cosine of `a_e`, where `e` is the re-seed index. -/
theorem emitted_pair (t : Tone) {s : State} (hr : s.latched.sr ≠ 0) {e : ℕ}
    (he : e = reseedIndex s.params.oscEnd (segmentCount s.latched.sr t.d s.osc.carry)) :
    (emitted t s).osc.la = Real.sin (argumentOf s.latched.sr.toNat t.f s.osc.la s.osc.lc e) ∧
      (emitted t s).osc.lc = Real.cos (argumentOf s.latched.sr.toNat t.f s.osc.la s.osc.lc e) := by
  obtain ⟨hsin, hcos⟩ := argument_forms s.latched.sr hr t.f s.osc e
  rw [hsin, hcos, he]
  exact ⟨frac_la _ _, frac_lc _ _⟩

/-- The pair is as it was when the re-seed phase is the starting phase. -/
theorem emitted_pair_unchanged (t : Tone) (s : State)
    (h : phaseAt s.latched.sr t.f s.osc.ph
      (reseedIndex s.params.oscEnd (segmentCount s.latched.sr t.d s.osc.carry)) = s.osc.ph) :
    (emitted t s).osc.la = s.osc.la ∧ (emitted t s).osc.lc = s.osc.lc := by
  exact ⟨(frac_la _ _).trans (by rw [h]; rfl), (frac_lc _ _).trans (by rw [h]; rfl)⟩

/-- R121: with less than one sample due the count is 0, and all that was due is carried. -/
theorem segment_of_due_lt_one (sr : BitVec 32) {d c : ℚ} (hd : 0 ≤ d) (h0 : 0 ≤ c) (hlt : c + targetCount sr d < 1) :
    segmentCount sr d c = 0 ∧ segmentCarry sr d c = c + targetCount sr d := by
  have ht := targetCount_nonneg sr hd
  have hcount : segmentCount sr d c = 0 := by
    rw [segmentCount_eq sr hd h0 (by linarith)]
    exact (Int.floor_toNat _).trans (Nat.floor_eq_zero.2 hlt)
  have htotal := segment_total sr d c
  rw [hcount] at htotal
  exact ⟨hcount, by simpa using htotal⟩

/-- R122: every sample of a silence is the rounded and clamped level of the stored amplitude. -/
theorem toneSamples_silence (sr : BitVec 32) (o : Osc) (n : ℕ) {v : Sample} (hv : v ∈ toneSamples sr 0 o.ph n) :
    v.toInt = clamp16 (roundHalfAway (32767 * o.la)) := by
  obtain ⟨i, _, rfl⟩ := List.mem_map.1 hv
  rw [phaseAt_zero_frequency, sampleWord_toInt, dac, idealSample_eq]
  rfl

/-! ### EMITs one after another (R127) -/

/-- The counts and the carry of EMITs issued one after another, from any carry in [0, 1): the tones are
those of a tone program, and `played_counts` counts it. -/
theorem emitAll_counts (ts : List Tone) {s : State} (hl : ts.all Tone.legal = true) (hr : s.latched.sr ≠ 0)
    (h0 : 0 ≤ s.osc.carry) (h1 : s.osc.carry < 1) (hk : s.sink.acceptsAll) :
    ∃ u, emitAll ts s = .next u ∧ u.total = s.total + emittedCount s.latched.sr s.osc.carry ts ∧
      u.osc.carry = frac (samplesDue s.latched.sr s.osc.carry ts) := by
  obtain ⟨es, rfl⟩ : ∃ es : List Entry, es.map Prod.snd = ts := ⟨ts.map (Prod.mk s.seq), by simp⟩
  obtain ⟨u, hu, hsame⟩ := played_emitAll s.latched.mode es (u := s) ⟨rfl, rfl, rfl, rfl, rfl⟩ hl hr hk
  obtain ⟨htotal, hcarry, _⟩ := played_counts s.latched.mode es s hl h0 h1
  exact ⟨u, hu, hsame.total.trans htotal, by rw [hsame.osc, hcarry]⟩

theorem samplesDue_zero (sr : BitVec 32) (ts : List Tone) :
    samplesDue sr 0 ts = sr.toNat * (ts.map Tone.d).sum / 1000 := zero_add _

/-! ### The sink's sequence after a PUSH (R56, R59) -/

theorem Sink.accept_accepted (k : Sink) (v : Sample) : (k.accept v).accepted = k.accepted ++ [v] := by
  simp [Sink.accept, Sink.accepted]

theorem Sink.accept_stream (k : Sink) (v : Sample) (h : k.base ≤ k.acceptedRev.length) :
    (k.accept v).stream = k.stream ++ [v] := by
  have hbase : (k.accept v).base = k.base := rfl
  rw [Sink.stream, hbase, Sink.accept_accepted, List.drop_append_of_le_length (by simpa [Sink.accepted] using h),
    Sink.stream]

theorem Sink.stream_length (k : Sink) : k.stream.length = k.acceptedRev.length - k.base := by
  simp [Sink.stream, Sink.accepted]

/-! ### The obligations -/

/-- Settles O13: EMITs one after another count the floor and carry the fraction of what is due, here from carry 0. -/
theorem countsHaveAClosedForm : Obligations.CountsHaveAClosedForm := by
  intro ts s hlegal hr hcarry hk
  have hl : ts.all Tone.legal = true := List.all_eq_true.2 fun t ht => (legal_iff t).2 (hlegal t ht)
  obtain ⟨u, hu, htotal, hfrac⟩ := emitAll_counts ts hl hr hcarry.ge (by rw [hcarry]; exact one_pos) hk
  rw [hcarry, emittedCount_eq_floor, samplesDue_zero] at htotal
  rw [hcarry, samplesDue_zero, frac_eq] at hfrac
  exact ⟨u, hu, htotal, hfrac⟩

/-- Settles O4: the rules' `target`, `n0`, `c1` and `k` are the model's, and `emitted` is the state the EMIT ends in. -/
theorem emitCountsAndCarriesExactly : Obligations.EmitCountsAndCarriesExactly := by
  intro f d s hf hd hr h0 h1 target c1 n0 k htarget hn0 hc1 hk hacc
  have htarget' : target = targetCount s.latched.sr d := htarget
  have hn0' : n0 = nominalCount s.latched.sr d := by rw [hn0, htarget', nominalCount_eq_floor]
  have hc1' : c1 = carrySum s.latched.sr d s.osc.carry := by rw [hc1, hn0', htarget', carrySum]
  have hk' : k = carriedSamples s.latched.sr d s.osc.carry := by rw [hk, hc1', carriedSamples_eq_floor]
  subst hn0' hc1' hk'
  obtain ⟨hlo, hhi⟩ := segmentCarry_bounds s.latched.sr hd.le h0 h1
  have hk01 : carriedSamples s.latched.sr d s.osc.carry = 0 ∨ carriedSamples s.latched.sr d s.osc.carry = 1 :=
    (carriedSamples_cases s.latched.sr hd.le h0 h1).imp And.right fun h => h.2.2
  exact ⟨emitted ⟨f, d⟩ s, execEmit_on hf hd hr hacc, rfl, Nat.cast_add _ _, rfl, hk01, hlo, hhi,
    count_eq_zero_iff s.latched.sr hd.le h0 h1⟩

/-- Settles O6: under either value of `OSC_END` the index `e` is the model's re-seed index. -/
theorem emitReseedsThePhasePair : Obligations.EmitReseedsThePhasePair := by
  intro f d s e hf hd hr hacc hlast hnext
  have he : e = reseedIndex s.params.oscEnd (segmentCount s.latched.sr d s.osc.carry) := by
    cases hm : s.params.oscEnd with
    | last => simpa [reseedIndex] using hlast hm
    | next => simpa [reseedIndex] using hnext hm
  exact ⟨emitted ⟨f, d⟩ s, execEmit_on hf hd hr hacc, emitted_pair ⟨f, d⟩ hr he⟩

/-- Settles O8: no sample is due, so nothing is pushed and the phase is re-seeded at index 0. -/
theorem emptyToneOnlyCarries : Obligations.EmptyToneOnlyCarries := by
  intro f d s hf hd hr h0 hlt
  obtain ⟨hcount, hcarry⟩ := segment_of_due_lt_one s.latched.sr hd.le h0 hlt
  have hacc : s.sink.accepts (segmentCount s.latched.sr d s.osc.carry) := by
    rw [hcount]; exact fun i hi => absurd hi (Nat.not_lt_zero i)
  have hpair := emitted_pair_unchanged ⟨f, d⟩ s (by rw [hcount, reseedIndex_zero, phaseAt_zero_index])
  refine ⟨emitted ⟨f, d⟩ s, execEmit_on hf hd hr hacc, ?_, ?_, ?_, hcarry, hpair⟩
  · simp [hcount]
  · simp [hcount, toneSamples]
  · simp [emitted, hcount]

/-- Settles O9: at frequency 0 the phase is the starting phase at every index, also at the re-seed. -/
theorem silenceHoldsTheLevel : Obligations.SilenceHoldsTheLevel := by
  intro d s hd hr hacc
  obtain ⟨hla, hlc⟩ := emitted_pair_unchanged ⟨0, d⟩ s (phaseAt_zero_frequency _ _ _)
  exact ⟨emitted ⟨0, d⟩ s, toneSamples s.latched.sr 0 s.osc.ph (segmentCount s.latched.sr d s.osc.carry),
    execEmit_on le_rfl hd hr hacc, Sink.acceptList_accepted _ _, toneSamples_length _ _ _ _,
    fun _ => toneSamples_silence _ _ _, hla, hlc, rfl, rfl⟩

/-- Settles O3: the oscillator written is the start value of R111, phase 0 and no carry. -/
theorem oscResetWritesTheOscillatorOnly : Obligations.OscResetWritesTheOscillatorOnly := fun s =>
  ⟨Osc.start, exec_oscReset s, start_la, start_lc, rfl⟩

/-- Settles O15: by the sink's answer, PUSH is the accepting or the failing case of R124. -/
theorem pushFollowsTheSinksAnswer : Obligations.PushFollowsTheSinksAnswer := by
  intro v s
  constructor
  · intro hok
    exact ⟨s.sink.accept v, by rw [exec_push, pushSample_on v hok, Flow.state_on], Sink.accept_accepted _ _, rfl, rfl,
      rfl, fun hcounted => ⟨Sink.accept_stream _ _ (by omega), by rw [Sink.stream_length]; omega⟩⟩
  · intro hfail
    exact ⟨s.sink.refuse, by rw [exec_push, pushSample_raised v hfail, Flow.state_raised]; rfl, rfl, rfl, rfl, rfl⟩

end Sys2Proof.Machine
end

section
/-! PROOFS. The sampler family (R141 to R147, R149, R150): the six channels of a pixel inside the buffer, the selector that
names no channel, the average and the frequency map. -/

namespace Sys2Proof.Machine

/-! ### One case for each operation -/

theorem exec_sampleR (x y : Nat) (s : State) : exec (.sampleR x y) s = samplePixel redAt x y s := rfl
theorem exec_sampleG (x y : Nat) (s : State) : exec (.sampleG x y) s = samplePixel greenAt x y s := rfl
theorem exec_sampleB (x y : Nat) (s : State) : exec (.sampleB x y) s = samplePixel blueAt x y s := rfl
theorem exec_sampleY (x y : Nat) (s : State) : exec (.sampleY x y) s = samplePixel lumaAt x y s := rfl
theorem exec_sampleRY (x y : Nat) (s : State) : exec (.sampleRY x y) s = samplePixel redChromaAt x y s := rfl
theorem exec_sampleBY (x y : Nat) (s : State) : exec (.sampleBY x y) s = samplePixel blueChromaAt x y s := rfl

theorem exec_chIllegal (c : BitVec 1) (x y : Nat) (s : State) :
    exec (.chIllegal c x y) s = .next (faultEntry .invalidChannel s) := rfl

theorem exec_avg2 (a b : Rat) (s : State) : exec (.avg2 a b) s = .next { s with result := average a b } := rfl

theorem exec_fmap (intensity : Rat) (s : State) :
    exec (.fmap intensity) s = .next { s with result := frequencyOf intensity } := rfl

theorem insideBuffer_iff (l : Latched) (x y : Nat) : insideBuffer l x y = true ↔ x < l.w.toNat ∧ y < l.h.toNat := by
  simp [insideBuffer]

theorem samplePixel_inside (value : State → Nat → Nat → Rat) {x y : Nat} {s : State} (hx : x < s.latched.w.toNat)
    (hy : y < s.latched.h.toNat) : samplePixel value x y s = .next { s with result := value s x y } :=
  if_pos ((insideBuffer_iff s.latched x y).2 ⟨hx, hy⟩)

/-! ### The values of a pixel, from the bytes at the addresses of R51 -/

theorem redAt_eq_read (s : State) (x y : Nat) :
    redAt s x y = (s.pix.read (3 * (y * s.latched.w.toNat + x))).toNat := rfl

theorem greenAt_eq_read (s : State) (x y : Nat) :
    greenAt s x y = (s.pix.read (3 * (y * s.latched.w.toNat + x) + 1)).toNat := rfl

theorem blueAt_eq_read (s : State) (x y : Nat) :
    blueAt s x y = (s.pix.read (3 * (y * s.latched.w.toNat + x) + 2)).toNat := rfl

/-- R144 in the decimals of the rule. -/
theorem lumaAt_eq (s : State) (x y : Nat) :
    lumaAt s x y = 16 + 0.003906 * (65.738 * redAt s x y + 129.057 * greenAt s x y + 25.064 * blueAt s x y) := by
  unfold lumaAt lumaOf redAt greenAt blueAt
  ring

/-- R145 in the decimals of the rule. -/
theorem redChromaAt_eq (s : State) (x y : Nat) :
    redChromaAt s x y = 128 + 0.003906 * (112.439 * redAt s x y - 94.154 * greenAt s x y - 18.285 * blueAt s x y) := by
  unfold redChromaAt redChromaOf redAt greenAt blueAt
  ring

/-- R146 in the decimals of the rule. -/
theorem blueChromaAt_eq (s : State) (x y : Nat) :
    blueChromaAt s x y = 128 + 0.003906 * (-37.945 * redAt s x y - 74.494 * greenAt s x y + 112.439 * blueAt s x y) := by
  unfold blueChromaAt blueChromaOf redAt greenAt blueAt
  ring

/-- R150 in the decimals of the rule. -/
theorem frequencyOf_eq (intensity : Rat) : frequencyOf intensity = 1500 + intensity * 3.1372549 := by
  unfold frequencyOf
  ring

/-! ### The obligations -/

/-- Settles O16: each of the three reads is inside the buffer, and its value is the byte at the address of R51. -/
theorem sampleReturnsTheRawChannel : Obligations.SampleReturnsTheRawChannel := by
  intro x y s hx hy
  refine ⟨?_, ?_, ?_⟩
  · rw [exec_sampleR, samplePixel_inside redAt hx hy, redAt_eq_read, Nat.add_zero]
  · rw [exec_sampleG, samplePixel_inside greenAt hx hy, greenAt_eq_read]
  · rw [exec_sampleB, samplePixel_inside blueAt hx hy, blueAt_eq_read]

/-- Settles O17: the read is inside the buffer, and the model's luma is the formula of R144 on the three raw channels. -/
theorem sampleLumaFormula : Obligations.SampleLumaFormula := by
  intro x y s r g b hx hy hr hg hb
  rw [← redAt_eq_read] at hr; rw [← greenAt_eq_read] at hg; rw [← blueAt_eq_read] at hb
  rw [exec_sampleY, samplePixel_inside lumaAt hx hy, lumaAt_eq, hr, hg, hb]

/-- Settles O18: both reads are inside the buffer, and the model's chromas are the formulas of R145 and R146 on the three
raw channels. -/
theorem sampleChromaFormulas : Obligations.SampleChromaFormulas := by
  intro x y s r g b hx hy hr hg hb
  rw [← redAt_eq_read] at hr; rw [← greenAt_eq_read] at hg; rw [← blueAt_eq_read] at hb
  constructor
  · rw [exec_sampleRY, samplePixel_inside redChromaAt hx hy, redChromaAt_eq, hr, hg, hb]
  · rw [exec_sampleBY, samplePixel_inside blueChromaAt hx hy, blueChromaAt_eq, hr, hg, hb]

/-- Settles O21: the fault entry of R258, with the code of `InvalidChannel`. -/
theorem invalidChannelEntersTheFault : Obligations.InvalidChannelEntersTheFault := exec_chIllegal

/-- Settles O22: the average is the rule's own expression, and the frequency map is R150 in its decimals. -/
theorem averageAndFrequencyMapAreExact : Obligations.AverageAndFrequencyMapAreExact := fun a b s =>
  ⟨exec_avg2 a b s, by rw [exec_fmap, frequencyOf_eq]⟩

end Sys2Proof.Machine
end

section
/-! PROOFS. The VIS header (R160 to R170): the tone of each slot, and ENCODE_VIS as the EMITs of its tones. -/

namespace Sys2Proof.Machine

/-! ### The slots (R162 to R166) -/

/-- At a VIS position the sequencer's tone is the slot's, with the latched mode and the count of ones. -/
theorem toneAt_vis {s : State} {k : ℕ} (h : s.seq = ⟨.vis, k, 0, 0, 0⟩) :
    toneAt s = visTone s.latched.mode s.visOnes k := by simp only [toneAt, h]

/-- R162: the eight leader slots. -/
theorem visTone_leader (code : ModeCode) (ones : ℕ) {k : ℕ} (h : k < 8) :
    visTone code ones k = some ⟨[1900, 1500, 1900, 1500, 2300, 1500, 2300, 1500].getD k 0, 100⟩ := by
  interval_cases k <;> rfl

/-- R164: slot `12 + j` carries bit `j` of the code. -/
theorem visTone_data (code : ModeCode) (ones : ℕ) {j : ℕ} (h : j < 7) :
    visTone code ones (12 + j) = some (bitTone (code.getLsbD j)) := by
  interval_cases j <;> rfl

/-- A parity bit is on the air as 1300 Hz when the count is even, as 1100 Hz when it is odd. -/
theorem bitTone_parity (n : ℕ) : bitTone (n % 2 == 1) = if n % 2 = 0 then ⟨1300, 30⟩ else ⟨1100, 30⟩ := by
  rcases Nat.mod_two_eq_zero_or_one n with h | h <;> simp [bitTone, h]

/-! ### ENCODE_VIS as a list of EMITs (R160) -/

/-- The ones counted among the first `n` data bits are the set bits below `n`. -/
theorem onesBelow_eq_length_filter (code : ModeCode) (n : ℕ) :
    onesBelow code n = ((List.range n).filter fun j => code.getLsbD j).length := by
  induction n with
  | zero => rfl
  | succ n ih =>
    rw [onesBelow_succ, ih, List.range_succ, List.filter_append, List.length_append]
    cases hbit : code.getLsbD n <;> simp [hbit]

/-- With a sink that accepts, ENCODE_VIS plays its program through and hands over to the body stage. -/
theorem exec_encodeVis_on (code : ModeCode) {s : State} (hr : s.latched.sr ≠ 0)
    (hl : s.params.preamble.all Tone.legal = true) (hk : s.sink.acceptsAll) :
    exec (.encodeVis code) s = .next (handOver .body (played code (visProgram s.params code) s)) := by
  have hexec : exec (.encodeVis code) s = execEncodeVis code s := rfl
  rw [hexec, execEncodeVis, if_neg hr, if_pos hl, runProgram_acceptsAll code _ hk, Flow.andThen_on, Flow.state_on]

/-! ### The obligations -/

/-- Settles O27: the program ENCODE_VIS plays has the tones of the pseudocode, so it emits what their EMITs emit. -/
theorem encodeVisEmitsItsTones : Obligations.EncodeVisEmitsItsTones := by
  intro code s hr hpre hk
  have hl := preamble_legal hpre
  obtain ⟨u, hu, hsame⟩ := played_emitAll code (visProgram s.params code) (u := s) ⟨rfl, rfl, rfl, rfl, rfl⟩
    (visProgram_legal code hl) hr hk
  rw [visProgram_tones, visTones, parityBit, bitTone_parity, onesBelow_eq_length_filter, ← List.append_assoc,
    ← List.append_assoc] at hu
  obtain ⟨henv, hlatched, hstatus, hissue, hemitting, hbase, hkept⟩ :=
    played_frame code (visProgram s.params code) s
  exact ⟨_, u, exec_encodeVis_on code hr hl hk, hu, hsame.sink.symm, hsame.total.symm, hsame.osc.symm, handOver_seq _ _,
    (played_vis_ones _ _ _).trans (onesBelow_eq_length_filter _ _),
    ⟨⟨henv.pix, henv.params, henv.pins, henv.inputs⟩, hlatched, hstatus, hissue, hemitting, hbase, hkept⟩⟩

/-- Settles O26: the tone at a VIS position is its slot's, and each slot's tone is the table's. -/
theorem visSlotTones : Obligations.VisSlotTones := by
  intro s k hseq
  rw [toneAt_vis hseq]
  refine ⟨visTone_leader _ _, ?_, ?_, ?_, ?_, ?data, ?parity, ?_⟩
  case data => rintro j hj rfl; exact visTone_data _ _ hj
  case parity => rintro rfl; exact congrArg some (bitTone_parity _)
  all_goals rintro rfl; rfl

end Sys2Proof.Machine
end

section
/-! PROOFS. The scan encoders (R183, R198, R213), for every mode: a scan with a sink that accepts is the EMITs of its pseudocode
and the hand-over to the end of transmission. -/

namespace Sys2Proof.Machine

/-! ### A scan the sink accepts -/

/-- The hand-over to the next stage keeps the frame of synthesis. -/
theorem SynthesisFrame.handOver {s t : State} (h : SynthesisFrame s t) (stage : Stage) :
    SynthesisFrame s (handOver stage t) :=
  ⟨⟨h.pix, h.params, h.pins, h.inputs⟩, h.latched, h.status, h.issue, h.emitting, h.base, h.kept⟩

/-- With a buffer that holds the image of the mode and a sink that accepts, a scan plays its program through and hands over to
the end of transmission. -/
theorem Mode.exec_scan_on (m : Mode) {s : State} (hr : s.latched.sr ≠ 0) (hw : m.width ≤ s.latched.w.toNat)
    (hh : m.rows ≤ s.latched.h.toNat) (hk : s.sink.acceptsAll) :
    exec m.scan s = .next (handOver .eot (played m.code (m.program s) s)) := by
  rw [m.exec_scan, scanImage, if_neg hr, if_pos ⟨hw, hh⟩, runProgram_acceptsAll m.code _ hk, Flow.andThen_on, Flow.state_on]

/-- No tone of a body is at a VIS position, so playing it counts no ones. -/
theorem Mode.played_program_visOnes (m : Mode) (s : State) : (played m.code (m.program s) s).visOnes = s.visOnes :=
  played_visOnes _ _ _ (m.program_walks s).not_vis

/-- The scan of a mode emits what the EMITs of its pseudocode emit, one after another, and changes nothing else but `SEQ`. -/
theorem Mode.scan_emits_scanTones (m : Mode) (s : State) (hr : s.latched.sr ≠ 0) (hw : m.width ≤ s.latched.w.toNat)
    (hh : m.rows ≤ s.latched.h.toNat) (hk : s.sink.acceptsAll) :
    ∃ t u, exec m.scan s = .next t ∧ emitAll (scanTones m s) s = .next u ∧ t.sink = u.sink ∧ t.total = u.total ∧
      t.osc = u.osc ∧ t.seq = ⟨.eot, 0, 0, 0, 0⟩ ∧ t.visOnes = s.visOnes ∧ SynthesisFrame s t := by
  obtain ⟨u, hu, hsame⟩ := played_emitAll m.code (m.program s) (u := s) ⟨rfl, rfl, rfl, rfl, rfl⟩ (m.program_legal s) hr hk
  rw [m.program_tones] at hu
  exact ⟨_, u, m.exec_scan_on hr hw hh hk, hu, hsame.sink.symm, hsame.total.symm, hsame.osc.symm, handOver_seq _ _,
    m.played_program_visOnes s, (played_frame m.code (m.program s) s).handOver _⟩

/-! ### The obligations -/

/-- Settles O29: the Scottie-DX instance of what the scan of a mode emits. -/
theorem scanSdxEmitsItsTones : Obligations.ScanSdxEmitsItsTones :=
  fun s hr hw hh hk => Mode.scan_emits_scanTones .scottieDx s hr hw hh hk

end Sys2Proof.Machine
end

section
/-! PROOFS. The PD-120 scan encoder (R197, R198), from what the scan of every mode emits. -/

namespace Sys2Proof.Machine

/-- Settles O30: the PD-120 instance of what the scan of a mode emits; its image is 640 columns by 496 rows. -/
theorem scanPd120EmitsItsTones : Obligations.ScanPd120EmitsItsTones :=
  fun s hr hw hh hk => Mode.scan_emits_scanTones .pd120 s hr hw hh hk

end Sys2Proof.Machine
end

section
/-! PROOFS. The Robot-36 scan encoder (R212, R213), from what the scan of every mode emits. -/

namespace Sys2Proof.Machine

/-- Settles O31: the Robot-36 instance of what the scan of a mode emits; its image is 320 columns by 240 rows. -/
theorem scanR36EmitsItsTones : Obligations.ScanR36EmitsItsTones :=
  fun s hr hw hh hk => Mode.scan_emits_scanTones .robot36 s hr hw hh hk

end Sys2Proof.Machine
end

section
/-! PROOFS. Command acceptance (R225, R226, R228): a command of a mode with that mode's geometry starts synthesis. -/

namespace Sys2Proof.Machine

/-! ### The first position of an encode (R228) -/

theorem Seq.first_of_preamble {p : Params} (h : p.preamble ≠ []) : Seq.first p = ⟨.pre, 0, 0, 0, 0⟩ := if_neg h

theorem Seq.first_of_no_preamble {p : Params} (h : p.preamble = []) : Seq.first p = ⟨.vis, 0, 0, 0, 0⟩ := if_pos h

/-! ### The state an accepted command starts from -/

/-- A command that is accepted leaves the environment's side alone. -/
theorem sameEnvironment_started (c : ModeCode) (s : State) : SameEnvironment s (startSynthesis (latchCommand c s)) where
  pix := by simp
  params := by simp
  pins := by simp
  inputs := by simp

/-- Settles O36: the command passes the checks of R226, so the next state is the start of synthesis (R228) on the latches
of R225; what these two do not write is as it was, and position 0 of `SMP` is the next sample (R59). -/
theorem encodeAcceptsAndStarts : Obligations.EncodeAcceptsAndStarts := by
  intro m s hidle hw hh hr
  have hexec : exec m.command s = .next (startSynthesis (latchCommand m.code s)) :=
    (m.exec_command s).trans (acceptCommand_starts hidle hw hh hr)
  have hstream : (startSynthesis (latchCommand m.code s)).sink.stream = [] := stream_nil s.sink
  exact ⟨_, hexec, rfl, rfl, rfl, start_la, start_lc, rfl, rfl, Seq.first_of_preamble, Seq.first_of_no_preamble, rfl,
    hstream, rfl, rfl, rfl, rfl, rfl, sameEnvironment_started m.code s⟩

end Sys2Proof.Machine
end

section
/-! PROOFS. The exceptions (R255): a command of a mode with another geometry is rejected by check 2 of R226. -/

namespace Sys2Proof.Machine

/-- Settles O38: a width or a height that is not the mode's fails check 2 of R226, so the next state is the fault entry on
the latches of R225; neither writes the oscillator, the samples or the environment. -/
theorem invalidGeometryIsRejected : Obligations.InvalidGeometryIsRejected := by
  intro m s hidle hgeometry
  have hexec : exec m.command s = .next (faultEntry .invalidGeometry (latchCommand m.code s)) :=
    (m.exec_command s).trans (acceptCommand_geometry hidle (not_and_or.mpr hgeometry))
  exact ⟨_, hexec, rfl, rfl, rfl, rfl, rfl, rfl, rfl, rfl, rfl, rfl, rfl,
    sameEnvironment_rejected .invalidGeometry m.code s⟩

end Sys2Proof.Machine
end

section
/-! PROOFS. Earlier encodes and commands out of turn (R288, R304): what a step does with a command of a mode when the block is
ready and when it is busy, and that an accepted command starts two blocks alike, whatever came before. -/

namespace Sys2Proof.Machine

/-! ### A command on the port -/

/-- A command of a mode with its geometry and a rate, presented to a block that is not busy, starts synthesis (R225, R228). -/
theorem step_starts {m : Mode} {s : State} (hissue : s.issue = none) (hready : s.status.busy = false)
    (hrst : s.nextPins.rst = false) (hvalid : s.nextPins.cmdValid = true) (hmode : s.nextPins.cmdMode = m.code)
    (hw : s.nextPins.imgWidth.toNat = m.width) (hh : s.nextPins.imgHeight.toNat = m.rows)
    (hr : s.nextPins.cfgSampleRate ≠ 0) :
    step s = .next (startSynthesis (latchCommand m.code s.takePins.placeStores)) := by
  have hstep : step s = act s.takePins.placeStores := by simp [step_eq, hrst, hready]
  have hact : act s.takePins.placeStores = acceptCommand m.code s.takePins.placeStores := by
    rw [act_noIssue (s := s.takePins.placeStores) hissue, if_pos ⟨hvalid, hready⟩, placeStores_pins, takePins_pins, hmode]
  rw [hstep, hact]
  exact acceptCommand_starts hready hw hh hr

theorem placeStores_of_no_stores {s : State} (h : s.pins.stores = []) : s.placeStores = s := by
  rw [State.placeStores, h, placeBytes_nil]

/-- While the block is busy the sequencers have the step, whether or not a command is presented (R304). -/
theorem step_of_busy {s : State} (hbusy : s.status.busy = true) (hissue : s.issue = none) (hrst : s.nextPins.rst = false)
    (hstores : s.nextPins.stores = []) : step s = sequencerStep s.takePins := by
  have hplace : s.takePins.placeStores = s.takePins := placeStores_of_no_stores hstores
  have hstep : step s = act s.takePins := by simp [step_eq, hrst, hstores, hplace]
  have hignored : ¬ (s.takePins.pins.cmdValid = true ∧ s.takePins.status.busy = false) := by simp [hbusy]
  rw [hstep, act_noIssue (s := s.takePins) hissue, if_neg hignored]

/-! ### Two blocks that start alike -/

/-- Two blocks that agree on all that an encode depends on before its command is accepted: the environment's side, the sink's
answers to come, and that nothing is in progress or issued. -/
structure SameSetting (s t : State) : Prop extends SameEnvironment s t where
  answers : t.sink.answers = s.sink.answers
  rest : t.sink.rest = s.sink.rest
  emitting : t.emitting = s.emitting
  issue : t.issue = s.issue

/-- An accepted command overwrites every other field, so the two blocks differ in their samples so far and last result alone. -/
theorem SameSetting.started_eq {s t : State} (h : SameSetting s t) (c : ModeCode) :
    startSynthesis (latchCommand c t) = withHistory (startSynthesis (latchCommand c s)) t.sink.acceptedRev
      t.sink.acceptedRev.length t.result := by
  simp only [startSynthesis, resetOscillator, latchCommand, withHistory, h.pix, h.params, h.pins, h.inputs, h.answers, h.rest,
    h.emitting, h.issue]

/-- Two such blocks start an encode alike: the stream of the new encode is empty in both. -/
theorem SameSetting.started_sim {s t : State} (h : SameSetting s t) (hissue : s.issue = none) (c : ModeCode) :
    Sim (startSynthesis (latchCommand c s)) (startSynthesis (latchCommand c t)) where
  eq := h.started_eq c
  stream := (stream_nil s.sink).trans (stream_nil t.sink).symm
  b1 := le_rfl
  b2 := le_rfl
  issue := hissue

theorem Sim.total {s t : State} (h : Sim s t) : s.total = t.total := (congrArg State.total h.eq).symm

theorem Sim.status {s t : State} (h : Sim s t) : s.status = t.status := (congrArg State.status h.eq).symm

theorem Sim.seq {s t : State} (h : Sim s t) : s.seq = t.seq := (congrArg State.seq h.eq).symm

theorem Sim.osc {s t : State} (h : Sim s t) : s.osc = t.osc := (congrArg State.osc h.eq).symm

theorem run_succ_of_step {s t : State} (h : step s = .next t) (k : ℕ) :
    Host.Core.run core (k + 1) s = Host.Core.run core k t := by
  rw [Nat.add_comm, run_add ((run_one s).trans h)]

/-! ### The obligations -/

/-- Settles O55: the first step of each block accepts the command, and the two states it leads to differ in what came before
alone; every later step keeps them so. -/
theorem encodesRememberNothing : Obligations.EncodesRememberNothing := by
  intro m s₁ s₂ k hinv₁ hinv₂ hpix hparams hanswers hrest hpins hinputs hready₁ hready₂ hrst hvalid hmode hw hh hr t₁ hrun
  have hsame : SameSetting s₁.takePins.placeStores s₂.takePins.placeStores :=
    { pix := by simp [hpix, hpins]
      params := hparams.symm
      pins := hpins.symm
      inputs := hinputs.symm
      answers := hanswers.symm
      rest := hrest.symm
      emitting := (emitting_none hinv₂ hready₂).trans (emitting_none hinv₁ hready₁).symm
      issue := hinv₂.noIssue.trans hinv₁.noIssue.symm }
  have hstep₁ := step_starts hinv₁.noIssue hready₁ hrst hvalid hmode hw hh hr
  rw [hpins] at hrst hvalid hmode hw hh hr
  have hstep₂ := step_starts hinv₂.noIssue hready₂ hrst hvalid hmode hw hh hr
  rw [run_succ_of_step hstep₁] at hrun
  obtain ⟨t₂, hrun₂, hsim⟩ := run_sim k (hsame.started_sim hinv₁.noIssue m.code) hrun
  exact ⟨t₂, (run_succ_of_step hstep₂ k).trans hrun₂, hsim.stream, hsim.total, hsim.status, hsim.seq, hsim.osc⟩

/-- Settles O39: acceptance answers a busy state itself, and a busy block's step is the sequencers'. -/
theorem busyCommandIsIgnored : Obligations.BusyCommandIsIgnored := fun s hbusy =>
  ⟨fun m => (m.exec_command s).trans (acceptCommand_busy hbusy),
    fun c => (exec_cmdIllegal c s).trans (acceptCommand_busy hbusy), step_of_busy hbusy⟩

end Sys2Proof.Machine
end

section
/-! PROOFS. The width of the `TOTAL` port (R296). -/

namespace Sys2Proof.Machine

/-- Below `2 ^ 32` the port shows `TOTAL` itself. -/
theorem totalSamples_toNat {s : State} (h : s.total < 2 ^ 32) : s.outputs.totalSamples.toNat = s.total :=
  (BitVec.toNat_ofNat _ _).trans (Nat.mod_eq_of_lt h)

/-- No mode is longer than Scottie-DX, whose duration is the constant of R296. -/
theorem Mode.duration_le (m : Mode) : m.duration ≤ 271495.8 := by
  cases m <;> norm_num [Mode.duration]

/-- Settles O54: a completed count is at most the bound's left side, since no mode is longer than Scottie-DX; the other two
clauses are the two sides of `2 ^ 32` on the rates next to it. -/
theorem totalFitsItsPort : Obligations.TotalFitsItsPort := by
  refine ⟨fun m s sr preamble hbound htotal => totalSamples_toNat ?_, fun sr hsr => ?_, ?_⟩
  · have hle : sr.toNat * (nominalDuration preamble + m.duration) / 1000
        ≤ sr.toNat * (271495.8 + nominalDuration preamble) / 1000 := by
      rw [add_comm (nominalDuration preamble)]
      gcongr
      exact m.duration_le
    rw [htotal]
    exact (Nat.floor_lt' (by norm_num)).mpr (by exact_mod_cast hle.trans_lt hbound)
  · have hle : (sr : ℚ) ≤ 15819645 := by exact_mod_cast hsr
    have hnone : nominalDuration [] = 0 := rfl
    rw [hnone]
    linarith
  · exact Nat.le_floor (by norm_num [Mode.duration])

end Sys2Proof.Machine
end

section
/-! PROOFS. The invariant (R20, R25, R26, R30, R32, R33, R35): it holds after reset, every step keeps it, and from a state that
meets it a step stops for a breach of the host's duties only. -/

namespace Sys2Proof.Machine

/-! ### The parts of a step keep the invariant -/

/-- Hardware reset writes every register the invariant speaks of; the buffer and the parameters must be in their domains. -/
theorem inv_hardwareReset {s : State} (pix : s.pix.wf) (preamble : s.params.preamble.all Tone.legal = true) :
    (hardwareReset s).Inv where
  pix := pix
  phase := start_bounds.1
  carry := start_bounds.2
  counted := rfl
  noIssue := rfl
  preamble := preamble
  status := ⟨rfl, rfl, rfl⟩
  operands := fun h => by cases h
  position := rfl
  ones := trivial
  emission := fun _ h => by cases h

/-- An accepted command leads to the first position of an encode with its operands checked (R226, R228). -/
theorem inv_started {m : Mode} {s : State} (h : s.Inv) (hidle : s.status.busy = false) (hw : s.pins.imgWidth.toNat = m.width)
    (hh : s.pins.imgHeight.toNat = m.rows) (hr : s.pins.cfgSampleRate ≠ 0) :
    (startSynthesis (latchCommand m.code s)).Inv where
  pix := h.pix
  phase := start_bounds.1
  carry := start_bounds.2
  counted := rfl
  noIssue := h.noIssue
  preamble := h.preamble
  status := by
    by_cases hp : s.params.preamble = []
    · simp [State.statusAgrees, Seq.first, hp, Status.accepted, Stage.running]
    · simp [State.statusAgrees, Seq.first, hp, Status.accepted, Stage.running]
  operands := fun _ => ⟨hr, m, modeOfCode_code m, hw, hh⟩
  position := by
    by_cases hp : s.params.preamble = []
    · simp [State.positioned, Seq.first, hp]
    · simp [State.positioned, Seq.first, hp, List.length_pos_iff]
  ones := by
    by_cases hp : s.params.preamble = []
    · simp [State.onesCounted, Seq.first, hp, onesBelow]
    · simp [State.onesCounted, Seq.first, hp]
  emission := fun e he => by
    have hnone : s.emitting = none := emitting_none h hidle
    rw [startSynthesis_emitting, latchCommand_emitting, hnone] at he; cases he

/-- The states a command at the port can lead to: the state itself, the fault entry on its latches, or the start of
synthesis (R225, R226, R304). -/
theorem acceptCommand_next {c : ModeCode} {s t : State} (h : acceptCommand c s = .next t) :
    t = s ∨
    (∃ e, (e = .unsupportedMode ∨ e = .invalidGeometry) ∧ t = faultEntry e (latchCommand c s)) ∨
    ∃ m : Mode, c = m.code ∧ s.status.busy = false ∧ s.pins.imgWidth.toNat = m.width ∧ s.pins.imgHeight.toNat = m.rows ∧
      s.pins.cfgSampleRate ≠ 0 ∧ t = startSynthesis (latchCommand c s) := by
  rcases acceptCommand_cases c s with
    ⟨_, e⟩ | ⟨_, _, e⟩ | ⟨m, hc, hidle, ⟨_, e⟩ | ⟨hw, hh, ⟨_, e⟩ | ⟨hr, e⟩⟩⟩ <;> rw [e] at h <;> cases h
  · exact .inl rfl
  · exact .inr (.inl ⟨_, .inl rfl, rfl⟩)
  · exact .inr (.inl ⟨_, .inr rfl, rfl⟩)
  · exact .inr (.inr ⟨m, hc, hidle, hw, hh, hr, rfl⟩)

/-- A command at the port keeps the invariant, whichever of its cases it takes (R225, R226). -/
theorem inv_acceptCommand {c : ModeCode} {s t : State} (h : s.Inv) (ht : acceptCommand c s = .next t) : t.Inv := by
  rcases acceptCommand_next ht with rfl | ⟨e, he, rfl⟩ | ⟨m, rfl, hidle, hw, hh, hr, rfl⟩
  · exact h
  · exact inv_fault e (he.imp_right .inr) h.pix h.phase h.carry rfl h.noIssue h.preamble
  · exact inv_started h hidle hw hh hr

/-- The end of a tone keeps the invariant. -/
theorem State.Inv.finishTone {s : State} (h : s.Inv) (run : s.seq.stage.running = true) (t : Tone) (n : ℕ) (θ : ℚ) :
    (finishTone t n θ s).Inv :=
  inv_finish h.pix h.carry h.counted h.noIssue h.preamble h.status h.operands h.position h.ones run

/-- An EMIT in progress stays current where the tone at `SEQ` and the phase stay. -/
theorem State.Inv.emission_of_eq {s t : State} (h : s.Inv) (hseq : t.seq = s.seq) (hparams : t.params = s.params)
    (hlatched : t.latched = s.latched) (hones : t.visOnes = s.visOnes) (hpix : t.pix = s.pix)
    (hph : t.osc.ph = s.osc.ph) (hemitting : t.emitting = s.emitting) : t.emissionCurrent := by
  intro e he
  rw [hseq, hph, toneAt_congr hseq hparams hlatched (fun _ _ => hones) hpix]
  exact h.emission e (hemitting ▸ he)

/-- An accepted sample is counted (R26). -/
theorem State.Inv.accept {s : State} (h : s.Inv) (v : Sample) :
    ({ s with total := s.total + 1, sink := s.sink.accept v } : State).Inv :=
  { h with
    counted := by simp only [Sink.accept, List.length_cons, h.counted, Nat.add_assoc]
    emission := h.emission_of_eq rfl rfl rfl rfl rfl rfl rfl }

/-- One sample of the EMIT in progress keeps the invariant: it goes on, ends its tone, or enters the fault state. -/
theorem inv_emitSample {s : State} {e : Emission} (h : s.Inv) (he : s.emitting = some e) : (emitSample e s).Inv := by
  obtain ⟨hrun, htone, _, hθ⟩ := h.emission e he
  rcases emitSample_cases e s with ⟨_, hmore, heq⟩ | ⟨_, _, heq⟩ | ⟨_, heq⟩ <;> rw [heq]
  · refine { h.accept (sampleWord (phaseAt s.latched.sr e.tone.f e.theta0 e.i)) with emission := ?_ }
    rintro _ ⟨⟩
    refine ⟨hrun, Eq.trans ?_ htone, hmore, hθ⟩
    exact toneAt_congr rfl rfl rfl (fun _ _ => rfl) rfl
  · exact (h.accept _).finishTone hrun _ _ _
  · exact inv_fault _ (.inr (.inl rfl)) h.pix h.phase h.carry h.counted h.noIssue h.preamble

/-- At the first data bit no ones are counted yet, so entering the position `SEQ` stands at changes nothing (R32). -/
theorem enterPosition_self {s : State} (h : s.Inv) : enterPosition s.seq s = s := by
  have hones : s.seq.stage = .vis ∧ s.seq.k = 12 → s.visOnes = 0 := by
    rintro ⟨hvis, hk⟩
    have := h.ones
    simpa [State.onesCounted, hvis, hk, onesBelow] using this
  unfold enterPosition
  split
  · rename_i hvis; rw [← hones hvis]
  · rfl

/-- The carry of a legal tone keeps the invariant (R115). -/
theorem State.Inv.writeCarry {s : State} (h : s.Inv) {t : Tone} (hl : t.legal = true) : (writeCarry t s).Inv :=
  { h with
    carry := segmentCarry_bounds _ ((legal_iff t).1 hl).2.le h.carry.1 h.carry.2
    emission := h.emission_of_eq rfl rfl rfl rfl rfl rfl rfl }

/-- The issue of the tone at `SEQ` keeps the invariant: it is over at once, or in progress with a sample to push. -/
theorem inv_issueTone {s : State} {t : Tone} (h : s.Inv) (hrun : s.seq.stage.running = true) (htone : toneAt s = some t)
    (hl : t.legal = true) : (issueTone t s).Inv := by
  have hw := h.writeCarry hl
  rcases issueTone_cases t s with ⟨_, heq⟩ | ⟨hn, heq⟩ <;> rw [heq, enterPosition_self h]
  · exact hw.finishTone hrun _ _ _
  · refine { hw with emission := ?_ }
    rintro _ ⟨⟩
    refine ⟨hrun, Eq.trans ?_ htone, Nat.pos_of_ne_zero hn, rfl⟩
    exact toneAt_congr rfl rfl rfl (fun _ _ => rfl) rfl

theorem inv_sequencerStep {s t : State} (h : s.Inv) (ht : sequencerStep s = .next t) : t.Inv := by
  rcases sequencerStep_cases ht with ⟨e, he, rfl⟩ | ⟨tone, _, hrun, htone, _, hl, _, rfl⟩ | ⟨_, _, rfl⟩
  · exact inv_emitSample h he
  · exact inv_issueTone h hrun htone hl
  · exact h

/-! ### What stops a step -/

/-- Every VIS slot has a legal tone (R162 to R166). -/
theorem visTone_legal (code : ModeCode) (ones : ℕ) {k : ℕ} (h : k ≤ 20) :
    ∃ t, visTone code ones k = some t ∧ t.legal = true := by
  have hlt : k < (visTones code).length := by rw [(visTones_size code).1]; omega
  by_cases hk : k = 19
  · subst hk; exact ⟨_, rfl, bitTone_legal _⟩
  · exact ⟨_, visTone_eq code ones k hlt (fun e => absurd e hk),
      List.all_eq_true.1 (visTones_legal code) _ (List.getElem_mem hlt)⟩

/-- Every tone of the end of transmission is legal (R231). -/
theorem eotTone_legal {k : ℕ} (h : k ≤ 4) : ∃ t, eotTone k = some t ∧ t.legal = true := by
  interval_cases k <;> exact ⟨_, rfl, by decide⟩

/-- While an encode runs `SEQ` identifies a legal tone, and every pixel it reads is inside the buffer. -/
theorem toneAt_of_inv {s : State} (h : s.Inv) (hrun : s.seq.stage.running = true) :
    (∃ t, toneAt s = some t ∧ t.legal = true) ∧ readsInside s = true := by
  have hpos := h.position
  obtain ⟨_, m, hm, hw, hh⟩ := h.operands hrun
  rcases (running_iff _).1 hrun with hs | hs | hs | hs <;> simp only [State.positioned, hs] at hpos
  · obtain ⟨_, hk⟩ := hpos
    exact ⟨⟨_, by simp only [toneAt, hs]; exact List.getElem?_eq_getElem hk,
      List.all_eq_true.1 h.preamble _ (List.getElem_mem hk)⟩, by simp only [readsInside, hs]⟩
  · exact ⟨by simpa only [toneAt, hs] using visTone_legal _ _ hpos.2, by simp only [readsInside, hs]⟩
  · obtain ⟨m', hm', hp⟩ := hpos
    obtain rfl : m' = m := Option.some.inj (hm'.symm.trans hm)
    exact ⟨⟨_, by simp only [toneAt, hs, hm, hp, if_true], m'.tone_legal s s.seq⟩,
      readsInside_of (modeOfCode_some hm) hw.ge hh.ge hs hp⟩
  · exact ⟨by simpa only [toneAt, hs] using eotTone_legal hpos.2, by simp only [readsInside, hs]⟩

/-- From a state that meets the invariant the sequencers never stop. -/
theorem sequencerStep_answers {s : State} (h : s.Inv) : ∃ t, sequencerStep s = .next t := by
  unfold sequencerStep
  cases he : s.emitting with
  | some e => exact ⟨_, rfl⟩
  | none =>
    cases hrun : s.seq.stage.running with
    | false => exact ⟨s, rfl⟩
    | true =>
      obtain ⟨⟨t, ht, hl⟩, hin⟩ := toneAt_of_inv h hrun
      exact ⟨issueTone t s, by simp only [ht, hin, hl, if_true, if_neg (h.operands hrun).1]⟩

/-- A command at the port stops at rate 0 only (R256). -/
theorem acceptCommand_answers (c : ModeCode) (s : State) : (∃ t, acceptCommand c s = .next t) ∨
    (acceptCommand c s = .refused .sampleRateZero ∧ s.pins.cfgSampleRate = 0) := by
  rcases acceptCommand_cases c s with
    ⟨_, e⟩ | ⟨_, _, e⟩ | ⟨m, rfl, _, ⟨_, e⟩ | ⟨_, _, ⟨hr, e⟩ | ⟨_, e⟩⟩⟩
  case inr.inr.inr.inl => exact .inr ⟨e, hr⟩
  all_goals exact .inl ⟨_, e⟩

/-! ### The obligations -/

/-- Settles O49: hardware reset, the command's acceptance and the sequencers each keep the invariant, on a state that the
taking of the ports and the placing of the stores have kept in it. -/
theorem stepKeepsTheInvariant : Obligations.StepKeepsTheInvariant := by
  intro s t h ht
  rcases step_cases h.noIssue ht with ⟨_, rfl⟩ | ⟨_, hstores, ⟨_, _, hcmd⟩ | ⟨_, hseq⟩⟩
  · exact inv_hardwareReset (placeBytes_wf _ _ h.pix) h.preamble
  · exact inv_acceptCommand (inv_takePlace h hstores) hcmd
  · exact inv_sequencerStep (inv_takePlace h hstores) hseq

/-- Settles O50: the three refusals and the fault of the sequencers need a position, a tone, a rate or a buffer that the
invariant excludes, so what is left is a store while busy and a command at rate 0. -/
theorem stepStopsOnlyOnAHostBreach : Obligations.StepStopsOnlyOnAHostBreach := by
  intro s h
  rw [step_eq]
  split_ifs with hrst hbreach
  · exact .inl ⟨_, rfl⟩
  · exact .inr (.inr ⟨rfl, hbreach.2, hbreach.1⟩)
  · have hinv : s.takePins.placeStores.Inv :=
      inv_takePlace h fun hbusy => by_contra fun hs => hbreach ⟨hbusy, hs⟩
    rw [act_noIssue (s := s.takePins.placeStores) h.noIssue]
    split_ifs with hcmd
    · rcases acceptCommand_answers s.takePins.placeStores.pins.cmdMode s.takePins.placeStores with ht | ⟨hz, hr⟩
      · exact .inl ht
      · exact .inr (.inl ⟨hz, hcmd.1, hr, hcmd.2⟩)
    · exact .inl (sequencerStep_answers hinv)

/-- Settles O48: the reset state is a hardware reset of itself. -/
theorem resetMeetsTheInvariant : Obligations.ResetMeetsTheInvariant :=
  inv_hardwareReset (s := State.reset) ⟨List.Pairwise.nil, fun _ h => by cases h⟩ rfl

end Sys2Proof.Machine
end

section
/-! PROOFS. Whole runs (R227, R229 to R232, R236, R237): single steps do what each stage's operation does, and an accepted
command's run ends as its stages, one after another, end. -/

namespace Sys2Proof.Machine

/-! ### Each stage's operation as its program with the hand-over after it -/

theorem exec_encodeVis_next (code : ModeCode) {s : State} (hr : s.latched.sr ≠ 0)
    (hl : s.params.preamble.all Tone.legal = true) : exec (.encodeVis code) s = .next
      ((runProgram code (visProgram s.params code) s).andThen fun s' => .on (handOver .body s')).state := by
  have hexec : exec (.encodeVis code) s = execEncodeVis code s := rfl
  rw [hexec, execEncodeVis, if_neg hr, if_pos hl]

theorem Mode.exec_scan_next (m : Mode) {s : State} (hr : s.latched.sr ≠ 0) (hw : m.width ≤ s.latched.w.toNat)
    (hh : m.rows ≤ s.latched.h.toNat) : exec m.scan s = .next
      ((runProgram m.code (m.program s) s).andThen fun s' => .on (handOver .eot s')).state := by
  rw [m.exec_scan, scanImage, if_neg hr, if_pos ⟨hw, hh⟩]

theorem exec_eot_next {s : State} (hr : s.latched.sr ≠ 0) : exec .eot s = .next
    ((runProgram s.latched.mode eotProgram s).andThen fun s' => .on (complete s')).state := by
  have hexec : exec .eot s = execEot s := rfl
  rw [hexec, execEot, if_neg hr]

/-! ### What a run that ended leaves -/

/-- The environment's side of a run is that of the state its command was accepted in. -/
theorem KeptByProgram.sameEnvironment_from_command {c : ModeCode} {s u : State}
    (h : KeptByProgram (startSynthesis (latchCommand c s)) u) : SameEnvironment s u :=
  ⟨h.pix, h.params, h.pins, h.inputs⟩

/-- The stream of an encode holds what was accepted since its command (R59). -/
theorem started_acceptList_stream (c : ModeCode) (s : State) (vs : List Sample) :
    ((startSynthesis (latchCommand c s)).sink.acceptList vs).stream = vs :=
  acceptList_stream _ vs rfl

/-- A refused sample is not in the stream (R62). -/
theorem Sink.refuse_stream (k : Sink) : k.refuse.stream = k.stream := rfl

/-- R236: the samples due in an encode, from carry 0. -/
theorem samplesDue_encodeTones (sr : BitVec 32) (m : Mode) (u : State) : samplesDue sr 0 (encodeTones m u)
    = sr.toNat * ((u.params.preamble.map Tone.d).sum + m.duration) / 1000 := by
  rw [samplesDue, encode_duration, zero_add, targetCount]

/-! ### The obligations -/

/-- Settles O51: each stage's operation is its program with the hand-over after it, and single steps run that program. -/
theorem singleStepsRunTheStages : Obligations.SingleStepsRunTheStages := by
  intro s hq hi he hr
  have hready : ∀ code, s.latched.mode = code → Ready code s := fun _ hm => ⟨⟨hq, hi⟩, he, hm, hr⟩
  exact ⟨fun hseq hl => ⟨_, exec_encodeVis_next _ hr hl, run_vis (hready _ rfl) hseq hl⟩,
    fun m hm hseq hw hh => ⟨_, m.exec_scan_next hr hw hh, run_body (hready _ hm) hseq hw hh⟩,
    fun hseq => ⟨_, exec_eot_next hr, run_eot (hready _ rfl) hseq⟩⟩

/-- Settles O52: the run of the accepted command ends, and with a sink that accepts every sample it ends in `DONE`, with the
count and the carry of what is due over the whole encode. -/
theorem encodeRunsToCompletion : Obligations.EncodeRunsToCompletion := by
  intro m s hq hi he hidle hw hh hr hpre hk
  have hexec := (m.exec_command s).trans (acceptCommand_starts hidle hw hh hr)
  obtain ⟨u, hreach, hends⟩ := started m hq hi he hw hh hr (preamble_legal hpre)
  cases hends with
  | fault _ _ _ _ notAll => exact absurd hk notAll
  | done env stage status total carry result sink =>
    obtain ⟨vs, hlen, hsink⟩ := sink
    rw [emittedCount_eq_floor, samplesDue_encodeTones] at total
    rw [samplesDue_encodeTones, frac_eq] at carry
    have herr : u.status.err = 0 := by rw [status]
    have hstream : u.sink.stream.length = u.total := by rw [hsink, started_acceptList_stream, hlen]
    exact ⟨_, u, hexec, hreach, ⟨stage, herr⟩, status, total, carry, result, hstream,
      env.sameEnvironment_from_command⟩

/-- Settles O53: the run ends in one of two ways, whatever the sink answers, and in both the stream holds the samples that
`TOTAL` counts. -/
theorem everyRunEnds : Obligations.EveryRunEnds := by
  intro m s hinv hq hidle hw hh hr
  have hexec := (m.exec_command s).trans (acceptCommand_starts hidle hw hh hr)
  obtain ⟨u, hreach, hends⟩ := started m hq hinv.noIssue (emitting_none hinv hidle) hw hh hr hinv.preamble
  refine ⟨_, u, hexec, hreach, ?_⟩
  cases hends with
  | done _ stage status _ _ _ sink =>
    obtain ⟨vs, hlen, hsink⟩ := sink
    refine ⟨.inl stage, by rw [status], by rw [status], fun _ => by rw [status], fun h => ?_, ?_⟩
    · rw [stage] at h; cases h
    · rw [hsink, started_acceptList_stream, hlen]
  | fault _ stage status sink _ =>
    obtain ⟨vs, hlen, hsink⟩ := sink
    refine ⟨.inr stage, by rw [status]; rfl, by rw [status]; rfl, fun h => ?_, fun _ => by rw [status]; rfl, ?_⟩
    · rw [stage] at h; cases h
    · rw [hsink, Sink.refuse_stream, started_acceptList_stream, hlen]

end Sys2Proof.Machine
end

section
/-! PROOFS. The encodings (R75 to R80, R88 to R90): decoding gives back what was encoded, and encoding what was decoded. -/

namespace Sys2Proof

/-! ### The formats with an illegal row -/

theorem isMode_iff (c : ModeCode) : c.isMode = true ↔ c = 0b1001100#7 ∨ c = 0b1011111#7 ∨ c = 0b0001000#7 := by
  simp [ModeCode.isMode, or_assoc]

/-- Format `CMD`: a code that is no mode decodes to CMD.ILLEGAL (R88). -/
theorem decodeCommand_of_not_isMode {c : ModeCode} (h : c.isMode = false) : decodeCommand c = .cmdIllegal c := by
  have hne := mt (isMode_iff c).2 (by simp [h])
  push Not at hne
  obtain ⟨hSdx, hPd, hR36⟩ := hne
  rw [decodeCommand, if_neg hSdx, if_neg hPd, if_neg hR36]

/-- A command code decodes to a well-formed operation, whose word it is (R76, R77, R88). -/
theorem decodeCommand_word (c : ModeCode) : (decodeCommand c).wf = true ∧ encode (decodeCommand c) = .cmd c := by
  cases h : c.isMode
  · rw [decodeCommand_of_not_isMode h]; simp [Instr.wf, h, encode]
  · rcases (isMode_iff c).1 h with rfl | rfl | rfl <;> exact ⟨rfl, rfl⟩

/-- A selector `11c` decodes to CH.ILLEGAL with its last bit (R89). -/
theorem decodeChannel_illegal (c : BitVec 1) (x y : Nat) : decodeChannel (0b11#2 ++ c) x y = .chIllegal c x y := by
  have hc : c = 0 ∨ c = 1 := by bv_omega
  rcases hc with rfl | rfl <;> rfl

theorem decodeTone_legal {f d : Rat} (h : Tone.legal ⟨f, d⟩ = true) : decodeTone f d = .emit f d := if_pos h

theorem decodeTone_illegal {f d : Rat} (h : Tone.legal ⟨f, d⟩ = false) : decodeTone f d = .toneIllegal f d :=
  if_neg (by simp [h])

/-- A tone decodes to a well-formed operation, whose word it is (R79, R90). -/
theorem decodeTone_word (f d : Rat) :
    (decodeTone f d).wf = true ∧ encode (decodeTone f d) = .uop 0b0001#4 [.rat f, .rat d] := by
  cases h : Tone.legal ⟨f, d⟩
  · rw [decodeTone_illegal h]; exact ⟨by simp [Instr.wf, h], rfl⟩
  · rw [decodeTone_legal h]; exact ⟨h, rfl⟩

theorem decode_tone (f d : Rat) : decode (.uop 0b0001#4 [.rat f, .rat d]) = .ok (decodeTone f d) := rfl

/-! ### The obligations -/

/-- Settles O56: the four operations whose operands have a domain decode by it, every other word by its number alone. -/
theorem decodeEncodeRoundTrip : Obligations.DecodeEncodeRoundTrip := by
  intro i hwf
  cases i with
  | emit f d => exact (decode_tone f d).trans (congrArg _ (decodeTone_legal hwf))
  | toneIllegal f d =>
    have hillegal : Tone.legal ⟨f, d⟩ = false := by simpa [Instr.wf] using hwf
    exact (decode_tone f d).trans (congrArg _ (decodeTone_illegal hillegal))
  | cmdIllegal mode =>
    have hnone : mode.isMode = false := by simpa [Instr.wf] using hwf
    exact congrArg _ (decodeCommand_of_not_isMode hnone)
  | chIllegal c x y => exact congrArg _ (decodeChannel_illegal c x y)
  | _ => rfl

/-- Settles O57: by carrier and, on `UOP`, by number; number `1010` is the second form of SAMPLE. -/
theorem decodedWordsAreTheOperationsWords : Obligations.DecodedWordsAreTheOperationsWords := by
  intro w i h
  cases w with
  | cmd mode =>
    obtain rfl : decodeCommand mode = i := Except.ok.inj h
    exact ⟨(decodeCommand_word mode).1, .inl (decodeCommand_word mode).2⟩
  | ch sel x y =>
    obtain rfl : decodeChannel sel x y = i := Except.ok.inj h
    exact ⟨(decodeChannel_word sel x y).1, .inl (decodeChannel_word sel x y).2⟩
  | uop code args =>
    rcases decodeUop_cases h with ⟨rfl, rfl, rfl⟩ | ⟨rfl, f, d, rfl, rfl⟩ | ⟨rfl, v, rfl, rfl⟩ | ⟨rfl, a, b, rfl, rfl⟩ |
      ⟨rfl, a, rfl, rfl⟩ | ⟨rfl, c, rfl, rfl⟩ | ⟨rfl, rfl, rfl⟩ | ⟨rfl, rfl, rfl⟩ | ⟨rfl, rfl, rfl⟩ | ⟨rfl, rfl, rfl⟩ |
      ⟨rfl, sel, x, y, rfl, rfl⟩
    case inr.inl => exact ⟨(decodeTone_word f d).1, .inl (decodeTone_word f d).2⟩
    case inr.inr.inr.inr.inr.inr.inr.inr.inr.inr =>
      exact ⟨(decodeChannel_word sel x y).1, .inr ⟨sel, x, y, rfl, (decodeChannel_word sel x y).2⟩⟩
    all_goals exact ⟨rfl, .inl rfl⟩

/-- Settles O58: each word is decoded by the tables' rows. -/
theorem tableWordsDecode : Obligations.TableWordsDecode :=
  ⟨rfl, rfl, rfl, rfl, fun _ _ => ⟨rfl, rfl⟩, rfl, rfl, rfl, rfl, fun _ => ⟨rfl, rfl⟩⟩

end Sys2Proof
end

section
/-! PROOFS. The samples of EMIT (R90, R112, R116 to R119, R125, R254): their values over the reals, where they stop, and how
two tones join. -/

namespace Sys2Proof.Machine

/-! ### The samples of a tone -/

/-- Sample `i` of a tone is the document's formula over the reals (R116 to R118). -/
theorem toneSamples_formula (sr : BitVec 32) (hr : sr ≠ 0) (f : ℚ) (o : Osc) (n i : ℕ)
    (h : i < (toneSamples sr f o.ph n).length) :
    ((toneSamples sr f o.ph n)[i]).toInt = formulaSample sr.toNat f o.la o.lc i := by
  rw [toneSamples_getElem, sampleWord_toInt, dac_formula sr hr]

/-- The first samples of a tone are those of a shorter tone. -/
theorem toneSamples_take (sr : BitVec 32) (f p : ℚ) {j n : ℕ} (h : j ≤ n) :
    (toneSamples sr f p n).take j = toneSamples sr f p j := by
  rw [toneSamples, ← List.map_take, List.take_range, Nat.min_eq_left h, toneSamples]

theorem toneSamples_succ (sr : BitVec 32) (f p : ℚ) (n : ℕ) :
    toneSamples sr f p (n + 1) = toneSamples sr f p n ++ [sampleWord (phaseAt sr f p n)] := by
  simp [toneSamples, List.range_succ]

theorem toneSamples_succ_eq_cons (sr : BitVec 32) (f p : ℚ) (n : ℕ) :
    toneSamples sr f p (n + 1) = sampleWord p :: (toneSamples sr f p (n + 1)).tail := by
  simp [toneSamples, List.range_succ_eq_map, phaseAt_zero_index]

theorem sampleWord_frac (t : ℚ) : sampleWord (frac t) = sampleWord t := by rw [sampleWord, dac_frac, sampleWord]

/-! ### The domain of EMIT (R90) -/

theorem exec_emit_illegal {f d : ℚ} (h : f < 0 ∨ d ≤ 0) (s : State) : exec (.emit f d) s = .refused .toneOutOfDomain := by
  have hillegal : ¬ Tone.legal ⟨f, d⟩ = true := by
    rw [legal_iff, not_and_or, not_le, not_lt]; exact h
  exact if_neg hillegal

theorem exec_toneIllegal (f d : ℚ) (s : State) : exec (.toneIllegal f d) s = .refused .toneOutOfDomain := rfl

theorem exec_emit_zero {f d : ℚ} {s : State} (hf : 0 ≤ f) (hd : 0 < d) (hr : s.latched.sr = 0) :
    exec (.emit f d) s = .refused .sampleRateZero := by
  have hexec : exec (.emit f d) s = execEmit f d s := rfl
  rw [hexec, execEmit, if_pos ((legal_iff ⟨f, d⟩).2 ⟨hf, hd⟩), if_pos hr]

theorem exec_encodeVis_illegal (code : ModeCode) {s : State} (hr : s.latched.sr ≠ 0)
    (h : ∃ t ∈ s.params.preamble, t.f < 0 ∨ t.d ≤ 0) : exec (.encodeVis code) s = .refused .toneOutOfDomain := by
  have hillegal : ¬ s.params.preamble.all Tone.legal = true := by
    obtain ⟨t, ht, hdom⟩ := h
    intro hall
    obtain ⟨hf, hd⟩ := (legal_iff t).1 (List.all_eq_true.1 hall t ht)
    rcases hdom with h | h
    · exact absurd hf (not_le.2 h)
    · exact absurd hd (not_lt.2 h)
  have hexec : exec (.encodeVis code) s = execEncodeVis code s := rfl
  rw [hexec, execEncodeVis, if_neg hr, if_neg hillegal]

/-! ### The obligations -/

/-- Settles O5: the samples EMIT appends are those of the tone, each by the formula. -/
theorem emitSamplesFollowTheSineFormula : Obligations.EmitSamplesFollowTheSineFormula := fun f d s hf hd hr hacc =>
  ⟨emitted ⟨f, d⟩ s, toneSamples s.latched.sr f s.osc.ph (segmentCount s.latched.sr d s.osc.carry),
    execEmit_on hf hd hr hacc, Sink.acceptList_accepted _ _, toneSamples_length _ _ _ _,
    fun i => toneSamples_formula s.latched.sr hr f s.osc _ i⟩

/-- Settles O7: `emitted` updates no other field, and takes one answer of the sink for each sample. -/
theorem emitFrame : Obligations.EmitFrame := by
  intro f d s hf hd hr hacc
  refine ⟨emitted ⟨f, d⟩ s, execEmit_on hf hd hr hacc, rfl, ?_, fun a => by rw [emitted_pix]⟩
  rw [emitted_sink, Sink.acceptList, toneSamples_length]

/-- Settles O10: the fault entry of the sink's failure keeps the carry of the tone and the samples before the failing one. -/
theorem emitStopsAtTheFailingSample : Obligations.EmitStopsAtTheFailingSample := by
  intro f d s j hf hd hr hj hacc hfail
  have hexec : exec (.emit f d) s = .next (emitFailed ⟨f, d⟩ j s) := by
    rw [execEmit_next hf hd hr, emitTone_raised ⟨f, d⟩ hj hacc hfail, Flow.state_raised]
  have haccepted : (emitFailed ⟨f, d⟩ j s).sink.accepted = s.sink.accepted ++ toneSamples s.latched.sr f s.osc.ph j := by
    rw [← toneSamples_take s.latched.sr f s.osc.ph hj.le]
    exact Sink.acceptList_accepted _ _
  exact ⟨_, _, hexec, rfl, rfl, rfl, rfl, rfl, haccepted, toneSamples_length _ _ _ _,
    fun i => toneSamples_formula s.latched.sr hr f s.osc j i, rfl, rfl, rfl, rfl, rfl, rfl, rfl, rfl,
    ⟨rfl, rfl, rfl, rfl⟩⟩

/-- Settles O11: each clause is the operation's case for that part of the domain. -/
theorem toneMeaningExactlyOnItsDomain : Obligations.ToneMeaningExactlyOnItsDomain := fun f d s =>
  ⟨fun h => exec_emit_illegal h s, exec_toneIllegal f d s, fun hf hd hr => ⟨_, execEmit_next hf hd hr⟩,
    exec_emit_zero, fun code hr h => exec_encodeVis_illegal code hr h⟩

/-- Settles O12: under LAST the phase is re-seeded at the last sample, and a tone's first sample is the one at that phase. -/
theorem tonesJoinWithoutAJump : Obligations.TonesJoinWithoutAJump := by
  intro f g d e s t hf hd hg he hr hlast hk ht hpos hpos'
  obtain rfl : emitted ⟨f, d⟩ s = t :=
    Host.Outcome.next.inj ((execEmit_on hf hd hr (Sink.acceptsAll_accepts hk _)).symm.trans ht)
  have hkt : (emitted ⟨f, d⟩ s).sink.acceptsAll := Sink.acceptsAll_acceptList hk _
  have hu := execEmit_on hg he (s := emitted ⟨f, d⟩ s) hr (Sink.acceptsAll_accepts hkt _)
  obtain ⟨n, hn⟩ := Nat.exists_eq_add_one.2 hpos
  obtain ⟨m, hm⟩ := Nat.exists_eq_add_one.2 hpos'
  have hph : (emitted ⟨f, d⟩ s).osc.ph = frac (phaseAt s.latched.sr f s.osc.ph n) := by
    simp only [emitted, hn, hlast, reseedIndex, Nat.add_sub_cancel]
  refine ⟨_, toneSamples s.latched.sr f s.osc.ph n, sampleWord (phaseAt s.latched.sr f s.osc.ph n),
    (toneSamples s.latched.sr g (emitted ⟨f, d⟩ s).osc.ph (m + 1)).tail, hu, ?_, ?_⟩
  · rw [emitted_sink, Sink.acceptList_accepted, hn, toneSamples_succ, List.append_assoc]
  · rw [emitted_sink _ (emitted ⟨f, d⟩ s), Sink.acceptList_accepted, hm, toneSamples_succ_eq_cons, hph, sampleWord_frac]
    rfl

end Sys2Proof.Machine
end

section
/-! PROOFS. The sample function DAC (R129): its zeros, peaks, symmetry and range, and the phases at which the ideal value is a
tie. -/

namespace Sys2Proof.Machine

open Real

/-! ### Values (R129 (a)) -/

theorem dac_zero : dac 0 = 0 := by rw [dac_eq]; norm_num [roundHalfAway]

theorem dac_quarter : dac (1 / 4) = 32767 := by
  rw [dac_eq]
  push_cast
  rw [show 2 * π * (1 / 4) = π / 2 by ring, sin_pi_div_two]
  apply roundHalfAway_of_eq <;> norm_num

/-- R129 (b): the sine is odd about the half turn, and rounding away from zero is odd. -/
theorem dac_one_sub (t : ℚ) : dac (1 - t) = -dac t := by
  rw [dac_eq, dac_eq, ← roundHalfAway_neg, ← mul_neg, ← sin_two_pi_sub]
  push_cast
  ring_nf

theorem dac_half : dac (1 / 2) = 0 := by
  have h := dac_one_sub (1 / 2)
  norm_num at h ⊢
  omega

theorem roundHalfAway_tie : roundHalfAway (32767 * (1 / 2)) = 16384 := by apply roundHalfAway_of_eq <;> norm_num

theorem sin_turn_twelfth : sin (2 * π * (1 / 12)) = 1 / 2 := by
  rw [show 2 * π * (1 / 12) = π / 6 by ring, sin_pi_div_six]

theorem sin_turn_five_twelfths : sin (2 * π * (5 / 12)) = 1 / 2 := by
  rw [show 2 * π * (5 / 12) = 5 * π / 6 by ring, sin_five_pi_div_six]

theorem dac_twelfth : dac (1 / 12) = 16384 := by
  rw [dac_eq]; push_cast; rw [sin_turn_twelfth, roundHalfAway_tie]

theorem dac_five_twelfths : dac (5 / 12) = 16384 := by
  rw [dac_eq]; push_cast; rw [sin_turn_five_twelfths, roundHalfAway_tie]

/-- A value past the half turn, from its mirror image. -/
theorem dac_mirror {t u : ℚ} (h : t = 1 - u) : dac t = -dac u := by rw [h, dac_one_sub]

/-! ### Range (R129 (c)) -/

theorem dac_le (t : ℚ) : dac t ≤ 32767 := (dac_range t).2

theorem neg_le_dac (t : ℚ) : -32767 ≤ dac t := by
  have h := dac_le (1 - t)
  rw [dac_one_sub] at h
  omega

/-! ### Ties (R129 (d)) -/

theorem principalTurn_mem (t : ℚ) : -(1 / 2) ≤ principalTurn t ∧ principalTurn t ≤ 1 / 2 := by
  have h0 := frac_nonneg (t + 1 / 2)
  have h1 := frac_lt_one (t + 1 / 2)
  unfold principalTurn
  constructor <;> linarith

/-- The principal turn is the fraction, less a whole turn from the half turn on. -/
theorem principalTurn_eq (t : ℚ) :
    principalTurn t = if Int.fract t < 1 / 2 then Int.fract t else Int.fract t - 1 := by
  have h0 := Int.fract_nonneg t
  have h1 := Int.fract_lt_one t
  have hsum : t + 1 / 2 = Int.fract t + 1 / 2 + (⌊t⌋ : ℤ) := by
    have := Int.floor_add_fract t
    linarith
  rw [principalTurn, frac_eq, hsum, Int.fract_add_intCast]
  split_ifs with h
  · rw [Int.fract_eq_self.2 ⟨by linarith, by linarith⟩]; ring
  · have hone : Int.fract t + 1 / 2 = (Int.fract t - 1 / 2) + (1 : ℤ) := by push_cast; ring
    rw [hone, Int.fract_add_intCast, Int.fract_eq_self.2 ⟨by linarith, by linarith⟩]
    ring

/-- Before the half turn the principal turn is the fraction, so only the first two tie phases can be; from the half turn on it
is a turn less, so only the last two. -/
theorem isTie_principalTurn (t : ℚ) : isTie (principalTurn t) ↔
    Int.fract t = 1 / 12 ∨ Int.fract t = 5 / 12 ∨ Int.fract t = 7 / 12 ∨ Int.fract t = 11 / 12 := by
  have h0 := Int.fract_nonneg t
  have h1 := Int.fract_lt_one t
  rw [isTie, principalTurn_eq]
  split_ifs with h
  · grind
  · grind

/-- The denominator of a phase clears its principal turn too. -/
theorem principalTurn_mul_den (t : ℚ) : ∃ z : ℤ, principalTurn t * t.den = z := by
  refine ⟨t.num - (t + 1 / 2).floor * t.den, ?_⟩
  have h := Rat.mul_den_eq_num t
  unfold principalTurn frac
  push_cast
  linarith

/-- At a tie phase the ideal value is `± 16383.5`. -/
theorem half_integer_of_isTie {u : ℚ} (h : isTie u) : ∃ z : ℤ, 32767 * sin (2 * π * u) = z + 1 / 2 := by
  rcases h with rfl | rfl | rfl | rfl <;> push_cast
  · exact ⟨16383, by rw [sin_turn_twelfth]; norm_num⟩
  · exact ⟨16383, by rw [sin_turn_five_twelfths]; norm_num⟩
  · exact ⟨-16384, by rw [neg_div, mul_neg, sin_neg, sin_turn_twelfth]; norm_num⟩
  · exact ⟨-16384, by rw [neg_div, mul_neg, sin_neg, sin_turn_five_twelfths]; norm_num⟩

/-- At any other phase the ideal value keeps a distance from every half-integer (`half_gap`). -/
theorem isTie_of_half_integer {t : ℚ} {z : ℤ} (h : 32767 * sin (2 * π * (principalTurn t : ℚ)) = z + 1 / 2) :
    isTie (principalTurn t) := by
  by_contra hno
  obtain ⟨hlo, hhi⟩ := principalTurn_mem t
  have hc : |2 * z + 1| ≤ 65535 := by
    have hsin := abs_le.1 (abs_sin_le_one (2 * π * (principalTurn t : ℚ)))
    have hup : (z : ℝ) < 32767 := by linarith [hsin.2]
    have hdown : (-32768 : ℝ) < z := by linarith [hsin.1]
    have hup' : z < 32767 := by exact_mod_cast hup
    have hdown' : -32768 < z := by exact_mod_cast hdown
    rw [abs_le]; omega
  have hgap := half_gap t.den_pos (principalTurn_mul_den t) hlo hhi hno ⟨z, rfl⟩ hc
  have hzero : 32767 * sin (2 * π * (principalTurn t : ℚ)) - ((2 * z + 1 : ℤ) : ℝ) / 2 = 0 := by
    rw [h]; push_cast; ring
  rw [hzero, abs_zero] at hgap
  exact absurd hgap (not_le.2 (by positivity))

theorem half_integer_iff (t : ℚ) : (∃ z : ℤ, 32767 * sin (2 * π * t) = z + 1 / 2) ↔
    Int.fract t = 1 / 12 ∨ Int.fract t = 5 / 12 ∨ Int.fract t = 7 / 12 ∨ Int.fract t = 11 / 12 := by
  rw [← isTie_principalTurn, sin_turn]
  exact ⟨fun ⟨_, h⟩ => isTie_of_half_integer h, half_integer_of_isTie⟩

/-! ### The obligation -/

/-- Settles O14: the values past the half turn mirror those before it, and the ties are `half_integer_iff`. -/
theorem sampleFunctionProperties : Obligations.SampleFunctionProperties :=
  ⟨dac_zero, dac_half, dac_quarter, by rw [dac_mirror (u := 1 / 4) (by norm_num), dac_quarter],
    dac_twelfth, dac_five_twelfths, by rw [dac_mirror (u := 5 / 12) (by norm_num), dac_five_twelfths],
    by rw [dac_mirror (u := 1 / 12) (by norm_num), dac_twelfth],
    fun t => ⟨dac_eq t, dac_one_sub t, neg_le_dac t, dac_le t, sampleWord_toInt t, half_integer_iff t⟩⟩

end Sys2Proof.Machine
end

section
/-! PROOFS. The sampler's range and domain (R53, R148), the pixel addresses (R50, R51), and that no operation touches the
environment's side of the state (R54, R323). -/

namespace Sys2Proof.Machine

/-! ### The sampler (R53, R148) -/

/-- What a SAMPLE that answers returns. -/
theorem samplePixel_result {value : State → Nat → Nat → Rat} {x y : Nat} {s t : State}
    (h : samplePixel value x y s = .next t) : t.result = value s x y := by
  unfold samplePixel at h
  split at h
  · cases h; rfl
  · cases h

theorem samplePixel_outside (value : State → Nat → Nat → Rat) {x y : Nat} {s : State}
    (h : s.latched.w.toNat ≤ x ∨ s.latched.h.toNat ≤ y) : samplePixel value x y s = .fault .pixelOutsideBuffer := by
  have hout : ¬ insideBuffer s.latched x y = true := by rw [insideBuffer_iff]; omega
  exact if_neg hout

theorem Mode.exec_scan_outside (m : Mode) {s : State} (hr : s.latched.sr ≠ 0)
    (h : s.latched.w.toNat < m.width ∨ s.latched.h.toNat < m.rows) : exec m.scan s = .fault .pixelOutsideBuffer := by
  have hout : ¬ (m.width ≤ s.latched.w.toNat ∧ m.rows ≤ s.latched.h.toNat) := by omega
  rw [m.exec_scan, scanImage, if_neg hr, if_neg hout]

/-- Settles O19: the result is the channel's value, whose range is that of its formula on bytes. -/
theorem sampleResultsStayInRange : Obligations.SampleResultsStayInRange := by
  intro x y s t
  refine ⟨fun i hi h => ?_, fun h => ?_, fun h => ?_, fun h => ?_⟩
  · simp only [List.mem_cons, List.not_mem_nil, or_false] at hi
    rcases hi with rfl | rfl | rfl <;> rw [samplePixel_result h]
    · exact byte_range _
    · exact byte_range _
    · exact byte_range _
  · rw [samplePixel_result h]; norm_num; exact lumaOf_range _ _ _
  · rw [samplePixel_result h]; norm_num; exact redChromaOf_range _ _ _
  · rw [samplePixel_result h]; norm_num; exact blueChromaOf_range _ _ _

/-- Settles O20: the six channels share the check of the pixel, and the scans check their image's size. -/
theorem sampleOutsideTheBufferStops : Obligations.SampleOutsideTheBufferStops := by
  refine ⟨fun x y s i hout hi => ?_, fun m s hr h => m.exec_scan_outside hr h⟩
  simp only [List.mem_cons, List.not_mem_nil, or_false] at hi
  rcases hi with rfl | rfl | rfl | rfl | rfl | rfl <;> exact samplePixel_outside _ hout

/-! ### The pixel addresses (R50, R51) -/

/-- An address names its column, row and channel (R51). -/
theorem pixelAddress_inj {w : BitVec 16} {x y c x' y' c' : ℕ} (hx : x < w.toNat) (hc : c < 3) (hx' : x' < w.toNat)
    (hc' : c' < 3) (h : pixelAddress w x' y' c' = pixelAddress w x y c) : x' = x ∧ y' = y ∧ c' = c := by
  unfold pixelAddress at h
  have hcc : c' = c := by omega
  have hpixel : x' + w.toNat * y' = x + w.toNat * y := by rw [Nat.mul_comm _ y', Nat.mul_comm _ y]; omega
  have hcol := congrArg (· % w.toNat) hpixel
  have hrow := congrArg (· / w.toNat) hpixel
  have hpos : 0 < w.toNat := by omega
  simp only [Nat.add_mul_mod_self_left, Nat.mod_eq_of_lt hx, Nat.mod_eq_of_lt hx'] at hcol
  simp only [Nat.add_mul_div_left _ _ hpos, Nat.div_eq_of_lt hx, Nat.div_eq_of_lt hx', Nat.zero_add] at hrow
  exact ⟨hcol, hrow, hcc⟩

theorem pixelAddress_lt {w : BitVec 16} {h x y c : ℕ} (hx : x < w.toNat) (hy : y < h) (hc : c < 3) :
    pixelAddress w x y c < 3 * w.toNat * h := by
  have hrows : (y + 1) * w.toNat ≤ h * w.toNat := Nat.mul_le_mul_right _ hy
  have hcomm : 3 * w.toNat * h = 3 * (h * w.toNat) := by ring
  rw [hcomm, pixelAddress]
  rw [Nat.add_mul] at hrows
  omega

/-- The pixel and channel at an address: quotients and remainders by 3 and by the width. -/
theorem pixelAddress_surj {w : BitVec 16} {h a : ℕ} (ha : a < 3 * w.toNat * h) :
    a / 3 % w.toNat < w.toNat ∧ a / 3 / w.toNat < h ∧ pixelAddress w (a / 3 % w.toNat) (a / 3 / w.toNat) (a % 3) = a := by
  have hpixel : a / 3 < w.toNat * h := by rw [Nat.mul_assoc] at ha; omega
  have hpos : 0 < w.toNat := Nat.pos_of_ne_zero fun h0 => by simp [h0] at hpixel
  refine ⟨Nat.mod_lt _ hpos, (Nat.div_lt_iff_lt_mul hpos).2 (by rwa [Nat.mul_comm] at hpixel), ?_⟩
  rw [pixelAddress, Nat.div_add_mod', Nat.div_add_mod]

/-- Settles O23: an address below the bound is that of its quotients and remainders, and of no other channel. -/
theorem pixelAddressesTileTheBuffer : Obligations.PixelAddressesTileTheBuffer := by
  intro w h a
  constructor
  · intro ha
    obtain ⟨hx, hy, haddr⟩ := pixelAddress_surj ha
    have hc : a % 3 < 3 := Nat.mod_lt _ (by decide)
    exact ⟨_, _, _, hx, hy, hc, haddr, fun x' y' c' hx' _ hc' h' => pixelAddress_inj hx hc hx' hc' (h'.trans haddr.symm)⟩
  · rintro ⟨x, y, c, hx, hy, hc, rfl, _⟩
    exact pixelAddress_lt hx hy hc

/-! ### The environment's side (R54, R323, R38) -/

theorem SameEnvironment.refl (s : State) : SameEnvironment s s := ⟨rfl, rfl, rfl, rfl⟩

theorem acceptCommand_sameEnvironment {c : ModeCode} {s t : State} (h : acceptCommand c s = .next t) :
    SameEnvironment s t := by
  rcases acceptCommand_next h with rfl | ⟨e, _, rfl⟩ | ⟨_, _, _, _, _, _, rfl⟩
  · exact .refl _
  · exact sameEnvironment_rejected e c s
  · exact sameEnvironment_started c s

theorem samplePixel_sameEnvironment {value : State → Nat → Nat → Rat} {x y : Nat} {s t : State}
    (h : samplePixel value x y s = .next t) : SameEnvironment s t := by
  unfold samplePixel at h
  split at h
  · cases h; exact ⟨rfl, rfl, rfl, rfl⟩
  · cases h

theorem pushSample_sameEnvironment (v : Sample) (s : State) : SameEnvironment s (pushSample v s).state := by
  unfold pushSample; split <;> exact ⟨rfl, rfl, rfl, rfl⟩

/-- A stage: its program, then its hand-over. -/
theorem runProgram_andThen_sameEnvironment (code : ModeCode) (es : List Entry) (s : State) {g : State → State}
    (hg : ∀ u, KeptByProgram u (g u)) :
    SameEnvironment s ((runProgram code es s).andThen fun u => .on (g u)).state :=
  (Flow.andThen_kept (g := fun u => .on (g u)) (runProgram_kept code es s) hg).toSameEnvironment

theorem handOver_kept (stage : Stage) (s : State) : KeptByProgram s (handOver stage s) := ⟨⟨rfl, rfl, rfl, rfl⟩, rfl, rfl⟩

theorem complete_kept (s : State) : KeptByProgram s (complete s) := ⟨⟨rfl, rfl, rfl, rfl⟩, rfl, rfl⟩

theorem execEmit_sameEnvironment {f d : ℚ} {s t : State} (h : execEmit f d s = .next t) : SameEnvironment s t := by
  unfold execEmit at h
  split_ifs at h
  cases h
  exact (emitTone_kept ⟨f, d⟩ s).toSameEnvironment

theorem execEncodeVis_sameEnvironment {code : ModeCode} {s t : State} (h : execEncodeVis code s = .next t) :
    SameEnvironment s t := by
  unfold execEncodeVis at h
  split_ifs at h
  cases h
  exact runProgram_andThen_sameEnvironment _ _ _ (handOver_kept _)

theorem scanImage_sameEnvironment {m : Mode} {es : List Entry} {s t : State} (h : scanImage m es s = .next t) :
    SameEnvironment s t := by
  unfold scanImage at h
  split_ifs at h
  cases h
  exact runProgram_andThen_sameEnvironment _ _ _ (handOver_kept _)

theorem execEot_sameEnvironment {s t : State} (h : execEot s = .next t) : SameEnvironment s t := by
  unfold execEot at h
  split_ifs at h
  cases h
  exact runProgram_andThen_sameEnvironment _ _ _ complete_kept

/-- No operation touches the environment's side, family by family. -/
theorem exec_sameEnvironment {i : Instr} {s t : State} (h : exec i s = .next t) : SameEnvironment s t := by
  cases i with
  | encodeSdx => exact acceptCommand_sameEnvironment (c := Mode.code .scottieDx) h
  | encodePd120 => exact acceptCommand_sameEnvironment (c := Mode.code .pd120) h
  | encodeR36 => exact acceptCommand_sameEnvironment (c := Mode.code .robot36) h
  | cmdIllegal => exact acceptCommand_sameEnvironment h
  | sampleR | sampleG | sampleB | sampleY | sampleRY | sampleBY => exact samplePixel_sameEnvironment h
  | scanSdx | scanPd120 | scanR36 => exact scanImage_sameEnvironment h
  | emit => exact execEmit_sameEnvironment h
  | encodeVis => exact execEncodeVis_sameEnvironment h
  | eot => exact execEot_sameEnvironment h
  | push v => cases h; exact pushSample_sameEnvironment v s
  | oscReset | avg2 | fmap | chIllegal => cases h; exact ⟨rfl, rfl, rfl, rfl⟩
  | toneIllegal => cases h

/-- Settles O25: with the buffer unchanged every byte reads as before. -/
theorem noOperationTouchesTheEnvironment : Obligations.NoOperationTouchesTheEnvironment := fun _ _ _ h =>
  ⟨exec_sameEnvironment h, fun _ => by rw [(exec_sameEnvironment h).pix]⟩

end Sys2Proof.Machine
end

section
/-! PROOFS. The stages of an encode as wholes (R84, R187, R188, R202, R217, R231, R232, R254, R256): their tones counted, the end
of transmission, and what stops a stage. -/

namespace Sys2Proof.Machine

/-! ### The tones of a body counted (R187, R188, R202, R217) -/

theorem Mode.scanTones_length (m : Mode) (s : State) : (scanTones m s).length = (m.program s).length := by
  rw [← m.program_tones, List.length_map]

theorem Mode.scanTones_duration (m : Mode) (s : State) : nominalDuration (scanTones m s) = entriesDuration (m.program s) := by
  rw [← m.program_tones, entriesDuration]

/-- Settles O32: the tones are those of the scan's program, whose rows are counted by `rows_sum`. -/
theorem scanTotals : Obligations.ScanTotals := by
  intro s
  simp only [Mode.scanTones_length, Mode.scanTones_duration, Mode.program]
  obtain ⟨hlenS, hdurS⟩ := sdxProgram_size s
  obtain ⟨hlenP, hdurP⟩ := pdProgram_size s
  obtain ⟨hlenR, hdurR⟩ := r36Program_size s
  exact ⟨⟨hlenS, hdurS.trans (by norm_num)⟩, ⟨hlenP, hdurP.trans (by norm_num)⟩, hlenR, hdurR⟩

/-- The tones of a row of a black Scottie-DX image, from its first separator on (R188). -/
def blackRow : List Tone :=
  [⟨1500, 3 / 2⟩] ++ List.replicate 320 ⟨1500, 108 / 100⟩
    ++ [⟨1500, 3 / 2⟩] ++ List.replicate 320 ⟨1500, 108 / 100⟩
    ++ [⟨1200, 9⟩]
    ++ [⟨1500, 3 / 2⟩] ++ List.replicate 320 ⟨1500, 108 / 100⟩

theorem pixelTones_zero (w : Nat) (d : Rat) : pixelTones w (fun _ => 0) d = List.replicate w ⟨1500, d⟩ := by
  simp [pixelTones]

/-- On a black image every row has the same tones; row 0 has one sync tone before them. -/
theorem scanTones_black {s : State} (h : ∀ a, s.pix.read a = 0) :
    scanTones .scottieDx s = ⟨1200, 9⟩ :: (List.range 256).flatMap fun _ => blackRow := by
  have hred : ∀ x y, redAt s x y = 0 := fun x y => by simp [redAt, pixelByte, h]
  have hgreen : ∀ x y, greenAt s x y = 0 := fun x y => by simp [greenAt, pixelByte, h]
  have hblue : ∀ x y, blueAt s x y = 0 := fun x y => by simp [blueAt, pixelByte, h]
  have hrow : scanTones .scottieDx s
      = (List.range 256).flatMap fun row => (if row = 0 then [⟨1200, 9⟩] else []) ++ blackRow := by
    simp only [scanTones, hred, hgreen, hblue, pixelTones_zero, blackRow, List.append_assoc]
  rw [hrow, List.range_succ_eq_map, List.flatMap_cons, List.flatMap_cons, List.flatMap_map, List.flatMap_map]
  simp only [if_true, Nat.succ_ne_zero, if_false, List.nil_append, List.cons_append]

theorem countP_flatMap_const (p : Tone → Bool) (row : List Tone) (n : Nat) :
    ((List.range n).flatMap fun _ => row).countP p = n * row.countP p := by
  simp [List.countP_flatMap, Function.comp_def]

theorem scanTones_black_countP {s : State} (h : ∀ a, s.pix.read a = 0) (p : Tone → Bool) :
    (scanTones .scottieDx s).countP p = 256 * blackRow.countP p + if p ⟨1200, 9⟩ then 1 else 0 := by
  rw [scanTones_black h, List.countP_cons, countP_flatMap_const]

theorem blackRow_countP_sync : blackRow.countP (fun t => t.f = 1200) = 1 := by
  norm_num [blackRow, List.countP_append, List.countP_replicate]

theorem blackRow_countP_black : blackRow.countP (fun t => t.f = 1500) = 963 := by
  norm_num [blackRow, List.countP_append, List.countP_replicate]

theorem blackRow_pixel {t : Tone} (ht : t ∈ blackRow) (hd : t.d = 1.08) : t.f = 1500 := by
  simp only [blackRow, List.mem_append, List.mem_singleton, List.mem_replicate] at ht
  have hsync : t ≠ ⟨1200, 9⟩ := by rintro rfl; norm_num at hd
  grind

/-- Settles O33: 256 rows with one tone of 1200 Hz and 963 of 1500 Hz each, and the sync tone before the first. -/
theorem blackScottieImage : Obligations.BlackScottieImage := by
  intro s h
  refine ⟨?_, ?_, fun t ht hd => ?_⟩
  · rw [scanTones_black_countP h, blackRow_countP_sync]; norm_num
  · rw [scanTones_black_countP h, blackRow_countP_black]; norm_num
  · rw [scanTones_black h] at ht
    rcases List.mem_cons.1 ht with rfl | ht
    · norm_num at hd
    · obtain ⟨_, _, ht⟩ := List.mem_flatMap.1 ht
      exact blackRow_pixel ht hd

/-! ### Parity (R84, R165) -/

/-- Slots 12 to 19 are the seven data bits and the parity bit. -/
theorem visTones_bits (code : ModeCode) : ((visTones code).drop 12).take 8
    = (List.range 7).map (fun j => bitTone (code.getLsbD j)) ++ [bitTone (parityBit code)] := rfl

theorem bitTone_one_iff (b : Bool) : (bitTone b).f = 1100 ↔ b = true := by cases b <;> norm_num [bitTone]

/-- Of the first `n` data bits as many are at 1100 Hz as are ones. -/
theorem countP_dataBits (code : ModeCode) (n : Nat) :
    ((List.range n).map fun j => bitTone (code.getLsbD j)).countP (fun t => t.f = 1100) = onesBelow code n := by
  rw [onesBelow_eq_length_filter, List.countP_map, List.countP_eq_length_filter]
  simp only [Function.comp_def, bitTone_one_iff, Bool.decide_eq_true]

/-- Settles O28: the parity bit is a one exactly when the data bits hold an odd number of ones. -/
theorem visParityIsEven : Obligations.VisParityIsEven := by
  intro code
  rw [visTones_bits, List.countP_append, countP_dataBits, List.countP_singleton]
  simp only [bitTone_one_iff, parityBit, beq_iff_eq, decide_eq_true_eq]
  split <;> omega

/-! ### A stage in which the sink fails (R254, R258) -/

/-- The first sample the sink refuses is the only one with all before it accepted. -/
theorem Sink.first_refused_unique {k : Sink} {i j : ℕ} (hi : k.accepts i) (hi' : k.answerTo i = false) (hj : k.accepts j)
    (hj' : k.answerTo j = false) : i = j := by
  rcases Nat.lt_trichotomy i j with h | h | h
  · rw [hj i h] at hi'; cases hi'
  · exact h
  · rw [hi j h] at hj'; cases hj'

/-- A program in which the sink refuses sample `j` fails. -/
theorem runProgram_raised (code : ModeCode) (es : List Entry) {s : State} {j : ℕ}
    (hl : (es.map Prod.snd).all Tone.legal = true) (h0 : 0 ≤ s.osc.carry) (h1 : s.osc.carry < 1)
    (hj : j < emittedCount s.latched.sr s.osc.carry (es.map Prod.snd)) (hf : s.sink.answerTo j = false) :
    ∃ t, runProgram code es s = .raised t ∧ FailedRun (emittedCount s.latched.sr s.osc.carry (es.map Prod.snd)) s t := by
  rcases runProgram_cases code es s hl h0 h1 with ⟨hacc, _⟩ | hfail
  · rw [hacc j hj] at hf; cases hf
  · exact hfail

/-- A failed program has accepted exactly the samples before the first refused one. -/
theorem FailedRun.samples_before {n j : ℕ} {s t : State} (h : FailedRun n s t) (hacc : s.sink.accepts j)
    (hf : s.sink.answerTo j = false) :
    ∃ vs : List Sample, vs.length = j ∧ t.total = s.total + j ∧ t.sink.accepted = s.sink.accepted ++ vs := by
  obtain ⟨vs, _, htotal, hsink, hacc', hf'⟩ := h.samples
  obtain rfl := Sink.first_refused_unique hacc' hf' hacc hf
  exact ⟨vs, rfl, htotal, by rw [hsink]; exact Sink.acceptList_accepted _ _⟩

/-- Settles O34: each of the three kinds of stage is a program with a hand-over after it, which a failed program does not
reach. -/
theorem stageStopsAtTheFailingSample : Obligations.StageStopsAtTheFailingSample := by
  intro i s j n hr h0 h1 hstage hj hacc hf
  obtain ⟨code, es, g, hexec, hl, hn⟩ : ∃ code es g,
      exec i s = .next ((runProgram code es s).andThen g).state ∧ (es.map Prod.snd).all Tone.legal = true ∧
        n = emittedCount s.latched.sr s.osc.carry (es.map Prod.snd) := by
    rcases hstage with ⟨m, rfl, hw, hh, hn⟩ | ⟨code, rfl, hpre, hn⟩ | ⟨rfl, hn⟩
    · exact ⟨_, _, _, m.exec_scan_next hr hw hh, m.program_legal s, by rw [m.program_tones]; exact hn⟩
    · have hl := preamble_legal hpre
      exact ⟨_, _, _, exec_encodeVis_next code hr hl, visProgram_legal code hl, by rw [visProgram_tones]; exact hn⟩
    · exact ⟨_, _, _, exec_eot_next hr, by rw [eotProgram_tones]; exact eotTones_legal,
        by rw [eotProgram_tones]; exact hn⟩
  obtain ⟨t, hrun, hfail⟩ := runProgram_raised code es hl h0 h1 (hn ▸ hj) hf
  obtain ⟨vs, hlen, htotal, haccepted⟩ := hfail.samples_before hacc hf
  rw [hrun, Flow.andThen_raised, Flow.state_raised] at hexec
  exact ⟨t, vs, hexec, hfail.stage, hfail.status, htotal, hlen, haccepted, hfail.emitting, hfail.latched, hfail.issue,
    hfail.toSameEnvironment⟩

/-! ### The end of transmission (R231, R232) -/

/-- No tone of the end of transmission is at a VIS position. -/
theorem eotProgram_not_vis : ∀ e ∈ eotProgram, e.1.stage ≠ .vis := by decide

/-- Settles O35: the program EOT plays has the five tones, and completion keeps what they leave but `SEQ`, the status and the
result. -/
theorem eotEmitsItsTonesAndCompletes : Obligations.EotEmitsItsTonesAndCompletes := by
  intro s hr hk
  have hexec : exec .eot s = .next (complete (played s.latched.mode eotProgram s)) := by
    rw [exec_eot_next hr, runProgram_acceptsAll _ _ hk, Flow.andThen_on, Flow.state_on]
  obtain ⟨u, hu, hsame⟩ := played_emitAll s.latched.mode eotProgram (u := s) ⟨rfl, rfl, rfl, rfl, rfl⟩
    (by rw [eotProgram_tones]; exact eotTones_legal) hr hk
  rw [eotProgram_tones] at hu
  have hframe := played_frame s.latched.mode eotProgram s
  refine ⟨_, u, hexec, hu, hsame.sink.symm, hsame.total.symm, hsame.osc.symm, rfl, ?_, rfl,
    played_visOnes _ _ _ eotProgram_not_vis, hframe.latched, hframe.issue, hframe.emitting,
    ⟨hframe.pix, hframe.params, hframe.pins, hframe.inputs⟩⟩
  rw [complete_status, Status.completed, hframe.status]

/-! ### Rate 0 (R256) -/

/-- Settles O40: the rate is the first check of a stage and the last of a command. -/
theorem zeroRateHasNoMeaning : Obligations.ZeroRateHasNoMeaning := fun s =>
  ⟨fun hr => ⟨fun _ => if_pos hr, fun m => (m.exec_scan s).trans (if_pos hr), if_pos hr⟩,
    fun m hidle hw hh hr => (m.exec_command s).trans (acceptCommand_zero hidle hw hh hr)⟩

end Sys2Proof.Machine
end

section
/-! PROOFS. Single steps (R7, R59, R225, R237, R286): hardware reset, the host's stores, an issued or presented operation, the
next sample, the next tone, and rest. -/

namespace Sys2Proof.Machine

/-! ### What the sequencers' parts leave alone -/

theorem emitSample_sameEnvironment (e : Emission) (s : State) : SameEnvironment s (emitSample e s) := by
  rcases emitSample_cases e s with ⟨_, _, heq⟩ | ⟨_, _, heq⟩ | ⟨_, heq⟩ <;> rw [heq] <;> constructor <;> simp

theorem issueTone_sameEnvironment (t : Tone) (s : State) : SameEnvironment s (issueTone t s) := by
  rcases issueTone_cases t s with ⟨_, heq⟩ | ⟨_, heq⟩ <;> rw [heq] <;> constructor <;> simp

theorem issueTone_sink (t : Tone) (s : State) : (issueTone t s).sink = s.sink := by
  rcases issueTone_cases t s with ⟨_, heq⟩ | ⟨_, heq⟩ <;> simp [heq]

theorem issueTone_total (t : Tone) (s : State) : (issueTone t s).total = s.total := by
  rcases issueTone_cases t s with ⟨_, heq⟩ | ⟨_, heq⟩ <;> simp [heq]

theorem issueTone_latched (t : Tone) (s : State) : (issueTone t s).latched = s.latched := by
  rcases issueTone_cases t s with ⟨_, heq⟩ | ⟨_, heq⟩ <;> simp [heq]

theorem issueTone_carry (t : Tone) (s : State) :
    (issueTone t s).osc.carry = segmentCarry s.latched.sr t.d s.osc.carry := by
  rcases issueTone_cases t s with ⟨_, heq⟩ | ⟨_, heq⟩ <;> simp [heq]

theorem sequencerStep_sameEnvironment {s t : State} (h : sequencerStep s = .next t) : SameEnvironment s t := by
  rcases sequencerStep_cases h with ⟨e, _, rfl⟩ | ⟨tone, _, _, _, _, _, _, rfl⟩ | ⟨_, _, rfl⟩
  · exact emitSample_sameEnvironment e s
  · exact issueTone_sameEnvironment tone s
  · exact .refl _

/-! ### What a step appends to the sink (R56, R62) -/

/-- The sink's samples are those before and at most one more. -/
def AppendsAtMostOne (s t : State) : Prop := ∃ vs, t.sink.accepted = s.sink.accepted ++ vs ∧ vs.length ≤ 1

theorem AppendsAtMostOne.of_accepted_eq {s t : State} (h : t.sink.accepted = s.sink.accepted) : AppendsAtMostOne s t :=
  ⟨[], by rw [h, List.append_nil], Nat.zero_le 1⟩

theorem acceptCommand_accepted {c : ModeCode} {s t : State} (h : acceptCommand c s = .next t) :
    t.sink.accepted = s.sink.accepted := by
  rcases acceptCommand_next h with rfl | ⟨_, _, rfl⟩ | ⟨_, _, _, _, _, _, rfl⟩ <;> rfl

theorem emitSample_appends (e : Emission) (s : State) : AppendsAtMostOne s (emitSample e s) := by
  rcases emitSample_cases e s with ⟨_, _, heq⟩ | ⟨_, _, heq⟩ | ⟨_, heq⟩ <;> rw [heq]
  · exact ⟨_, Sink.accept_accepted _ _, le_rfl⟩
  · exact ⟨_, by rw [finishTone_sink]; exact Sink.accept_accepted _ _, le_rfl⟩
  · exact .of_accepted_eq rfl

theorem sequencerStep_appends {s t : State} (h : sequencerStep s = .next t) : AppendsAtMostOne s t := by
  rcases sequencerStep_cases h with ⟨e, _, rfl⟩ | ⟨tone, _, _, _, _, _, _, rfl⟩ | ⟨_, _, rfl⟩
  · exact emitSample_appends e s
  · exact .of_accepted_eq (by rw [issueTone_sink])
  · exact .of_accepted_eq rfl

/-- Settles O47: of the things a step can do only the next sample appends one, and none stores to the buffer. -/
theorem streamIsAppendOnly : Obligations.StreamIsAppendOnly := by
  intro s t hi h
  rcases step_cases hi h with ⟨_, rfl⟩ | ⟨_, _, ⟨_, _, hcmd⟩ | ⟨_, hseq⟩⟩
  · exact ⟨AppendsAtMostOne.of_accepted_eq rfl, rfl, rfl⟩
  · have henv := acceptCommand_sameEnvironment hcmd
    have haccepted : t.sink.accepted = s.sink.accepted :=
      acceptCommand_accepted (s := s.takePins.placeStores) hcmd
    exact ⟨AppendsAtMostOne.of_accepted_eq haccepted, henv.pix, henv.params⟩
  · have henv := sequencerStep_sameEnvironment hseq
    have happends : AppendsAtMostOne s t := sequencerStep_appends (s := s.takePins.placeStores) hseq
    exact ⟨happends, henv.pix, henv.params⟩

/-! ### The next sample, the next tone, and rest (R7, R237) -/

theorem step_emitting {s : State} {e : Emission} (hq : s.quiet) (hi : s.issue = none) (he : s.emitting = some e) :
    step s = .next (emitSample e s) := by
  rw [step_undisturbed ⟨hq, hi⟩, sequencerStep, he]

theorem sequencerStep_resting {s : State} (he : s.emitting = none) (hrun : s.seq.stage.running = false) :
    sequencerStep s = .next s := by
  simp [sequencerStep, he, hrun]

/-- Settles O44: a sample before the last only moves the index; the last one ends the tone. -/
theorem stepEmitsTheNextSample : Obligations.StepEmitsTheNextSample := by
  intro s e hq hi he hans
  refine ⟨emitSample e s, step_emitting hq hi he, ?_⟩
  have henv := emitSample_sameEnvironment e s
  rcases emitSample_cases e s with ⟨_, hmore, heq⟩ | ⟨_, hlast, heq⟩ | ⟨hrefused, _⟩
  · rw [heq] at henv ⊢
    exact ⟨rfl, Sink.accept_accepted _ _, fun _ => ⟨rfl, rfl, rfl, rfl, rfl, rfl⟩, fun h => absurd hmore h, rfl, henv⟩
  · rw [heq] at henv ⊢
    exact ⟨by simp, by simp [Sink.accept_accepted], fun h => absurd h hlast, fun _ => by simp, by simp, henv⟩
  · rw [hans] at hrefused; cases hrefused

/-- Settles O45: a tone of at least one sample is in progress from index 0; one of none is over, with its phase re-seeded at
index 0. -/
theorem stepIssuesTheToneOfSeq : Obligations.StepIssuesTheToneOfSeq := by
  intro s t hq hi he hrun htone hf hd hin hr
  have hstep : step s = .next (issueTone t s) :=
    step_issue ⟨⟨hq, hi⟩, he, hrun, htone, hin, (legal_iff t).2 ⟨hf, hd⟩, hr⟩
  refine ⟨_, hstep, issueTone_total t s, issueTone_sink t s, issueTone_carry t s, issueTone_latched t s,
    issueTone_sameEnvironment t s, fun hn => ?_, fun hn => ?_⟩ <;>
    rcases issueTone_cases t s with ⟨hcount, heq⟩ | ⟨hcount, heq⟩
  · exact absurd hcount hn
  · rw [heq]; exact ⟨rfl, rfl, rfl, rfl⟩
  · rw [heq]; simp [reseedIndex_zero, phaseAt_zero_index]
  · exact absurd hn hcount

/-- Settles O46: at a resting position the sequencers do nothing. -/
theorem restingPositionsRest : Obligations.RestingPositionsRest := by
  intro s hq hi he hrest
  have hrun : s.seq.stage.running = false := by
    simp only [List.mem_cons, List.not_mem_nil, or_false] at hrest
    rcases hrest with h | h | h <;> rw [h] <;> rfl
  rw [step_undisturbed ⟨hq, hi⟩, sequencerStep_resting he hrun]

/-! ### Issued and presented operations (R225) -/

/-- Settles O41: without reset and without a store while busy the step acts, and acts on the issued word first. -/
theorem stepRunsTheIssuedOperation : Obligations.StepRunsTheIssuedOperation := by
  intro s i w hissue hdecode hrst hstores
  have hbreach : ¬ (s.status.busy = true ∧ s.nextPins.stores ≠ []) := by
    rintro ⟨hbusy, hne⟩
    rcases hstores with h | h
    · rw [h] at hbusy; cases hbusy
    · exact hne h
  have hword : s.takePins.placeStores.issue = some w := hissue
  rw [step_eq, if_neg (by simp [hrst]), if_neg hbreach, act]
  simp only [hword, hdecode]
  rfl

/-- Settles O42: with nothing issued a command presented while not busy is accepted, as the operation its code decodes to. -/
theorem stepAcceptsThePresentedCommand : Obligations.StepAcceptsThePresentedCommand := by
  intro s hissue hrst hvalid hidle
  have hcmd : s.takePins.placeStores.pins.cmdValid = true ∧ s.takePins.placeStores.status.busy = false := ⟨hvalid, hidle⟩
  rw [step_eq, if_neg (by simp [hrst]), if_neg (by simp [hidle]), act_noIssue (s := s.takePins.placeStores) hissue,
    if_pos hcmd, exec_decodeCommand]
  rfl

theorem decodeTableWord_some {nbits w : ℕ} {i : Instr} (h : decodeTableWord nbits w = some i) :
    ∃ word, tableIssue nbits w = some word ∧ decode word = .ok i := by
  unfold decodeTableWord at h
  split at h
  · cases h
  · rename_i word htable
    split at h
    · rename_i hdecode
      exact ⟨word, htable, hdecode.trans (congrArg _ (Option.some.inj h))⟩
    · cases h

/-- A command word goes to the command port of the next step. -/
theorem step_fetched_command {s : State} {nbits w : ℕ} {mode : ModeCode} (htable : tableIssue nbits w = some (.cmd mode))
    (hidle : s.status.busy = false) : step (s.withFetchWord nbits w) = exec (decodeCommand mode)
      { s with pins := { s.pins.quiet with cmdValid := true, cmdMode := mode }, issue := none } := by
  simp only [State.withFetchWord, htable]
  exact stepAcceptsThePresentedCommand _ rfl rfl rfl hidle

/-- Any other word goes to the issue field, with the ports quiet. -/
theorem step_fetched_issue {s : State} {nbits w : ℕ} {word : IssueWord} {i : Instr}
    (htable : tableIssue nbits w = some word) (hcmd : ∀ mode, word ≠ .cmd mode) (hdecode : decode word = .ok i) :
    step (s.withFetchWord nbits w) = exec i { s with pins := s.pins.quiet, issue := none } := by
  cases word with
  | cmd mode => exact absurd rfl (hcmd mode)
  | ch | uop =>
    simp only [State.withFetchWord, htable]
    exact stepRunsTheIssuedOperation _ i _ rfl hdecode rfl (.inr rfl)

/-- Settles O43: a command word goes to the command port, any other to the issue field, and the step takes it from there. -/
theorem fetchWordRunsNext : Obligations.FetchWordRunsNext := by
  intro s nbits w i h hidle
  obtain ⟨word, htable, hdecode⟩ := decodeTableWord_some h
  cases word with
  | cmd mode =>
    obtain rfl : decodeCommand mode = i := Except.ok.inj hdecode
    exact ⟨_, step_fetched_command htable hidle, rfl, rfl, rfl⟩
  | ch | uop => exact ⟨_, step_fetched_issue htable (by simp) hdecode, rfl, rfl, rfl⟩

/-! ### The host's stores and hardware reset (R286, R289) -/

/-- Settles O24: at rest the step only takes the ports and places the store. -/
theorem hostStoreReachesItsByteOnly : Obligations.HostStoreReachesItsByteOnly := by
  intro s a v hwf hstores hrst hvalid hi he hrun hidle
  have hstep : step s = .next s.takePins.placeStores := by
    rw [step_eq, if_neg (by simp [hrst]), if_neg (by simp [hidle]), act_noIssue (s := s.takePins.placeStores) hi,
      if_neg (by simp [hvalid]), sequencerStep_resting (s := s.takePins.placeStores) he hrun]
  have hpix : s.takePins.placeStores.pix = s.pix.write a.toNat v := by
    rw [placeStores_pix, takePins_pins, hstores]; rfl
  refine ⟨_, hstep, ?_⟩
  rw [hpix]
  exact ⟨Memory.write_wf _ _ _ hwf, Memory.read_write_same _ _ _ hwf, fun b hb => Memory.read_write_other _ _ hb⟩

/-- Settles O2: reset goes before everything else of the step. -/
theorem hardwareResetFromAnyState : Obligations.HardwareResetFromAnyState := fun s hrst =>
  ⟨hardwareReset s.takePins.placeStores, by rw [step_eq, if_pos hrst], rfl, rfl, rfl, rfl, rfl, start_la, start_lc, rfl, rfl,
    rfl, rfl, rfl, rfl, rfl, rfl, rfl⟩

/-- Settles O1: the oscillator of the reset state is the start value of R111. -/
theorem resetIsIdleAndReady : Obligations.ResetIsIdleAndReady :=
  ⟨rfl, rfl, rfl, start_la, start_lc, rfl, rfl, rfl⟩

end Sys2Proof.Machine
end
